-- ==== Sys2Proof/Word.lean ====
section
/-! DEFINITION. The widths of the CORE: bytes, machine words, addresses, command words. -/

namespace Sys2Proof

/-- An 8-bit byte of main memory (spec/00_scope.md section 6.1). -/
abbrev Byte := BitVec 8

/-- A 32-bit word: the bus datum `word32`, and the machine word of the registers and the
program counter with `WORD_BITS = 32` (rule R5, decision D1). -/
abbrev Word := BitVec 32

/-- A bus address with `ADDR_BITS = 32` (rules R5, R40, decision D2). -/
abbrev Addr := BitVec 32

/-- A command word of `8 + ADDR_BITS + 32 = 72` bits (rule R62). -/
abbrev CommandWord := BitVec 72

/-- The register file `x[0] .. x[31]` (rule R10). -/
abbrev Regs := Vector Word 32

end Sys2Proof
end

