-- ==== Sys2Proof/Syntax.lean ====
section
/-! DEFINITION. The operations of the CORE, one constructor per row of spec/opcode_table.json, the
agents that issue them, and the two kinds of bit pattern that name them. -/

namespace Sys2Proof

/-- The three agents that take steps (rule R7). -/
inductive Agent where
  /-- The background execution context of the scheduler. -/
  | loop
  /-- The display refresh context of the external UI. -/
  | refresh
  /-- Whoever issues the control operations and, in tests, bus operations. -/
  | host
deriving DecidableEq, Repr, Inhabited

/-- The operations of rule R66 and the processor instruction word of rule R72. -/
inductive Instr where
  /-- `READ32 addr` (rule R80). -/
  | read32 (addr : Addr)
  /-- `WRITE32 addr, data` (rule R81); `data` is already `trunc_32` of the issuer's value (R65, R82). -/
  | write32 (addr : Addr) (data : Word)
  /-- `STEP` (rule R90). -/
  | step
  /-- `START` (rule R126). -/
  | start
  /-- `STOP` (rule R127). -/
  | stop
  /-- `PAUSE` (rule R128). -/
  | pause
  /-- `RESUME` (rule R129). -/
  | resume
  /-- `GET_RATE` (rule R131). -/
  | getRate
  /-- `GET_ISRUNNING` (rule R132). -/
  | getIsRunning
  /-- `RENDER` (rule R110). -/
  | render
  /-- `SET_FB_BASE addr` (rule R120). -/
  | setFbBase (addr : Addr)
  /-- `LOOP_ITER`, an event of the loop agent (rule R140). -/
  | loopIter
  /-- `LOOP_EXIT`, the loop agent's last event (rule R145). -/
  | loopExit
  /-- `INSN`: the processor instruction word a fetching `Exec` acts on (rule R72). -/
  | insn (iw : Word)
deriving DecidableEq, Repr

/-- The operand formats of rule R63, and the 32-bit instruction word of rule R72. -/
inductive Format where
  | n | a | ad | i32
deriving DecidableEq, Repr

/-- A bit pattern that names an operation: a 72-bit command word (rule R62) or a 32-bit processor
instruction word (rule R72). The two levels are never confused (spec/30_encoding.md section 0). -/
inductive Code where
  | command (word : CommandWord)
  | instruction (word : Word)
deriving DecidableEq, Repr

/-- Why a bit pattern names no operation. -/
inductive Reject where
  /-- The opcode is one of the 243 reserved values of rule R67. -/
  | reservedOpcode (op : Byte)
deriving DecidableEq, Repr

/-- The scheduler's lifecycle states (rule R26). -/
inductive SchedState where
  | idle | running | paused | stopped
deriving DecidableEq, Repr

end Sys2Proof
end

