-- ==== Sys2Proof/Config.lean ====
section
/-! DEFINITION. What a session or an implementation fixes: the shape of the extension point `Exec`,
the session parameters, and the open parameters, constants without a body. -/

namespace Sys2Proof

/-- The part of a run of `Exec` after its first `WRITE32` (rule R94). A `DecodeError` cannot occur
here, which is obligation (f) of rule R95; `done` carries the count less one, which is obligation
(e); an inductive tree is finite, which is obligation (d). -/
inductive ExecTail where
  /-- A `READ32` and what follows, given the value read. -/
  | read (addr : Addr) (next : Word → ExecTail)
  /-- A `WRITE32` and what follows. -/
  | write (addr : Addr) (val : Word) (next : ExecTail)
  /-- `Done(x', pc', n)` with `n = extra + 1`. -/
  | done (x : Regs) (pc : Word) (extra : Nat)
deriving Inhabited

/-- A run of `Exec` from its start (rules R94, R95): reads, then either a `DecodeError` with its
`info`, or the writing part. Reads and writes are the only accesses it can name (obligations (a),
(b)), and all it depends on is the values read (obligation (c)). -/
inductive ExecProg where
  /-- A `READ32` and what follows, given the value read. -/
  | read (addr : Addr) (next : Word → ExecProg)
  /-- `raise DecodeError(info)` (rule R101). -/
  | decodeError (info : List Word)
  /-- From here on no `DecodeError` is raised. -/
  | commit (tail : ExecTail)
deriving Inhabited

/-- Which strategy is plugged in behind `STEP` (rule R94). -/
inductive Strategy where
  /-- `ExecPlaceholder` (rule R97). -/
  | placeholder
  /-- `ExecNull` (rule R100). -/
  | null
  /-- Any other strategy: the open parameter `Exec` (rule R94), `Config.pluggedExec`. -/
  | plugged
deriving DecidableEq, Repr

/-- The framebuffer synchronisation options the spec defines (rule R58). -/
inductive FbSync where
  | none | rwlock
deriving DecidableEq, Repr

/-- A pixel as the sink receives it: (red, green, blue), one byte each (rules R110, R112). -/
structure Pixel where
  red : Byte
  green : Byte
  blue : Byte
deriving DecidableEq, Repr, Inhabited

/-- `RESET_VECTOR` (rules R6, R13), open. -/
opaque Config.resetVector : Word

/-- `PLACEHOLDER_COLOR` (rules R6, R97), open. -/
opaque Config.placeholderColor : Word

/-- `LOOP_DELAY` (rules R6, R144) is open but positive: this pair `(a, b)` stands for the delay
`(a + 1) / (b + 1)` seconds, which is every positive rational. -/
opaque Config.loopDelayParts : Nat × Nat

/-- `LOOP_DELAY` in seconds (rules R6, R144). -/
def Config.loopDelay : Rat :=
  ((Config.loopDelayParts.1 : Rat) + 1) / ((Config.loopDelayParts.2 : Rat) + 1)

/-- The open parameter `Exec` (rules R6, R94): the run from the registers and the program counter. -/
opaque Config.pluggedExec : Regs → Word → ExecProg

/-- `SinkEncode` (rules R6, R112): the sink's own representation of a pixel, open. -/
opaque Config.sinkEncode : Pixel → List Byte

/-- Free value: which agent moves at the `n`-th unscheduled turn, unless an agent is overdue (rules
R54, R150). -/
opaque Config.freeAgent : Nat → Agent

/-- Free value: how many unscheduled turns pass before the agent of round `n` is overdue; any finite
number, which is all that fairness says (rule R150). -/
opaque Config.freePatience : Nat → Nat

/-- Free value: which of its remaining byte events that agent takes (rules R51, R52). -/
opaque Config.freePick : Nat → Nat

/-- Free value: the seconds that pass before the `n`-th unscheduled turn (rule R141). -/
opaque Config.freeElapse : Nat → Rat

/-- The parameters that keep their value for the session and belong to no block (rules R2, R6). -/
structure Session where
  /-- `TARGET_HZ` (rule R2), read by no rule (R196). -/
  targetHz : Rat
  /-- `RESET_VECTOR` (rule R13). -/
  resetVector : Word
  /-- `PLACEHOLDER_COLOR` (rule R97). -/
  placeholderColor : Word
  /-- `LOOP_DELAY` in seconds (rule R144). -/
  loopDelay : Rat
  /-- `Exec` (rule R94). -/
  strategy : Strategy
  /-- `FB_SYNC` (rule R58). -/
  fbSync : FbSync
deriving DecidableEq, Repr

/-- What construction of a session takes (rules R2, R6, R112, R180). -/
structure SessionParams where
  /-- `S`, the bytes of main memory. -/
  size : Nat
  /-- `W`. -/
  width : Nat
  /-- `H`. -/
  height : Nat
  /-- The width of the attached sink's surface. -/
  sinkWidth : Nat
  /-- The height of the attached sink's surface. -/
  sinkHeight : Nat
  session : Session
deriving DecidableEq, Repr

/-- The reference values of rule R2, the open parameters of rule R6, `FB_SYNC = none` (R58). -/
def SessionParams.reference : SessionParams where
  size := 0x800000
  width := 320
  height := 240
  sinkWidth := 320
  sinkHeight := 240
  session :=
    { targetHz := 60
      resetVector := Config.resetVector
      placeholderColor := Config.placeholderColor
      loopDelay := Config.loopDelay
      strategy := .plugged
      fbSync := .none }

end Sys2Proof
end

