-- ==== Sys2Proof/WellFormed.lean ====
section
/-! DEFINITION. The checks of the spec on terms: which agent may issue which operation (rules R68,
R69), and which session parameters are legal (rules R3, R5, R112). Every operand of `Instr` is in
range by its type. -/

namespace Sys2Proof

/-- The issuer restrictions of rules R68 and R69. `READ32`, `WRITE32` and `STEP` of the loop agent
occur only inside its `LOOP_ITER`, so they are no operation of their own there; `INSN` is no command
(rule R72). That a host `STEP` needs `ctxLive = false` depends on the state and is checked when the
command is run. -/
def Instr.admitted (a : Agent) (i : Instr) : Bool :=
  match i with
  | .read32 _ => a == .host
  | .write32 _ _ => a == .host
  | .step => a == .host
  | .start => a == .host
  | .stop => a == .host
  | .pause => a == .host
  | .resume => a == .host
  | .getRate => a != .loop
  | .getIsRunning => a != .loop
  | .render => a != .loop
  | .setFbBase _ => a == .host
  | .loopIter => a == .loop
  | .loopExit => a == .loop
  | .insn _ => false

/-- The bounds of rule R3, `2^ADDR_BITS > S` (rule R5), `LOOP_DELAY > 0` (R6), and a sink whose
surface is `W × H` (rule R112). -/
abbrev SessionParams.legal (p : SessionParams) : Prop :=
  4 ≤ p.size ∧ p.size < 2 ^ 32 ∧ 1 ≤ p.width ∧ 1 ≤ p.height ∧ 0 < p.session.targetHz ∧
    0 < p.session.loopDelay ∧ p.sinkWidth = p.width ∧ p.sinkHeight = p.height

end Sys2Proof
end

