-- ==== Sys2Proof/Decode.lean ====
section
/-! DEFINITION. The decoder of command words and instruction words (rules R62 to R68, R72), and the
encoder of the same tables. -/

namespace Sys2Proof

/-- `op = cmd[71:64]` (rule R62). -/
def opField (w : CommandWord) : Byte := w.extractLsb' 64 8

/-- `addr = cmd[63:32]`, used as an unsigned integer exactly as carried (rules R62, R65). -/
def addrField (w : CommandWord) : Addr := w.extractLsb' 32 32

/-- `data = cmd[31:0]` (rule R62). -/
def dataField (w : CommandWord) : Word := w.extractLsb' 0 32

/-- A command word is selected by `op` alone (rule R66); fields a format does not use are ignored
(rule R63); every other opcode is reserved (rule R67). `LOOP_ITER` and `LOOP_EXIT` decode here
because a trace names them so; `Instr.admitted` keeps them from the command port (rule R68). -/
def decodeCommand (w : CommandWord) : Except Reject Instr :=
  if opField w = 0x01 then .ok (.read32 (addrField w))
  else if opField w = 0x02 then .ok (.write32 (addrField w) (dataField w))
  else if opField w = 0x10 then .ok .step
  else if opField w = 0x20 then .ok .start
  else if opField w = 0x21 then .ok .stop
  else if opField w = 0x22 then .ok .pause
  else if opField w = 0x23 then .ok .resume
  else if opField w = 0x24 then .ok .getRate
  else if opField w = 0x25 then .ok .getIsRunning
  else if opField w = 0x30 then .ok .render
  else if opField w = 0x31 then .ok (.setFbBase (addrField w))
  else if opField w = 0x80 then .ok .loopIter
  else if opField w = 0x81 then .ok .loopExit
  else .error (.reservedOpcode (opField w))

/-- The decoder: total, rejecting by name. The whole 32-bit space of instruction words belongs to
`Exec` (rule R72), so every one of them is an `INSN`. -/
def decode (c : Code) : Except Reject Instr :=
  match c with
  | .command w => decodeCommand w
  | .instruction iw => .ok (.insn iw)

/-- Decoding for an issuer: the restrictions of rule R69 are part of decoding. -/
def decodeFor (a : Agent) (w : CommandWord) : Option Instr :=
  match decodeCommand w with
  | .ok i => if i.admitted a then some i else none
  | .error _ => none

/-- The instruction the decoder reads from the bits of a table row: 72 bits are a command word, 32
bits an instruction word (rules R62, R72). -/
def decodeTableWord (nbits w : Nat) : Option Instr :=
  (decode (if nbits ≤ 32 then .instruction (BitVec.ofNat 32 w)
    else .command (BitVec.ofNat 72 w))).toOption

/-- `cmd = op ++ addr ++ data` (rule R62). -/
def commandWord (op : Byte) (addr : Addr) (data : Word) : CommandWord := op ++ addr ++ data

/-- The canonical encoding: ignored fields are zero (rules R63, R66, R72). -/
def encode (i : Instr) : Code :=
  match i with
  | .read32 addr => .command (commandWord 0x01 addr 0)
  | .write32 addr data => .command (commandWord 0x02 addr data)
  | .step => .command (commandWord 0x10 0 0)
  | .start => .command (commandWord 0x20 0 0)
  | .stop => .command (commandWord 0x21 0 0)
  | .pause => .command (commandWord 0x22 0 0)
  | .resume => .command (commandWord 0x23 0 0)
  | .getRate => .command (commandWord 0x24 0 0)
  | .getIsRunning => .command (commandWord 0x25 0 0)
  | .render => .command (commandWord 0x30 0 0)
  | .setFbBase addr => .command (commandWord 0x31 addr 0)
  | .loopIter => .command (commandWord 0x80 0 0)
  | .loopExit => .command (commandWord 0x81 0 0)
  | .insn iw => .instruction iw

/-- The mnemonics of rule R66, letter for letter, and `INSN` (rule R72). -/
def Instr.mnemonic (i : Instr) : String :=
  match i with
  | .read32 _ => "READ32"
  | .write32 _ _ => "WRITE32"
  | .step => "STEP"
  | .start => "START"
  | .stop => "STOP"
  | .pause => "PAUSE"
  | .resume => "RESUME"
  | .getRate => "GET_RATE"
  | .getIsRunning => "GET_ISRUNNING"
  | .render => "RENDER"
  | .setFbBase _ => "SET_FB_BASE"
  | .loopIter => "LOOP_ITER"
  | .loopExit => "LOOP_EXIT"
  | .insn _ => "INSN"

/-- The operand formats of rule R63. -/
def Instr.format (i : Instr) : Format :=
  match i with
  | .read32 _ => .a
  | .write32 _ _ => .ad
  | .step => .n
  | .start => .n
  | .stop => .n
  | .pause => .n
  | .resume => .n
  | .getRate => .n
  | .getIsRunning => .n
  | .render => .n
  | .setFbBase _ => .a
  | .loopIter => .n
  | .loopExit => .n
  | .insn _ => .i32

/-- A command word with the fields its format ignores set to zero (rule R63). -/
def canonicalWord (f : Format) (w : CommandWord) : CommandWord :=
  match f with
  | .n => commandWord (opField w) 0 0
  | .a => commandWord (opField w) (addrField w) 0
  | .ad => w
  | .i32 => w

/-- The operation the pseudo-operation `TOGGLE` expands to, if any (rules R71, R130). -/
def expandToggle (st : SchedState) : Option Instr :=
  match st with
  | .running => some .pause
  | .paused => some .resume
  | .idle => none
  | .stopped => none

end Sys2Proof
end

