-- ==== Sys2Proof/Machine/State.lean ====
section
/-! DEFINITION. The state of the CORE, block by block (rule R1), as plain data, with the operations in
flight and the inputs still to come, and the state after reset (spec/10_state.md section 7). -/

namespace Sys2Proof.Machine

/-- Why a machine stops with a fault. Nothing in this hardware is a fault: no access faults and the
one stopped condition, the halt, is a state (spec/93_implementation_defined.md section 1). Nobody
raises one, which is safe. -/
inductive Fault where
deriving DecidableEq, Repr

/-- Why a step has no meaning. -/
inductive Refusal where
  /-- An instruction without a meaning in this model. Raised by no arm. Safe. -/
  | notModelled (mnemonic : String)
  /-- A host `STEP` while a background context is live: two `STEP`s could overlap, a schedule the
  model gives no meaning (rules R69, R93, R189, U3). Raised by the command port. Safe. -/
  | stepWhileLive
  /-- An operation issued while that agent's previous operation is still in flight, for example a
  `START` while a `STOP` waits (rules R53, R134, U17). Raised by the command port. Safe. -/
  | agentBusy (agent : Agent)
  /-- A schedule that names a `LOOP_ITER` or `LOOP_EXIT` that is not enabled (rules R140, R145).
  Raised by those two meanings. Safe. -/
  | loopEventNotEnabled
deriving DecidableEq, Repr

/-- The bus: main memory and the sparse register file (rules R18, R19). Both lists are in the
canonical form of `Memory.wf`; what is not listed reads as 0. -/
structure AddressSpace where
  /-- `S`, the bytes of main memory. -/
  size : Nat
  /-- `mem[0 .. S-1]`. -/
  mem : List Host.Cell
  /-- `reg[a]` for `a ≥ S - 4`, one 32-bit cell per address. -/
  reg : List (Nat × Word)
deriving DecidableEq, Repr

/-- The cause codes of rule R160 that are ever produced. -/
inductive Cause where
  | none | unsupportedInstruction
deriving DecidableEq, Repr

/-- `haltInfo = (cause, info)` (rule R17). -/
structure HaltInfo where
  cause : Cause
  /-- What the `Exec` passed to `raise DecodeError(info)`; empty at reset. -/
  info : List Word
deriving DecidableEq, Repr

/-- The processor (rules R10 to R17). -/
structure ProcessorUnit where
  /-- `x[0] .. x[31]`; none is hardwired. -/
  x : Regs
  pc : Word
  isRunning : Bool
  halted : Bool
  haltInfo : HaltInfo
deriving DecidableEq, Repr

/-- The video unit (rules R21 to R25). -/
structure VideoUnit where
  width : Nat
  height : Nat
  frameBufferBase : Addr
  /-- `outputBuffer[0 .. FBSIZE-1]`, in the canonical form of `Memory.wf`. -/
  outputBuffer : List Host.Cell
  dirty : Bool
deriving DecidableEq, Repr

/-- One bus operation in flight. A memory access is four byte events in any order, a register-space
access one cell event (rule R51). -/
inductive Access where
  /-- A memory read: the bytes still to read and the bytes read so far, in place. -/
  | memRead (addr : Addr) (left : List (Fin 4)) (got : Word)
  /-- A memory write: the bytes still to write. -/
  | memWrite (addr : Addr) (val : Word) (left : List (Fin 4))
  | cellRead (addr : Addr)
  | cellWrite (addr : Addr) (val : Word)
deriving DecidableEq, Repr

/-- How far a run of `Exec` has come: what its reads returned, oldest first, how many writes it has
completed, and the bus operation in flight. `x` and `pc` do not change before it commits (R96). -/
structure UnitProgress where
  replies : List Word
  writes : Nat
  access : Option Access
deriving DecidableEq, Repr

/-- How far a `RENDER` has come (rules R52, R58). -/
inductive RenderProgress where
  /-- Under `FB_SYNC = rwlock`: the one event of the render is to come (DESIGN CHOICE, log 15). -/
  | whole
  /-- The base read at the start (rule R120) and the indices of the bytes still to read. -/
  | reading (base : Addr) (unread : List Nat)
deriving DecidableEq, Repr

/-- The host's operation in flight. -/
inductive HostActivity where
  | idle
  /-- A `READ32` or `WRITE32`. -/
  | access (acc : Access)
  /-- The wait of a `STOP` for `ctxLive = false` (rule R127). -/
  | joining
  /-- A `STEP` issued by the host (rule R69). -/
  | stepping (progress : UnitProgress)
  /-- A `RENDER` issued by the host (rule R69). That the refresh agent may have a render in flight as
  well, on the same `outputBuffer`, is a DESIGN CHOICE (log 24). -/
  | rendering (progress : RenderProgress)
deriving DecidableEq, Repr

/-- The loop agent's iteration in flight (rule R140). -/
inductive LoopActivity where
  /-- Between iterations. -/
  | idle
  /-- `paused` was sampled false; the `STEP` has not begun. -/
  | sampled
  /-- The `STEP` is in flight. -/
  | stepping (progress : UnitProgress)
  /-- The `STEP` is over or was skipped; the counting part is to come. -/
  | counting
deriving DecidableEq, Repr

/-- The background execution context (rules R27 to R29). `frames` and `t0` exist only with it. -/
structure LoopContext where
  frames : Nat
  /-- The start of the measurement window, in seconds. -/
  t0 : Rat
  /-- The earliest clock reading of the next iteration (rules R141, R144); the model's own. -/
  idleUntil : Rat
  activity : LoopActivity
deriving DecidableEq, Repr

/-- The scheduler (rules R26 to R30). -/
structure ExecutionScheduler where
  schedState : SchedState
  /-- The exact rational of rule R149. -/
  measuredRate : Rat
  ctx : Option LoopContext
deriving DecidableEq, Repr

/-- The status of a response (rule R64). -/
inductive Status where
  | ok | decodeError | refused
deriving DecidableEq, Repr

/-- The value of a response, typed per operation (rule R64). -/
inductive Value where
  | absent
  | word (v : Word)
  | count (n : Nat)
  | rate (r : Rat)
  | flag (b : Bool)
deriving DecidableEq, Repr

/-- The response every operation completes with (rule R64). -/
structure Response where
  status : Status
  value : Value
deriving DecidableEq, Repr

/-- The last response each agent received. -/
structure Responses where
  host : Option Response
  refresh : Option Response
  loop : Option Response
deriving DecidableEq, Repr

/-- One input to the machine: who moves next, and how (rule R8). -/
inductive Turn where
  /-- `agent` issues a command word and the operation runs with no other agent's event inside it. -/
  | command (agent : Agent) (word : CommandWord)
  /-- `agent` issues a command word; the operation's events are taken by later `event` turns. -/
  | issue (agent : Agent) (word : CommandWord)
  /-- `agent` takes the next event of its operation in flight; `pick` selects among the bytes whose
  order is open. An idle loop agent with a live context starts an iteration or exits (R151). -/
  | event (agent : Agent) (pick : Nat)
  /-- The host's pseudo-operation `TOGGLE` (rules R71, R130). -/
  | toggle
  /-- The wall clock advances; the pseudo-operation `SLEEP` (rules R71, R141). -/
  | sleep (seconds : Rat)
deriving DecidableEq, Repr

/-- The counters the free values of unscheduled turns are applied to; the model's own (log 6). -/
structure UnscheduledTurns where
  /-- The unscheduled turns taken so far. -/
  taken : Nat
  /-- Those of them taken since the last round ended. -/
  waited : Nat
  /-- The rounds of fairness that have ended (rule R150). -/
  rounds : Nat
deriving DecidableEq, Repr

/-- The state of the machine. -/
structure State where
  bus : AddressSpace
  cpu : ProcessorUnit
  video : VideoUnit
  sched : ExecutionScheduler
  session : Session
  /-- The last bulk write to the display sink: `W*H` pixels in index order (rule R112). -/
  sink : Option (List Pixel)
  host : HostActivity
  refresh : Option RenderProgress
  /-- The agent whose command is being executed; the model's own. -/
  issuer : Agent
  responses : Responses
  /-- The turns still to come; the model's own record of the input of rule R8. -/
  schedule : List Turn
  /-- The wall clock in seconds (rule R141); the model's own record of that input. -/
  clock : Rat
  /-- What the unscheduled turns count (rules R54, R150); the model's own. -/
  unscheduled : UnscheduledTurns
deriving DecidableEq, Repr

/-- The state construction produces (rule R180, spec/10_state.md section 7). -/
def State.initial (p : SessionParams) : State where
  bus := { size := p.size, mem := [], reg := [] }
  cpu :=
    { x := Vector.replicate 32 0
      pc := p.session.resetVector
      isRunning := false
      halted := false
      haltInfo := { cause := .none, info := [] } }
  video :=
    { width := p.width
      height := p.height
      frameBufferBase := 0
      outputBuffer := []
      dirty := true }
  sched := { schedState := .idle, measuredRate := 0, ctx := none }
  session := p.session
  sink := none
  host := .idle
  refresh := none
  issuer := .host
  responses := { host := none, refresh := none, loop := none }
  schedule := []
  clock := 0
  unscheduled := { taken := 0, waited := 0, rounds := 0 }

/-- `CONSTRUCT` (rules R71, R180): illegal parameters construct no session (rules R3, R112, U14). -/
def State.construct (p : SessionParams) : Option State :=
  if p.legal then some (State.initial p) else none

/-- The machine right after reset: construction with the reference parameters (rules R2, R180). -/
def State.reset : State := State.initial SessionParams.reference

end Sys2Proof.Machine
end

