-- ==== Sys2Proof/Machine/Operands.lean ====
section
/-! DEFINITION. Operand forms: truncation of data and addresses, the bytes of a word, the numeric
codes of the named sets. -/

namespace Sys2Proof.Machine

/-- `trunc_32(v) = v mod 2^32`, for negative `v` its two's-complement low 32 bits (rule R82). -/
def trunc32 (v : Int) : Word := BitVec.ofInt 32 v

/-- `trunc_ADDR_BITS(pc)` (rules R14, R99); the widths are equal here. -/
def truncAddr (pc : Word) : Addr := pc

/-- Byte `k` of a word in memory order, `k = 0` the most significant (rule R46). -/
def byteOf (v : Word) (k : Nat) : Byte := v.extractLsb' (8 * (3 - k)) 8

/-- Four bytes joined big-endian, the first most significant (rule R46). -/
def wordOf (b0 b1 b2 b3 : Byte) : Word := b0 ++ b1 ++ b2 ++ b3

/-- `v` with its byte `k` in memory order replaced by `b`. -/
def setByte (v : Word) (k : Nat) (b : Byte) : Word :=
  wordOf (if k = 0 then b else byteOf v 0) (if k = 1 then b else byteOf v 1)
    (if k = 2 then b else byteOf v 2) (if k = 3 then b else byteOf v 3)

/-- The command word with which a host writes the integer `val`: it places `trunc_32(val)` in the
data field (rules R65, R82). -/
def write32Command (addr : Addr) (val : Int) : Code := encode (.write32 addr (trunc32 val))

/-- The canonical form `#RRGGBB` of a pixel as a 24-bit number (rule R112). -/
def rgb24 (p : Pixel) : BitVec 24 := p.red ++ p.green ++ p.blue

/-- The 8-bit status codes of rule R64. -/
def statusCode (st : Status) : Byte :=
  match st with
  | .ok => 0x00
  | .decodeError => 0x01
  | .refused => 0xFF

/-- The 8-bit cause codes of rule R160. -/
def causeCode (c : Cause) : Byte :=
  match c with
  | .none => 0
  | .unsupportedInstruction => 1

/-- The numeric encoding of the scheduler states (rule R26). -/
def schedCode (st : SchedState) : Nat :=
  match st with
  | .idle => 0
  | .running => 1
  | .paused => 2
  | .stopped => 3

/-- One of the elements of `l`, chosen by `n`; none exactly when `l` is empty. -/
def pickFrom {α : Type} (l : List α) (n : Nat) : Option α := l[n % l.length]?

end Sys2Proof.Machine
end

