-- ==== Sys2Proof/Machine/Flags.lean ====
section
/-! DEFINITION. The flags of the CORE (rule R33): the derived ones, and each event that writes a
flag. There are no condition codes. -/

namespace Sys2Proof.Machine

/-- `running` (rule R26). -/
def ExecutionScheduler.running (d : ExecutionScheduler) : Bool :=
  d.schedState == .running || d.schedState == .paused

/-- `paused` (rule R26). -/
def ExecutionScheduler.paused (d : ExecutionScheduler) : Bool := d.schedState == .paused

/-- `ctxLive`: a background context exists (rule R29). -/
def ExecutionScheduler.ctxLive (d : ExecutionScheduler) : Bool := d.ctx.isSome

/-- The processor flags `START` writes: `isRunning`, `halted`; `haltInfo` is kept (R17, R126). -/
def ProcessorUnit.started (c : ProcessorUnit) : ProcessorUnit :=
  { c with isRunning := true, halted := false }

/-- The processor flag `STOP` clears (rule R127). -/
def ProcessorUnit.stopped (c : ProcessorUnit) : ProcessorUnit := { c with isRunning := false }

/-- The halt entry's writes (rule R162). -/
def ProcessorUnit.haltedWith (c : ProcessorUnit) (info : List Word) : ProcessorUnit :=
  { c with
    isRunning := false
    halted := true
    haltInfo := { cause := .unsupportedInstruction, info := info } }

end Sys2Proof.Machine
end

