-- ==== Sys2Proof/Machine/Ops.lean ====
section
/-! DEFINITION. The shared operations: sparse stores, the bus, the halt entry and its return, the
phases of the scheduler's operations, the parts of a render, responses. -/

namespace Sys2Proof.Machine

/-! ### Sparse stores, canonical: addresses strictly rising, no entry equal to 0 -/

/-- What a store holds at an address; an unlisted address reads as 0, the reset contents of main
memory and of register space (rules R18, R19). -/
def Memory.get {w : Nat} (m : List (Nat × BitVec w)) (a : Nat) : BitVec w :=
  match m with
  | [] => 0
  | (b, v) :: rest => if b = a then v else Memory.get rest a

/-- A store without the entries of one address. -/
def Memory.erase {w : Nat} (m : List (Nat × BitVec w)) (a : Nat) : List (Nat × BitVec w) :=
  m.filter fun c => decide (c.1 ≠ a)

/-- A store with an entry put before the first larger address. -/
def Memory.insert {w : Nat} (m : List (Nat × BitVec w)) (a : Nat) (v : BitVec w) :
    List (Nat × BitVec w) :=
  match m with
  | [] => [(a, v)]
  | (b, u) :: rest =>
    if a < b then (a, v) :: (b, u) :: rest else (b, u) :: Memory.insert rest a v

/-- A store with one address written; writing 0 removes the entry (rule R20). -/
def Memory.set {w : Nat} (m : List (Nat × BitVec w)) (a : Nat) (v : BitVec w) :
    List (Nat × BitVec w) :=
  if v = 0 then Memory.erase m a else Memory.insert (Memory.erase m a) a v

/-- The canonical form: equal stores are equal lists. -/
abbrev Memory.wf {w : Nat} (m : List (Nat × BitVec w)) : Prop :=
  m.Pairwise (fun c d => c.1 < d.1) ∧ ∀ c ∈ m, c.2 ≠ 0

/-- The part of a store at `base .. base + len - 1` below `limit`, moved to start at 0. -/
def Memory.window {w : Nat} (m : List (Nat × BitVec w)) (base len limit : Nat) :
    List (Nat × BitVec w) :=
  (m.filter fun c => decide (base ≤ c.1 ∧ c.1 < base + len ∧ c.1 < limit)).map
    fun c => (c.1 - base, c.2)

/-! ### The bus -/

/-- `BOUND = S - 4`, the first address of register space (rules R4, R41, R42). -/
def AddressSpace.bound (b : AddressSpace) : Nat := b.size - 4

/-- Whether the decoder routes an address to main memory (rules R41, R42). -/
def AddressSpace.toMemory (b : AddressSpace) (addr : Addr) : Bool := decide (addr.toNat < b.bound)

/-- The byte `mem[a]` (rule R18). -/
def AddressSpace.byteAt (b : AddressSpace) (a : Nat) : Byte := Memory.get b.mem a

/-- `mem[a] <- v`. -/
def AddressSpace.setByteAt (b : AddressSpace) (a : Nat) (v : Byte) : AddressSpace :=
  { b with mem := Memory.set b.mem a v }

/-- The cell `reg[a]` (rule R19). -/
def AddressSpace.cellAt (b : AddressSpace) (a : Nat) : Word := Memory.get b.reg a

/-- `reg[a] <- v`. -/
def AddressSpace.setCellAt (b : AddressSpace) (a : Nat) (v : Word) : AddressSpace :=
  { b with reg := Memory.set b.reg a v }

/-- `MemRead(a, 4)`, big-endian (rules R46, R80). -/
def AddressSpace.memRead32 (b : AddressSpace) (a : Nat) : Word :=
  wordOf (b.byteAt a) (b.byteAt (a + 1)) (b.byteAt (a + 2)) (b.byteAt (a + 3))

/-- `MemWrite(a, 4, v)`, big-endian (rules R46, R81). -/
def AddressSpace.memWrite32 (b : AddressSpace) (a : Nat) (v : Word) : AddressSpace :=
  (((b.setByteAt a (byteOf v 0)).setByteAt (a + 1) (byteOf v 1)).setByteAt (a + 2)
    (byteOf v 2)).setByteAt (a + 3) (byteOf v 3)

/-- The bus transaction `read32(addr)` (rule R80). -/
def AddressSpace.read32 (b : AddressSpace) (addr : Addr) : Word :=
  if b.toMemory addr then b.memRead32 addr.toNat else b.cellAt addr.toNat

/-- The bus transaction `write32(addr, v)` (rule R81). -/
def AddressSpace.write32 (b : AddressSpace) (addr : Addr) (v : Word) : AddressSpace :=
  if b.toMemory addr then b.memWrite32 addr.toNat v else b.setCellAt addr.toNat v

/-- `VRead(a)`: the video unit's byte read, past the decoder, zero beyond memory (rule R113). -/
def AddressSpace.vread (b : AddressSpace) (a : Nat) : Byte := if a < b.size then b.byteAt a else 0

/-! ### Responses -/

/-- Deliver a response to an agent (rule R64). -/
def Responses.deliver (rs : Responses) (a : Agent) (r : Response) : Responses :=
  match a with
  | .host => { rs with host := some r }
  | .refresh => { rs with refresh := some r }
  | .loop => { rs with loop := some r }

/-- The operation of agent `a` completes with `(st, v)` (rule R64). -/
def State.respond (s : State) (a : Agent) (st : Status) (v : Value) : State :=
  { s with responses := s.responses.deliver a { status := st, value := v } }

/-- The operation being executed completes with `OK` and a value. -/
def State.done (s : State) (v : Value) : State := s.respond s.issuer .ok v

/-! ### Single fields written -/

/-- The state with another bus. -/
def State.setBus (s : State) (b : AddressSpace) : State := { s with bus := b }

/-- The state with another activity of the host. -/
def State.setHost (s : State) (h : HostActivity) : State := { s with host := h }

/-- The state with another render of the refresh agent in flight, or none. -/
def State.setRefresh (s : State) (r : Option RenderProgress) : State := { s with refresh := r }

/-! ### The one exception: halt entry, and the return from it -/

/-- Taking the exception `DecodeError(info)`: the halt entry of rule R162. Nothing else changes;
`pc` stays at the failing instruction. -/
def haltEntry (info : List Word) (s : State) : State := { s with cpu := s.cpu.haltedWith info }

/-- Starting execution, which is also the return from a halt after a `STOP` (rules R126, R169): the
flags, and a fresh context whose window starts now. -/
def spawnLoop (s : State) : State :=
  { s with
    cpu := s.cpu.started
    sched :=
      { s.sched with
        schedState := .running
        ctx := some { frames := 0, t0 := s.clock, idleUntil := s.clock, activity := .idle } } }

/-! ### The phases of the scheduler's operations -/

/-- `STOP`'s first phase, one atomic event (rule R127). -/
def stopSignal (s : State) : State :=
  { s with cpu := s.cpu.stopped, sched := { s.sched with schedState := .stopped } }

/-- The scheduler with another lifecycle state. -/
def State.setSched (s : State) (st : SchedState) : State :=
  { s with sched := { s.sched with schedState := st } }

/-- The loop agent's activity becomes `act`; without a context nothing changes. -/
def State.setLoop (s : State) (act : LoopActivity) : State :=
  { s with sched := { s.sched with ctx := s.sched.ctx.map fun c => { c with activity := act } } }

/-- The wait between two iterations ends: the clock has reached `idleUntil` (rules R141, R144). -/
def endWait (s : State) : State :=
  match s.sched.ctx with
  | none => s
  | some c => { s with clock := max s.clock c.idleUntil }

/-- The counting part of `LOOP_ITER` (rules R140 to R144): the frame is counted, the clock is read,
and a full window gives a new rate. -/
def countFrame (s : State) : State :=
  match s.sched.ctx with
  | none => s
  | some c =>
    let frames := c.frames + 1
    let next := s.clock + s.session.loopDelay
    if 1 ≤ s.clock - c.t0 then
      { s with
        sched :=
          { s.sched with
            measuredRate := (frames : Rat) / (s.clock - c.t0)
            ctx := some { frames := 0, t0 := s.clock, idleUntil := next, activity := .idle } } }
    else
      { s with
        sched :=
          { s.sched with
            ctx := some { c with frames := frames, idleUntil := next, activity := .idle } } }

/-- `LOOP_EXIT`: the context is gone, and `frames` and `t0` with it (rule R145). -/
def endLoop (s : State) : State := { s with sched := { s.sched with ctx := none } }

/-! ### The parts of a render -/

/-- `FBSIZE = W * H * 4` (rule R4). -/
def VideoUnit.fbSize (v : VideoUnit) : Nat := v.width * v.height * 4

/-- Pixel `i` of the buffer: red, green, blue; the alpha byte is dropped (rules R110, R111). -/
def pixelAt (buf : List Host.Cell) (i : Nat) : Pixel where
  red := Memory.get buf (4 * i + 1)
  green := Memory.get buf (4 * i + 2)
  blue := Memory.get buf (4 * i + 3)

/-- The raster of `W*H` pixels in index order, row-major (rules R110, R114). -/
def VideoUnit.raster (v : VideoUnit) : List Pixel :=
  (List.range (v.width * v.height)).map (pixelAt v.outputBuffer)

/-- One byte read of a render into the buffer (rules R110, R113, R118). There is one `outputBuffer`
(rule R23): two renders in flight write the same bytes of it (DESIGN CHOICE, log 24). -/
def renderByte (base : Addr) (k : Nat) (s : State) : State :=
  { s with
    video :=
      { s.video with
        outputBuffer := Memory.set s.video.outputBuffer k (s.bus.vread (base.toNat + k)) } }

/-- All byte reads of a render with nothing in between (rule R115): the clamped copy of the bytes
from the base, without wrap-around (rule R118). -/
def renderBytes (s : State) : State :=
  { s with
    video :=
      { s.video with
        outputBuffer :=
          Memory.window s.bus.mem s.video.frameBufferBase.toNat s.video.fbSize s.bus.size } }

/-- `SinkWrite`, the one bulk write, and `dirty <- false` (rules R112, R116). -/
def finishRender (s : State) : State :=
  { s with sink := some s.video.raster, video := { s.video with dirty := false } }

/-- What the sink's surface shows: the last raster in the sink's own representation (rule R112). -/
def State.sinkSurface (s : State) : Option (List (List Byte)) :=
  s.sink.map fun px => px.map Config.sinkEncode

end Sys2Proof.Machine
end

