-- ==== Sys2Proof/Machine/Strategy.lean ====
section
/-! DEFINITION. The extension point `Exec`: its two specified instances, how a run acts on the bus,
and the unit of work of `STEP`. -/

namespace Sys2Proof.Machine

/-- The writes of `ExecPlaceholder` from pixel `i` on, `n` of them, ascending (rule R97). -/
def placeholderWrites (color : Word) (x : Regs) (pc : Word) (n i : Nat) : ExecTail :=
  match n with
  | 0 => .done x pc 0
  | n + 1 => .write (BitVec.ofNat 32 (4 * i)) color (placeholderWrites color x pc n (i + 1))

/-- `ExecPlaceholder`: a solid frame at address 0, no fetch, nothing else (rule R97). -/
def placeholderExec (pixels : Nat) (color : Word) (x : Regs) (pc : Word) : ExecProg :=
  .commit (placeholderWrites color x pc pixels 0)

/-- `ExecNull`: it fetches one word and recognises none (rule R100). -/
def nullExec (pc : Word) : ExecProg :=
  .read (truncAddr pc) fun iw => .decodeError [pc, iw]

/-- The run of the session's strategy from the current registers (rules R94, R97, R100). -/
def State.execProg (s : State) : ExecProg :=
  match s.session.strategy with
  | .placeholder =>
    placeholderExec (s.video.width * s.video.height) s.session.placeholderColor s.cpu.x s.cpu.pc
  | .null => nullExec s.cpu.pc
  | .plugged => Config.pluggedExec s.cpu.x s.cpu.pc

/-- How a run ends (rule R94): `Done(x', pc', n)` or `DecodeError(info)`. -/
inductive ExecOutcome where
  | done (x : Regs) (pc : Word) (n : Nat)
  | decodeError (info : List Word)
deriving DecidableEq, Repr

/-- The writing part of a run with nothing in between: each write takes effect when issued (R96). -/
def ExecTail.run (t : ExecTail) (b : AddressSpace) : AddressSpace × ExecOutcome :=
  match t with
  | .read a next => ExecTail.run (next (b.read32 a)) b
  | .write a v next => ExecTail.run next (b.write32 a v)
  | .done x pc extra => (b, .done x pc (extra + 1))

/-- A whole run with nothing in between. -/
def ExecProg.run (p : ExecProg) (b : AddressSpace) : AddressSpace × ExecOutcome :=
  match p with
  | .read a next => ExecProg.run (next (b.read32 a)) b
  | .decodeError info => (b, .decodeError info)
  | .commit t => ExecTail.run t b

/-- The word at `pc` after a write of the run, where it was `iw` before: `iw` itself, but for a write
that reaches it (rule R96: a write takes effect when issued). -/
def AddressSpace.fetchWordAfter (b : AddressSpace) (pc : Addr) (iw : Word) (a : Addr) (v : Word) :
    Word :=
  ((b.write32 pc iw).write32 a v).read32 pc

/-- The writing part of a run on the bus `b` whose instruction fetch, its first `READ32` at `pc`
(rule R99), finds `iw` there. -/
def ExecTail.fetched (t : ExecTail) (b : AddressSpace) (pc iw : Word) : ExecTail :=
  match t with
  | .read a next =>
    if a = truncAddr pc then next iw else .read a fun r => ExecTail.fetched (next r) b pc iw
  | .write a v next =>
    .write a v (ExecTail.fetched next b pc (b.fetchWordAfter (truncAddr pc) iw a v))
  | .done x pc' extra => .done x pc' extra

/-- The run on the bus `b` whose instruction fetch, its first `READ32` at `pc` (rule R99), finds `iw`
there, in whichever part of the run it stands; a run that never reads `pc` does not look at the word
(rules R72, R97). -/
def ExecProg.fetched (p : ExecProg) (b : AddressSpace) (pc iw : Word) : ExecProg :=
  match p with
  | .read a next =>
    if a = truncAddr pc then next iw else .read a fun r => ExecProg.fetched (next r) b pc iw
  | .decodeError info => .decodeError info
  | .commit t => .commit (ExecTail.fetched t b pc iw)

/-- What is left of the writing part after the given replies and completed writes. -/
def ExecTail.after (t : ExecTail) (replies : List Word) (writes : Nat) : ExecTail :=
  match t, replies, writes with
  | .read _ next, r :: rs, n => ExecTail.after (next r) rs n
  | .write _ _ next, rs, n + 1 => ExecTail.after next rs n
  | t, _, _ => t

/-- What is left of a run after the given replies and completed writes. -/
def ExecProg.after (p : ExecProg) (replies : List Word) (writes : Nat) : ExecProg :=
  match p, replies, writes with
  | .read _ next, r :: rs, n => ExecProg.after (next r) rs n
  | .commit t, rs, n => .commit (ExecTail.after t rs n)
  | p, _, _ => p

/-- The result of a `STEP` (rule R90): `(OK, n)` or `(DECODE_ERROR, 0)`. -/
inductive StepResult where
  | ok (n : Nat)
  | decodeError
deriving DecidableEq, Repr

/-- `Done(x', pc', n)` commits `x` and `pc` together (rule R96). -/
def commitUnit (x : Regs) (pc : Word) (s : State) : State :=
  { s with cpu := { s.cpu with x := x, pc := pc } }

/-- The end of a unit of work (rule R90): commit, or the halt entry. -/
def endUnit (o : ExecOutcome) (s : State) : State × StepResult :=
  match o with
  | .done x pc n => (commitUnit x pc s, .ok n)
  | .decodeError info => (haltEntry info s, .decodeError)

/-- One unit of work with nothing in between. -/
def runUnit (p : ExecProg) (s : State) : State × StepResult :=
  endUnit (ExecProg.run p s.bus).2 { s with bus := (ExecProg.run p s.bus).1 }

/-- `STEP` with nothing in between (rules R90, R91). -/
def stepUnit (s : State) : State × StepResult :=
  if s.cpu.isRunning then runUnit s.execProg s else (s, .ok 0)

/-- The response of a `STEP` (rules R64, R90). -/
def StepResult.status (r : StepResult) : Status :=
  match r with
  | .ok _ => .ok
  | .decodeError => .decodeError

/-- The count of a `STEP` (rules R90, R92). -/
def StepResult.count (r : StepResult) : Nat :=
  match r with
  | .ok n => n
  | .decodeError => 0

/-- Deliver the result of a `STEP` to an agent. -/
def State.stepDone (s : State) (a : Agent) (r : StepResult) : State :=
  s.respond a r.status (.count r.count)

end Sys2Proof.Machine
end

