-- ==== Sys2Proof/Machine/Bus.lean ====
section
/-! DEFINITION. The bus operations `READ32` and `WRITE32` (spec/40_bus_ops.md). -/

namespace Sys2Proof.Machine

/-- `READ32 addr` returns a 32-bit value and changes nothing (rule R80). -/
def execRead32 (addr : Addr) (s : State) : Host.Outcome State Fault Refusal :=
  .next (s.done (.word (s.bus.read32 addr)))

/-- `WRITE32 addr, data` (rule R81). -/
def execWrite32 (addr : Addr) (data : Word) (s : State) : Host.Outcome State Fault Refusal :=
  .next ((s.setBus (s.bus.write32 addr data)).done .absent)

end Sys2Proof.Machine
end

