-- ==== Sys2Proof/Machine/Processor.lean ====
section
/-! DEFINITION. The processor's operation `STEP` and the instruction word `INSN`
(spec/41_processor_ops.md). -/

namespace Sys2Proof.Machine

/-- `STEP`: one unit of work of the strategy, or nothing when not running (rules R90 to R92); a
`DecodeError` takes the halt entry (R162). -/
def execStep (s : State) : Host.Outcome State Fault Refusal :=
  .next ((stepUnit s).1.stepDone s.issuer (stepUnit s).2)

/-- `INSN iw`: the unit of work whose instruction fetch, its first `READ32` at `pc`, finds `iw` there
(rules R72, R99; DEDUCED, log 9). Its meaning belongs to `Exec`: under `ExecNull` every word raises
`DecodeError` (R100); a strategy that does not fetch ignores it (R97). When not running nothing
happens (R91). -/
def execInsn (iw : Word) (s : State) : Host.Outcome State Fault Refusal :=
  if s.cpu.isRunning then
    let r := runUnit (ExecProg.fetched s.execProg s.bus s.cpu.pc iw) s
    .next (r.1.stepDone s.issuer r.2)
  else .next (s.stepDone s.issuer (.ok 0))

end Sys2Proof.Machine
end

