-- ==== Sys2Proof/Machine/Scheduler.lean ====
section
/-! DEFINITION. The scheduler's operations and the loop agent's events (spec/43_scheduler_ops.md). -/

namespace Sys2Proof.Machine

/-- `START` (rule R126): from `Idle` and `Stopped` it spawns the loop, else it is a no-op (R125). -/
def execStart (s : State) : Host.Outcome State Fault Refusal :=
  match s.sched.schedState with
  | .idle => .next ((spawnLoop s).done .absent)
  | .stopped => .next ((spawnLoop s).done .absent)
  | .running => .next (s.done .absent)
  | .paused => .next (s.done .absent)

/-- `STOP` after its signal: with a live context the host waits (rule R127), else it returns. -/
def awaitLoop (s : State) : State :=
  if s.sched.ctxLive then { s with host := .joining } else s.done .absent

/-- `STOP` (rule R127): the signal, then the wait; the response comes when the wait ends. In `Idle`
and `Stopped` it is a no-op (R125). -/
def execStop (s : State) : Host.Outcome State Fault Refusal :=
  match s.sched.schedState with
  | .running => .next (awaitLoop (stopSignal s))
  | .paused => .next (awaitLoop (stopSignal s))
  | .idle => .next (s.done .absent)
  | .stopped => .next (s.done .absent)

/-- `PAUSE` (rule R128): `Running` becomes `Paused`, else a no-op. -/
def execPause (s : State) : Host.Outcome State Fault Refusal :=
  match s.sched.schedState with
  | .running => .next ((s.setSched .paused).done .absent)
  | .idle => .next (s.done .absent)
  | .paused => .next (s.done .absent)
  | .stopped => .next (s.done .absent)

/-- `RESUME` (rule R129): `Paused` becomes `Running`, else a no-op. -/
def execResume (s : State) : Host.Outcome State Fault Refusal :=
  match s.sched.schedState with
  | .paused => .next ((s.setSched .running).done .absent)
  | .idle => .next (s.done .absent)
  | .running => .next (s.done .absent)
  | .stopped => .next (s.done .absent)

/-- `GET_RATE` returns `measuredRate` and changes nothing (rule R131). -/
def execGetRate (s : State) : Host.Outcome State Fault Refusal :=
  .next (s.done (.rate s.sched.measuredRate))

/-- `GET_ISRUNNING` returns the processor's `isRunning` and changes nothing (rule R132). -/
def execGetIsRunning (s : State) : Host.Outcome State Fault Refusal :=
  .next (s.done (.flag s.cpu.isRunning))

/-- The `STEP` of an iteration, unless it sampled `paused` (rules R140, R146); its result is
discarded (R147, R148). -/
def iterationStep (s : State) : State := if s.sched.paused then s else (stepUnit s).1

/-- `LOOP_ITER` with nothing in between (rule R140): enabled when a context is live and `running`. -/
def execLoopIter (s : State) : Host.Outcome State Fault Refusal :=
  if s.sched.ctxLive && s.sched.running then
    .next ((countFrame (iterationStep (endWait s))).respond .loop .ok .absent)
  else .refused .loopEventNotEnabled

/-- `LOOP_EXIT` (rule R145): enabled when a context is live and not `running`. -/
def execLoopExit (s : State) : Host.Outcome State Fault Refusal :=
  if s.sched.ctxLive && !s.sched.running then .next ((endLoop s).respond .loop .ok .absent)
  else .refused .loopEventNotEnabled

end Sys2Proof.Machine
end

