-- ==== Sys2Proof/Machine/Video.lean ====
section
/-! DEFINITION. The video operations `RENDER` and `SET_FB_BASE` (spec/42_video_ops.md). -/

namespace Sys2Proof.Machine

/-- The whole of a render with nothing in between (rule R110). -/
def renderAll (s : State) : State := finishRender (renderBytes s)

/-- `RENDER` (rule R110): it always succeeds, in every scheduler state (R116, R119). -/
def execRender (s : State) : Host.Outcome State Fault Refusal := .next ((renderAll s).done .absent)

/-- The state with another `frameBufferBase`. -/
def State.setBase (s : State) (addr : Addr) : State :=
  { s with video := { s.video with frameBufferBase := addr } }

/-- `SET_FB_BASE addr`: any value is legal, `dirty` is not set (rule R120). -/
def execSetFbBase (addr : Addr) (s : State) : Host.Outcome State Fault Refusal :=
  .next ((s.setBase addr).done .absent)

end Sys2Proof.Machine
end

