-- ==== Sys2Proof/Machine/Dispatch.lean ====
section
/-! DEFINITION. One arm per operation of spec/opcode_table.json. -/

namespace Sys2Proof.Machine

def exec (i : Instr) (s : State) : Host.Outcome State Fault Refusal :=
  match i with
  | .read32 addr => Sys2Proof.Machine.execRead32 addr s
  | .write32 addr data => Sys2Proof.Machine.execWrite32 addr data s
  | .step => Sys2Proof.Machine.execStep s
  | .start => Sys2Proof.Machine.execStart s
  | .stop => Sys2Proof.Machine.execStop s
  | .pause => Sys2Proof.Machine.execPause s
  | .resume => Sys2Proof.Machine.execResume s
  | .getRate => Sys2Proof.Machine.execGetRate s
  | .getIsRunning => Sys2Proof.Machine.execGetIsRunning s
  | .render => Sys2Proof.Machine.execRender s
  | .setFbBase addr => Sys2Proof.Machine.execSetFbBase addr s
  | .loopIter => Sys2Proof.Machine.execLoopIter s
  | .loopExit => Sys2Proof.Machine.execLoopExit s
  | .insn iw => Sys2Proof.Machine.execInsn iw s

end Sys2Proof.Machine
end

