-- ==== Sys2Proof/Machine/Events.lean ====
section
/-! DEFINITION. Operations in flight: the single events of bus accesses, units of work, renders,
iterations and the wait of `STOP`, so that the agents' events interleave (rules R51, R52, R54). -/

namespace Sys2Proof.Machine

/-! ### Bus accesses -/

/-- The four bytes of a memory access, none of them done. -/
def allBytes : List (Fin 4) := [0, 1, 2, 3]

/-- A read starts: the decoder routes it (rules R41, R42). -/
def startRead (b : AddressSpace) (addr : Addr) : Access :=
  if b.toMemory addr then .memRead addr allBytes 0 else .cellRead addr

/-- A write starts: the decoder routes it (rules R41, R42). -/
def startWrite (b : AddressSpace) (addr : Addr) (v : Word) : Access :=
  if b.toMemory addr then .memWrite addr v allBytes else .cellWrite addr v

/-- What one event of an access leaves. -/
inductive AccessStatus where
  | going (acc : Access)
  | read (v : Word)
  | written
deriving DecidableEq, Repr

/-- A memory read with the bytes `left` to come, or completed. -/
def memReadStatus (addr : Addr) (left : List (Fin 4)) (got : Word) : AccessStatus :=
  if left = [] then .read got else .going (.memRead addr left got)

/-- A memory write with the bytes `left` to come, or completed. -/
def memWriteStatus (addr : Addr) (v : Word) (left : List (Fin 4)) : AccessStatus :=
  if left = [] then .written else .going (.memWrite addr v left)

/-- One event of an access: one byte of main memory, in an order the `pick`s choose, or the whole
cell of register space (rule R51). -/
def accessEvent (acc : Access) (pick : Nat) (b : AddressSpace) : AddressSpace × AccessStatus :=
  match acc with
  | .memRead addr left got =>
    match pickFrom left pick with
    | none => (b, .read got)
    | some k =>
      (b, memReadStatus addr (left.erase k) (setByte got k (b.byteAt (addr.toNat + k))))
  | .memWrite addr v left =>
    match pickFrom left pick with
    | none => (b, .written)
    | some k => (b.setByteAt (addr.toNat + k) (byteOf v k), memWriteStatus addr v (left.erase k))
  | .cellRead addr => (b, .read (b.cellAt addr.toNat))
  | .cellWrite addr v => (b.setCellAt addr.toNat v, .written)

/-! ### Units of work -/

/-- A unit of work that has done nothing yet. -/
def UnitProgress.fresh : UnitProgress := { replies := [], writes := 0, access := none }

/-- A unit of work after an event of its bus access. -/
def UnitProgress.accessed (u : UnitProgress) (st : AccessStatus) : UnitProgress :=
  match st with
  | .going acc => { u with access := some acc }
  | .read v => { u with replies := u.replies ++ [v], access := none }
  | .written => { u with writes := u.writes + 1, access := none }

/-- What one event of a unit of work leaves. -/
inductive UnitStatus where
  | going (u : UnitProgress)
  | ended (r : StepResult)
deriving DecidableEq, Repr

/-- A unit of work between two bus operations: the strategy, replayed on what its reads returned,
says what comes next (obligation (c) of rule R95). -/
def unitNext (p : ExecProg) (u : UnitProgress) (s : State) : State × UnitStatus :=
  match p with
  | .read a _ => (s, .going { u with access := some (startRead s.bus a) })
  | .decodeError info => ((endUnit (.decodeError info) s).1, .ended .decodeError)
  | .commit (.read a _) => (s, .going { u with access := some (startRead s.bus a) })
  | .commit (.write a v _) => (s, .going { u with access := some (startWrite s.bus a v) })
  | .commit (.done x pc extra) =>
    ((endUnit (.done x pc (extra + 1)) s).1, .ended (.ok (extra + 1)))

/-- One event of a unit of work. -/
def unitEvent (u : UnitProgress) (pick : Nat) (s : State) : State × UnitStatus :=
  match u.access with
  | some acc =>
    (s.setBus (accessEvent acc pick s.bus).1, .going (u.accessed (accessEvent acc pick s.bus).2))
  | none => unitNext (ExecProg.after s.execProg u.replies u.writes) u s

/-! ### Renders, and `FB_SYNC = rwlock` -/

/-- A memory write some but not all bytes of which are done and which meets the `len` bytes from
`base`. -/
def Access.halfWritten (acc : Access) (base len : Nat) : Bool :=
  match acc with
  | .memWrite addr _ left =>
    decide (left ≠ [] ∧ left.length < 4 ∧ addr.toNat < base + len ∧ base < addr.toNat + 4)
  | .memRead _ _ _ => false
  | .cellRead _ => false
  | .cellWrite _ _ => false

/-- The bus operation the host has in flight, its own or its `STEP`'s. -/
def HostActivity.busAccess (h : HostActivity) : Option Access :=
  match h with
  | .access acc => some acc
  | .stepping u => u.access
  | .idle => none
  | .joining => none
  | .rendering _ => none

/-- The same activity with another bus operation in flight. -/
def HostActivity.setAccess (h : HostActivity) (acc : Access) : HostActivity :=
  match h with
  | .access _ => .access acc
  | .stepping u => .stepping { u with access := some acc }
  | .idle => .idle
  | .joining => .joining
  | .rendering r => .rendering r

/-- The bus operation an iteration has in flight. -/
def LoopActivity.busAccess (l : LoopActivity) : Option Access :=
  match l with
  | .stepping u => u.access
  | .idle => none
  | .sampled => none
  | .counting => none

/-- The same activity with another bus operation in flight. -/
def LoopActivity.setAccess (l : LoopActivity) (acc : Access) : LoopActivity :=
  match l with
  | .stepping u => .stepping { u with access := some acc }
  | .idle => .idle
  | .sampled => .sampled
  | .counting => .counting

/-- The bus operations in flight; the refresh agent never has one (rule R61). -/
def State.busAccesses (s : State) : List Access :=
  s.host.busAccess.toList ++
    (s.sched.ctx.bind fun c => c.activity.busAccess).toList

/-- Under `FB_SYNC = rwlock` a render is one event with respect to every `WRITE32` that meets the
framebuffer (rule R58): it may not fall among the byte events of such a write. -/
def State.writeHalfDone (s : State) : Bool :=
  s.session.fbSync == .rwlock &&
    s.busAccesses.any fun acc =>
      acc.halfWritten s.video.frameBufferBase.toNat s.video.fbSize

/-- The bytes `left` of a word written, one after another. -/
def AddressSpace.setBytes (b : AddressSpace) (addr : Addr) (v : Word) (left : List (Fin 4)) :
    AddressSpace :=
  left.foldl (fun b k => b.setByteAt (addr.toNat + k) (byteOf v k)) b

/-- A half done write to the framebuffer takes the byte events it has left; every other access stays
as it is. -/
def State.finishAccess (s : State) (acc : Access) : AddressSpace × Access :=
  if acc.halfWritten s.video.frameBufferBase.toNat s.video.fbSize then
    match acc with
    | .memWrite addr v left => (s.bus.setBytes addr v left, .memWrite addr v [])
    | .memRead addr left got => (s.bus, .memRead addr left got)
    | .cellRead addr => (s.bus, .cellRead addr)
    | .cellWrite addr v => (s.bus, .cellWrite addr v)
  else (s.bus, acc)

/-- The host's half done write to the framebuffer takes the byte events it has left. -/
def State.finishHostWrite (s : State) : State :=
  match s.host.busAccess with
  | none => s
  | some acc => (s.setBus (s.finishAccess acc).1).setHost (s.host.setAccess (s.finishAccess acc).2)

/-- The loop agent's half done write to the framebuffer takes the byte events it has left. -/
def State.finishLoopWrite (s : State) : State :=
  match s.sched.ctx with
  | none => s
  | some c =>
    match c.activity.busAccess with
    | none => s
    | some acc =>
      (s.setBus (s.finishAccess acc).1).setLoop (c.activity.setAccess (s.finishAccess acc).2)

/-- Before a render under `FB_SYNC = rwlock`, the writers that are half way through the framebuffer
take the byte events they have left, the host first (DESIGN CHOICE, log 15). So the render is one
event with respect to each of them (rule R58), and it never waits: only `STOP` does (rule R194). -/
def State.finishWrites (s : State) : State :=
  if s.writeHalfDone then s.finishHostWrite.finishLoopWrite else s

/-- The state in which an event of the render `r` takes place. -/
def State.readyFor (s : State) (r : RenderProgress) : State :=
  match r with
  | .whole => s.finishWrites
  | .reading _ _ => s

/-- How a render starts: without lock it reads the base once (rule R120) and has all its bytes to
read; under `rwlock` its one event is to come (DESIGN CHOICE, log 15). -/
def State.startOfRender (s : State) : RenderProgress :=
  match s.session.fbSync with
  | .none => .reading s.video.frameBufferBase (List.range s.video.fbSize)
  | .rwlock => .whole

/-- One event of a render; `none` says it has completed. The bulk write hands over the one
`outputBuffer` as it stands, with what an overlapping render has read into it (DESIGN CHOICE,
log 24). -/
def renderEvent (r : RenderProgress) (pick : Nat) (s : State) : State × Option RenderProgress :=
  match r with
  | .whole => (renderAll s, none)
  | .reading base unread =>
    match pickFrom unread pick with
    | none => (finishRender s, none)
    | some k => (renderByte base k s, some (.reading base (unread.erase k)))

/-! ### One event of an agent -/

/-- The host's activity after an event of its render. -/
def HostActivity.ofRender (r : Option RenderProgress) : HostActivity :=
  match r with
  | none => .idle
  | some p => .rendering p

/-- The host after an event of its own bus operation. -/
def hostAccessed (st : AccessStatus) (s : State) : State :=
  match st with
  | .going acc => s.setHost (.access acc)
  | .read v => (s.setHost .idle).respond .host .ok (.word v)
  | .written => (s.setHost .idle).respond .host .ok .absent

/-- The host after an event of its `STEP`. -/
def hostStepped (st : UnitStatus) (s : State) : State :=
  match st with
  | .going u => s.setHost (.stepping u)
  | .ended r => (s.setHost .idle).stepDone .host r

/-- A render of agent `a` that has completed is answered. -/
def renderAnswer (a : Agent) (r : Option RenderProgress) (s : State) : State :=
  match r with
  | none => s.respond a .ok .absent
  | some _ => s

/-- One event of the host's operation in flight. The wait of `STOP` ends when the context is gone
(rule R127). -/
def hostEvent (pick : Nat) (s : State) : State :=
  match s.host with
  | .idle => s
  | .access acc =>
    hostAccessed (accessEvent acc pick s.bus).2 (s.setBus (accessEvent acc pick s.bus).1)
  | .joining =>
    if s.sched.ctxLive then s else (s.setHost .idle).respond .host .ok .absent
  | .stepping u => hostStepped (unitEvent u pick s).2 (unitEvent u pick s).1
  | .rendering r =>
    renderAnswer .host (renderEvent r pick (s.readyFor r)).2
      ((renderEvent r pick (s.readyFor r)).1.setHost
        (.ofRender (renderEvent r pick (s.readyFor r)).2))

/-- One event of the refresh agent's render. -/
def refreshEvent (pick : Nat) (s : State) : State :=
  match s.refresh with
  | none => s
  | some r =>
    renderAnswer .refresh (renderEvent r pick (s.readyFor r)).2
      ((renderEvent r pick (s.readyFor r)).1.setRefresh (renderEvent r pick (s.readyFor r)).2)

/-- An iteration starts: the wait is over and `paused` is sampled (rule R140). -/
def beginIteration (s : State) : State :=
  (endWait s).setLoop (if s.sched.paused then .counting else .sampled)

/-- `isRunning` is read at the start of the iteration's `STEP` (rules R91, R127). -/
def beginLoopStep (s : State) : State :=
  s.setLoop (if s.cpu.isRunning then .stepping .fresh else .counting)

/-- The loop agent after an event of its `STEP`; the result is discarded (rules R147, R148). -/
def loopStepped (st : UnitStatus) (s : State) : State :=
  match st with
  | .going u => s.setLoop (.stepping u)
  | .ended _ => s.setLoop .counting

/-- One event of the loop agent. Where an iteration could start, it starts when `running` is true,
and the agent exits when it is false (rule R151). Without a context nothing happens. -/
def loopEvent (pick : Nat) (s : State) : State :=
  match s.sched.ctx with
  | none => s
  | some c =>
    match c.activity with
    | .idle =>
      if s.sched.running then beginIteration s else (endLoop s).respond .loop .ok .absent
    | .sampled => beginLoopStep s
    | .stepping u => loopStepped (unitEvent u pick s).2 (unitEvent u pick s).1
    | .counting => (countFrame s).respond .loop .ok .absent

/-- One event of an agent. -/
def runEvent (a : Agent) (pick : Nat) (s : State) : State :=
  match a with
  | .host => hostEvent pick s
  | .refresh => refreshEvent pick s
  | .loop => loopEvent pick s

end Sys2Proof.Machine
end

