-- ==== Sys2Proof/Machine/Turns.lean ====
section
/-! DEFINITION. Turns: the command port with its issuer restrictions, the start of operations in
flight, unscheduled turns, and how an instruction is placed where the next step takes it from. -/

namespace Sys2Proof.Machine

/-- Whether an agent has an operation in flight (rule R53). Agents do not keep each other waiting: a
`RENDER` of the host and one of the refresh agent may be in flight at once, which the spec neither
allows nor forbids (DESIGN CHOICE, log 24). -/
def State.busy (s : State) (a : Agent) : Bool :=
  match a with
  | .host => !decide (s.host = .idle)
  | .refresh => s.refresh.isSome
  | .loop => s.sched.ctx.any fun c => !decide (c.activity = .idle)

/-- Agent `a` has the render `r` in flight; only the host and the refresh agent render (R69). It may
overlap a render of the other (DESIGN CHOICE, log 24). -/
def State.startRender (s : State) (a : Agent) (r : RenderProgress) : State :=
  match a with
  | .host => s.setHost (.rendering r)
  | .refresh => s.setRefresh (some r)
  | .loop => s

/-- An admitted operation runs with nothing in between. A host `STEP` needs `ctxLive = false`
(R69, R93); under `FB_SYNC = rwlock` a half done write to the framebuffer is finished before a render
(R58, R194; DESIGN CHOICE, log 15). -/
def runInstr (a : Agent) (i : Instr) (s : State) : Host.Outcome State Fault Refusal :=
  if i = .step ∧ s.sched.ctxLive = true then .refused .stepWhileLive
  else if i = .render then exec i { s.finishWrites with issuer := a }
  else exec i { s with issuer := a }

/-- An admitted operation starts; its events are taken later. Operations of one event run at once,
a `STOP` up to its wait. -/
def issueInstr (a : Agent) (i : Instr) (s : State) : Host.Outcome State Fault Refusal :=
  match i with
  | .read32 addr => .next (s.setHost (.access (startRead s.bus addr)))
  | .write32 addr data => .next (s.setHost (.access (startWrite s.bus addr data)))
  | .step =>
    if s.sched.ctxLive then .refused .stepWhileLive
    else if s.cpu.isRunning then .next (s.setHost (.stepping .fresh))
    else runInstr a .step s
  | .render => .next (s.startRender a s.startOfRender)
  | .loopIter =>
    if s.sched.ctxLive && s.sched.running then .next (beginIteration s)
    else .refused .loopEventNotEnabled
  | .start => runInstr a .start s
  | .stop => runInstr a .stop s
  | .pause => runInstr a .pause s
  | .resume => runInstr a .resume s
  | .getRate => runInstr a .getRate s
  | .getIsRunning => runInstr a .getIsRunning s
  | .setFbBase addr => runInstr a (.setFbBase addr) s
  | .loopExit => runInstr a .loopExit s
  | .insn iw => runInstr a (.insn iw) s

/-- A command word that is refused: status `REFUSED`, no other change (rules R67, R68). -/
def refuseCommand (a : Agent) (s : State) : State := s.respond a .refused .absent

/-- A command word arrives from an idle agent; an agent's next operation begins after its previous
one has returned (rules R53, R134). -/
def acceptCommand (run : Agent → Instr → State → Host.Outcome State Fault Refusal) (a : Agent)
    (w : CommandWord) (s : State) : Host.Outcome State Fault Refusal :=
  if s.busy a then .refused (.agentBusy a)
  else
    match decodeFor a w with
    | none => .next (refuseCommand a s)
    | some i => run a i s

/-- The pseudo-operation `TOGGLE` of the host (rules R71, R130). -/
def runToggle (s : State) : Host.Outcome State Fault Refusal :=
  if s.busy .host then .refused (.agentBusy .host)
  else
    match expandToggle s.sched.schedState with
    | none => .next s
    | some i => runInstr .host i s

/-- The wall clock advances and never runs backwards (rule R141). -/
def State.advanceClock (s : State) (seconds : Rat) : State :=
  { s with clock := s.clock + max 0 seconds }

/-- The agent to which round `n` of fairness owes a turn: the three agents in rotation. Rule R150 asks
it for the loop agent; for the operations of the other two it is rule R135's "No operation in this
core blocks indefinitely" (log 6). -/
def owedAgent (n : Nat) : Agent :=
  match n % 3 with
  | 0 => .loop
  | 1 => .host
  | _ => .refresh

/-- The patience of the round, a free value, is used up. -/
def UnscheduledTurns.overdue (n : UnscheduledTurns) : Bool :=
  decide (Config.freePatience n.rounds ≤ n.waited)

/-- Who takes the next unscheduled turn: a free value, but the agent that is owed it when it is
overdue (rules R54, R150). -/
def UnscheduledTurns.mover (n : UnscheduledTurns) : Agent :=
  if n.overdue then owedAgent n.rounds else Config.freeAgent n.taken

/-- The counters after an unscheduled turn; the turn of an overdue agent ends the round. -/
def UnscheduledTurns.next (n : UnscheduledTurns) : UnscheduledTurns :=
  if n.overdue then { taken := n.taken + 1, waited := 0, rounds := n.rounds + 1 }
  else { taken := n.taken + 1, waited := n.waited + 1, rounds := n.rounds }

/-- The wall clock advances before an unscheduled turn, which is counted. -/
def State.tick (s : State) (seconds : Rat) : State :=
  { s with clock := s.clock + max 0 seconds, unscheduled := s.unscheduled.next }

/-- The state with one more turn in front of its schedule. -/
def State.queue (s : State) (t : Turn) : State := { s with schedule := t :: s.schedule }

/-- One turn of the schedule. -/
def runTurn (t : Turn) (s : State) : Host.Outcome State Fault Refusal :=
  match t with
  | .command a w => acceptCommand runInstr a w s
  | .issue a w => acceptCommand issueInstr a w s
  | .event a pick => .next (runEvent a pick s)
  | .toggle => runToggle s
  | .sleep seconds => .next (s.advanceClock seconds)

/-- No operation is in flight and no background context exists: nothing executes until the host
issues a command (rule R182). -/
def State.quiescent (s : State) : Bool :=
  decide (s.host = .idle) && s.refresh.isNone && !s.sched.ctxLive

/-- No turn is left to say who moves: a quiescent machine stays as it is; else the next event is
`mover`'s, its pick and the time before it free values (rules R54, R141, R150). -/
def unscheduledTurn (s : State) : State :=
  if s.quiescent then s
  else
    runEvent s.unscheduled.mover (Config.freePick s.unscheduled.taken)
      (s.tick (Config.freeElapse s.unscheduled.taken))

/-- Every agent between two operations. -/
def State.settled (s : State) : State :=
  { s with
    host := .idle
    refresh := none
    sched := { s.sched with ctx := s.sched.ctx.map fun c => { c with activity := .idle } } }

/-- The live context of `s`, or a fresh one. -/
def State.liveContext (s : State) : LoopContext :=
  s.sched.ctx.getD { frames := 0, t0 := s.clock, idleUntil := s.clock, activity := .idle }

/-- The agent that issues a command word: the loop agent for its two events, else the host. -/
def issuerOf (w : CommandWord) : Agent :=
  if opField w = 0x80 ∨ opField w = 0x81 then .loop else .host

/-- What the next step needs for a command word to be admitted: a `STEP` needs no live context; the
loop's events need one, with `running` true or false. -/
def State.preparedFor (s : State) (w : CommandWord) : State :=
  if opField w = 0x10 then endLoop s
  else if opField w = 0x80 then
    { s with
      sched :=
        { s.sched with
          schedState := if s.sched.running then s.sched.schedState else .running
          ctx := some s.liveContext } }
  else if opField w = 0x81 then
    { s with
      sched :=
        { s.sched with
          schedState := if s.sched.running then .stopped else s.sched.schedState
          ctx := some s.liveContext } }
  else s

/-- The next step takes the command word `w` from the port. -/
def placeCommand (s : State) (w : CommandWord) : State :=
  (s.settled.preparedFor w).queue (.command (issuerOf w) w)

/-- The command word of `STEP`. -/
def stepWord : CommandWord := commandWord 0x10 0 0

/-- The word `iw` stands at `pc`, the processor is running, and its strategy is `ExecNull`. -/
def State.fetchReady (s : State) (iw : Word) : State :=
  { s with
    bus := s.bus.write32 (truncAddr s.cpu.pc) iw
    cpu := { s.cpu with isRunning := true }
    session := { s.session with strategy := .null } }

/-- The next step is a `STEP` of the host on a running processor that fetches the word `iw` at `pc`:
the strategy is `ExecNull`, the one specified strategy that fetches (rules R97, R99, R100). -/
def placeInsn (s : State) (iw : Word) : State :=
  ((endLoop s.settled).fetchReady iw).queue (.command .host stepWord)

end Sys2Proof.Machine
end

