-- ==== Sys2Proof/Machine/Step.lean ====
section
/-! DEFINITION. One step of the machine: the next turn, or an unscheduled one. -/

namespace Sys2Proof.Machine

/-- One step (rules R8, R54): the first turn of the schedule is taken; when none is left, the agents
with something to do move as free values say, and fairly (rule R150, log 6). -/
def step (s : State) : Host.Outcome State Fault Refusal :=
  match s.schedule with
  | [] => .next (unscheduledTurn s)
  | t :: rest => runTurn t { s with schedule := rest }

/-- `s` with an instruction placed where the next step takes it from: a command word at the port, or
an instruction word at `pc` with a `STEP` that fetches it. -/
def State.withFetchWord (s : State) (nbits w : Nat) : State :=
  if nbits ≤ 32 then placeInsn s (BitVec.ofNat 32 w) else placeCommand s (BitVec.ofNat 72 w)

end Sys2Proof.Machine
end

