-- ==== Sys2Proof/Safety.lean ====
section
/-! DEFINITION. What the statements are made in terms of: the invariants of the machine, runs of
events of one agent, and accesses that do not meet. -/

namespace Sys2Proof.Machine

/-- An access in flight is of the kind the decoder chose for its address (rules R41, R42). -/
def Access.Routed (b : AddressSpace) (acc : Access) : Prop :=
  match acc with
  | .memRead addr _ _ => b.toMemory addr = true
  | .memWrite addr _ _ => b.toMemory addr = true
  | .cellRead addr => b.toMemory addr = false
  | .cellWrite addr _ => b.toMemory addr = false

/-- A render in flight has only bytes `0 .. len - 1` to read. -/
def RenderProgress.Inside (len : Nat) (r : RenderProgress) : Prop :=
  match r with
  | .whole => True
  | .reading _ unread => ∀ k ∈ unread, k < len

/-- The render the host has in flight. -/
def HostActivity.renderInFlight (h : HostActivity) : Option RenderProgress :=
  match h with
  | .rendering r => some r
  | .idle => none
  | .access _ => none
  | .joining => none
  | .stepping _ => none

/-- The renders in flight. -/
def State.renders (s : State) : List RenderProgress :=
  s.host.renderInFlight.toList ++ s.refresh.toList

/-- The stores keep their canonical form and their bounds: no byte at `S - 1` or beyond is ever
listed (rule R44), no cell below `S - 4` or from `2^32` (rules R19, R40), no buffer byte from `FBSIZE`
(R23); a raster has `W * H` pixels (R112). -/
structure State.StorageInv (s : State) : Prop where
  mem_wf : Memory.wf s.bus.mem
  mem_inside : ∀ c ∈ s.bus.mem, c.1 + 1 < s.bus.size
  reg_wf : Memory.wf s.bus.reg
  reg_outside : ∀ c ∈ s.bus.reg, s.bus.bound ≤ c.1 ∧ c.1 < 2 ^ 32
  buffer_wf : Memory.wf s.video.outputBuffer
  buffer_inside : ∀ c ∈ s.video.outputBuffer, c.1 < s.video.fbSize
  sink_size : ∀ px ∈ s.sink, px.length = s.video.width * s.video.height
  routed : ∀ acc ∈ s.busAccesses, acc.Routed s.bus
  inside : ∀ r ∈ s.renders, r.Inside s.video.fbSize

/-- The flags, the lifecycle and the agents' activities agree (rules R15, R29, R127, R132, R134,
R160, R162, R170): `isRunning` is `running` except after a halt, a running scheduler has a context, a
context outlives `running` only while the host waits in `STOP`, and a host `STEP` is in flight only
without a context. -/
structure State.ControlInv (s : State) : Prop where
  isRunning_eq : s.cpu.isRunning = (s.sched.running && !s.cpu.halted)
  running_live : s.sched.running = true → s.sched.ctxLive = true
  leaving_joins : s.sched.ctxLive = true → s.sched.running = false → s.host = .joining
  joining_stopped : s.host = .joining → s.sched.schedState = .stopped
  stepping_alone : ∀ u, s.host = .stepping u → s.sched.ctxLive = false
  halted_cause : s.cpu.halted = true → s.cpu.haltInfo.cause = .unsupportedInstruction

/-- The frame timer (rules R30, R141, R143, R144): the rate is not negative, a window starts no later
than now, and the wait for the next iteration is at most `LOOP_DELAY` long. -/
structure State.TimerInv (s : State) : Prop where
  rate_nonneg : 0 ≤ s.sched.measuredRate
  delay_pos : 0 < s.session.loopDelay
  window_started : ∀ c ∈ s.sched.ctx, c.t0 ≤ s.clock
  wait_bounded : ∀ c ∈ s.sched.ctx, c.idleUntil ≤ s.clock + s.session.loopDelay

/-- Under `FB_SYNC = rwlock` no render is ever taken byte by byte (rule R58). -/
def State.LockInv (s : State) : Prop :=
  s.session.fbSync = .rwlock → ∀ r ∈ s.renders, r = .whole

/-- What is fixed at construction (rules R2, R6, R18, R21). -/
def State.SameSession (s t : State) : Prop :=
  t.bus.size = s.bus.size ∧ t.video.width = s.video.width ∧ t.video.height = s.video.height ∧
    t.session = s.session

/-- The next turn is a command word of agent `a`, whole or issued, that decodes to `i`. -/
def State.NextIs (s : State) (a : Agent) (i : Instr) : Prop :=
  ∃ w rest, (s.schedule = .command a w :: rest ∨ s.schedule = .issue a w :: rest) ∧
    decode (.command w) = .ok i

/-- The next turn is an event of agent `a`, which the schedule or, at its end, `mover` names. -/
def State.NextIsEvent (s : State) (a : Agent) : Prop :=
  (s.schedule = [] ∧ s.unscheduled.mover = a) ∨ ∃ pick rest, s.schedule = .event a pick :: rest

/-- Steps of the machine, one after another, while each answers a next state. -/
def runSteps (n : Nat) (s : State) : Host.Outcome State Fault Refusal :=
  match n with
  | 0 => .next s
  | n + 1 =>
    match step s with
    | .next t => runSteps n t
    | .fault f => .fault f
    | .refused r => .refused r

/-- Events of one agent, one per pick. -/
def runEvents (a : Agent) (picks : List Nat) (s : State) : State :=
  picks.foldl (fun s pick => runEvent a pick s) s

/-- Events of one access, one per pick, until it completes. -/
def runAccess (acc : Access) (picks : List Nat) (b : AddressSpace) :
    AddressSpace × AccessStatus :=
  match picks with
  | [] => (b, .going acc)
  | p :: ps =>
    match accessEvent acc p b with
    | (b', .going acc') => runAccess acc' ps b'
    | (b', .read v) => (b', .read v)
    | (b', .written) => (b', .written)

/-- Two bus addresses whose accesses share no byte and no cell (rules R20, R41, R42, R83). -/
def AddressSpace.Apart (b : AddressSpace) (a c : Addr) : Prop :=
  if b.toMemory a then
    b.toMemory c = false ∨ c.toNat + 4 ≤ a.toNat ∨ a.toNat + 4 ≤ c.toNat
  else c ≠ a

/-- A sequence of bus writes. -/
def AddressSpace.writes (b : AddressSpace) (ws : List (Addr × Word)) : AddressSpace :=
  ws.foldl (fun b w => b.write32 w.1 w.2) b

end Sys2Proof.Machine
end

