-- ==== Sys2Proof/Certificates/Slice0/Obligations.lean ====
section
/-! DEFINITION. The statements for the provers, from the numbered rules of spec/. -/

open Sys2Proof Sys2Proof.Machine

/-! ### Encoding -/

/-- Decoding the canonical encoding of an operation gives the operation, with every operand at every
value (rules R62, R63, R66, R72). -/
def Obligations.DecodeOfEncode : Prop := ∀ i : Instr, decode (encode i) = .ok i

/-- The canonical encoding of the operation a command word decodes to is that word with the fields
its format ignores set to zero (rule R63). -/
def Obligations.EncodeOfDecodeIsCanonical : Prop :=
  ∀ (w : CommandWord) (i : Instr), decode (.command w) = .ok i →
    encode i = .command (canonicalWord i.format w)

/-- Two command words that differ only in fields the format ignores decode alike (rule R63). -/
def Obligations.IgnoredFieldsDoNotMatter : Prop :=
  ∀ (w w' : CommandWord) (i : Instr), decode (.command w) = .ok i →
    canonicalWord i.format w' = canonicalWord i.format w → decode (.command w') = .ok i

/-- A command word with an opcode outside the opcode map completes with `REFUSED`; nothing else
changes but that the turn is taken (rule R67). -/
def Obligations.ReservedCommandRefused : Prop :=
  ∀ (s : State) (a : Agent) (w : CommandWord) (rest : List Turn),
    (s.schedule = .command a w :: rest ∨ s.schedule = .issue a w :: rest) → s.busy a = false →
    opField w ∉ ([0x01, 0x02, 0x10, 0x20, 0x21, 0x22, 0x23, 0x24, 0x25, 0x30, 0x31, 0x80, 0x81] :
      List Byte) →
    step s = .next { s with
      schedule := rest
      responses := s.responses.deliver a { status := .refused, value := .absent } }

/-- `LOOP_ITER` and `LOOP_EXIT` arriving from the host or the refresh agent are refused as a reserved
word is (rule R68). -/
def Obligations.LoopEventsRefusedAtPort : Prop :=
  ∀ (s : State) (a : Agent) (w : CommandWord) (rest : List Turn),
    (s.schedule = .command a w :: rest ∨ s.schedule = .issue a w :: rest) → s.busy a = false →
    a ≠ .loop → (opField w = 0x80 ∨ opField w = 0x81) →
    step s = .next { s with
      schedule := rest
      responses := s.responses.deliver a { status := .refused, value := .absent } }

/-- An operation its issuer may not issue is refused at the port: the issuer restrictions are part of
decoding (rule R69; that the refusal is the one of rule R67 is DEDUCED, log 10). -/
def Obligations.UnadmittedCommandRefused : Prop :=
  ∀ (s : State) (a : Agent) (w : CommandWord) (i : Instr) (rest : List Turn),
    (s.schedule = .command a w :: rest ∨ s.schedule = .issue a w :: rest) → s.busy a = false →
    decode (.command w) = .ok i → i.admitted a = false →
    step s = .next { s with
      schedule := rest
      responses := s.responses.deliver a { status := .refused, value := .absent } }

/-- Command words and an instruction word written out from rules R62, R63, R66 and R72, and what they
decode to. -/
def Obligations.WordsOfTheSpecDecode : Prop :=
  decode (.command 0x0200000000DEADBEEF) = .ok (.write32 0 0xDEADBEEF) ∧
  decode (.command 0x02007FFFFC00000001) = .ok (.write32 0x7FFFFC 1) ∧
  decode (.command 0x01000000040BADF00D) = .ok (.read32 4) ∧
  decode (.command 0x10DEADBEEF12345678) = .ok .step ∧
  decode (.command 0x310010000000000000) = .ok (.setFbBase 0x100000) ∧
  decode (.command 0x260000000000000000) = .error (.reservedOpcode 0x26) ∧
  decode (.instruction 0x12345678) = .ok (.insn 0x12345678)

/-! ### Steps -/

/-- A step runs the decoded command: when the next turn is a command word of an idle agent that
decodes to an operation the agent may issue, the step is that operation's meaning on the state with
the turn taken and the issuer noted, but for the host `STEP` while a context is live (rule R69); for
a render it is the meaning on the state with the writes finished that `FB_SYNC = rwlock` keeps whole
(rule R58; the form is a DESIGN CHOICE, log 15), which without such a write is that same state.
An issued word (the model's form, log 7) only starts the operations of several events: an access with
all its bytes to come (R51), a `STEP` that has done nothing, a render that stores the base as it is
now and has every byte to read (R52, R120) or, under `rwlock`, its one event to come (DESIGN CHOICE,
log 15), an iteration that has sampled `paused` at the clock's reading or the end of its wait
(R140, R144, log 13). Every other issued operation is its meaning. That a render starts while the
other agent has one in flight is the model's choice too: the spec neither allows nor forbids it
(DESIGN CHOICE, log 24). -/
def Obligations.StepRunsDecodedCommand : Prop :=
  ∀ (s : State) (a : Agent) (w : CommandWord) (i : Instr) (rest : List Turn),
    s.busy a = false → decode (.command w) = .ok i → i.admitted a = true →
    (s.schedule = .command a w :: rest → ¬(i = .step ∧ s.sched.ctxLive = true) →
      (i ≠ .render → step s = exec i { s with schedule := rest, issuer := a }) ∧
      (i = .render → step s = exec i { s.finishWrites with schedule := rest, issuer := a }) ∧
      (s.writeHalfDone = false → s.finishWrites = s)) ∧
    (s.schedule = .issue a w :: rest →
      (∀ addr, i = .read32 addr → step s = .next { s with
        schedule := rest
        host := .access
          (if addr.toNat < s.bus.size - 4 then .memRead addr [0, 1, 2, 3] 0
          else .cellRead addr) }) ∧
      (∀ addr data, i = .write32 addr data → step s = .next { s with
        schedule := rest
        host := .access
          (if addr.toNat < s.bus.size - 4 then .memWrite addr data [0, 1, 2, 3]
          else .cellWrite addr data) }) ∧
      (i = .step → s.sched.ctxLive = false → s.cpu.isRunning = true → step s = .next { s with
        schedule := rest
        host := .stepping { replies := [], writes := 0, access := none } }) ∧
      (i = .render → ∀ r : RenderProgress,
        (s.session.fbSync = .none →
          r = .reading s.video.frameBufferBase (List.range s.video.fbSize)) →
        (s.session.fbSync = .rwlock → r = .whole) →
        (a = .host → step s = .next { s with schedule := rest, host := .rendering r }) ∧
        (a = .refresh → step s = .next { s with schedule := rest, refresh := some r })) ∧
      (i = .loopIter → ∀ c, s.sched.ctx = some c → s.sched.running = true →
        step s = .next { s with
          schedule := rest
          clock := max s.clock c.idleUntil
          sched := { s.sched with
            ctx := some { c with
              activity := if s.sched.paused then .counting else .sampled } } }) ∧
      ((∀ addr, i ≠ .read32 addr) → (∀ addr data, i ≠ .write32 addr data) → i ≠ .render →
        (i = .step → s.sched.ctxLive = false ∧ s.cpu.isRunning = false) →
        (i = .loopIter → s.sched.ctxLive = false ∨ s.sched.running = false) →
        step s = exec i { s with schedule := rest, issuer := a }))

/-- Where a schedule is given no meaning: an operation issued while its agent's previous one is in
flight (rules R53, R134), and a host `STEP` while a context is live (rules R93, R189; the refusals' names are
the model's, log 10). -/
def Obligations.OverlapIsRefused : Prop :=
  (∀ (s : State) (a : Agent) (w : CommandWord) (rest : List Turn),
    (s.schedule = .command a w :: rest ∨ s.schedule = .issue a w :: rest) → s.busy a = true →
    step s = .refused (.agentBusy a)) ∧
  (∀ (s : State) (w : CommandWord) (rest : List Turn),
    (s.schedule = .command .host w :: rest ∨ s.schedule = .issue .host w :: rest) →
    s.busy .host = false → opField w = 0x10 → s.sched.ctxLive = true →
    step s = .refused .stepWhileLive)

/-- With no turn left, a machine in which no operation is in flight and no context exists stays as it
is: nothing executes until the host issues a command (rule R182). -/
def Obligations.QuiescentMachineStays : Prop :=
  ∀ s : State, s.schedule = [] → s.host = .idle → s.refresh = none → s.sched.ctx = none →
    step s = .next s

/-- `STEP` is the unit of work on the instruction word at `pc`: `READ32` there, from whichever region
`pc` decodes to (rules R72, R99). That `INSN` of a word is that unit of work is the
model's inference (DEDUCED, log 9). -/
def Obligations.StepIsInsnOfFetchedWord : Prop :=
  ∀ s : State, exec .step s = exec (.insn (s.bus.read32 (truncAddr s.cpu.pc))) s

/-- What `withFetchWord` places, the very next step runs: a command word of the table, and an
instruction word, which a `STEP` fetches at `pc` (the model's placing, log 21). -/
def Obligations.PlacedWordRunsNext : Prop :=
  (∀ (s : State) (w : CommandWord) (i : Instr), decode (.command w) = .ok i →
    step (s.withFetchWord 72 w.toNat) =
      exec i { placeCommand s w with schedule := s.schedule, issuer := issuerOf w }) ∧
  (∀ (s : State) (iw : Word),
    step (s.withFetchWord 32 iw.toNat) =
      exec (.insn iw) { placeInsn s iw with schedule := s.schedule, issuer := .host })

/-! ### The bus -/

/-- `READ32` (opcode 01, format A) returns the big-endian value of the four bytes below `S - 4` and the
cell from there on; it completes in every state, for every address, and changes nothing (rule R80). -/
def Obligations.Read32Result : Prop :=
  ∀ (s : State) (addr : Addr), ∃ v : Word,
    (∀ w : CommandWord, opField w = 0x01 → addrField w = addr →
      decode (.command w) = .ok (.read32 addr)) ∧
    exec (.read32 addr) s = .next { s with
      responses := s.responses.deliver s.issuer { status := .ok, value := .word v } } ∧
    (addr.toNat < s.bus.size - 4 →
      v.toNat = (s.bus.byteAt addr.toNat).toNat * 2 ^ 24 +
        (s.bus.byteAt (addr.toNat + 1)).toNat * 2 ^ 16 +
        (s.bus.byteAt (addr.toNat + 2)).toNat * 2 ^ 8 + (s.bus.byteAt (addr.toNat + 3)).toNat) ∧
    (s.bus.size - 4 ≤ addr.toNat → v = s.bus.cellAt addr.toNat)

/-- `WRITE32` (opcode 02, format AD) of an integer of any width: below `S - 4` it stores the
low 32 bits big-endian in four bytes, from there on in one cell; every other byte and cell, and every
other piece of state, stays (rules R81, R82). -/
def Obligations.Write32Result : Prop :=
  ∀ (s : State) (addr : Addr) (val : Int), ∃ t : State,
    (∀ w : CommandWord, opField w = 0x02 → addrField w = addr → dataField w = trunc32 val →
      decode (.command w) = .ok (.write32 addr (trunc32 val))) ∧
    exec (.write32 addr (trunc32 val)) s = .next t ∧
    (addr.toNat < s.bus.size - 4 →
      (∀ k, k < 4 → ((t.bus.byteAt (addr.toNat + k)).toNat : Int) =
        val / 2 ^ (8 * (3 - k)) % 256) ∧
      (∀ c, ¬(addr.toNat ≤ c ∧ c < addr.toNat + 4) → t.bus.byteAt c = s.bus.byteAt c) ∧
      (∀ c, t.bus.cellAt c = s.bus.cellAt c)) ∧
    (s.bus.size - 4 ≤ addr.toNat →
      ((t.bus.cellAt addr.toNat).toNat : Int) = val % 2 ^ 32 ∧
      (∀ c, c ≠ addr.toNat → t.bus.cellAt c = s.bus.cellAt c) ∧
      (∀ c, t.bus.byteAt c = s.bus.byteAt c)) ∧
    t.bus.size = s.bus.size ∧
    t = { s with
      bus := t.bus
      responses := s.responses.deliver s.issuer { status := .ok, value := .absent } }

/-- Round trip: a write, then any writes that touch neither its bytes nor its cell, then a read at
the same address gives the low 32 bits of the value, at every address (rule R83). -/
def Obligations.RoundTrip : Prop :=
  ∀ (b : AddressSpace) (a : Addr) (val : Int) (ws : List (Addr × Word)),
    (∀ w ∈ ws, b.Apart a w.1) →
    ((b.write32 a (trunc32 val)).writes ws).read32 a = trunc32 val ∧
    ((((b.write32 a (trunc32 val)).writes ws).read32 a).toNat : Int) = val % 2 ^ 32

/-- An address never written reads as 0: in main memory a read is 0 exactly when its four bytes are;
from reset, writes that do not touch an address leave it reading 0 in either region (rule R84). -/
def Obligations.UnwrittenReadsZero : Prop :=
  (∀ (b : AddressSpace) (a : Addr), a.toNat < b.size - 4 →
    (b.read32 a = 0 ↔ ∀ k, k < 4 → b.byteAt (a.toNat + k) = 0)) ∧
  (∀ (p : SessionParams) (a : Addr) (ws : List (Addr × Word)),
    (∀ w ∈ ws, (State.initial p).bus.Apart a w.1) →
    ((State.initial p).bus.writes ws).read32 a = 0)

/-- The order of the byte events of one access is not observable within one agent: four byte events
in any order, or one cell event, are the whole `WRITE32` and the whole `READ32` (rules R51, R53). -/
def Obligations.AccessOrderUnobservable : Prop :=
  ∀ (b : AddressSpace) (a : Addr) (v : Word) (picks : List Nat), Memory.wf b.mem →
    picks.length = (if b.toMemory a then 4 else 1) →
    runAccess (startWrite b a v) picks b = (b.write32 a v, .written) ∧
    runAccess (startRead b a) picks b = (b, .read (b.read32 a))

/-- An operation of the host in flight that no other agent interrupts is that operation with its
response: a `READ32` and a `WRITE32` with their byte events in any order, and a `STEP`, whatever its
strategy does (rules R51, R53, R69, R90). -/
def Obligations.InFlightHostOperationIsOperation : Prop :=
  ∀ s : State, Memory.wf s.bus.mem →
    (∀ (addr : Addr) (picks : List Nat), s.host = .access (startRead s.bus addr) →
      picks.length = (if addr.toNat < s.bus.size - 4 then 4 else 1) →
      exec (.read32 addr) { s with host := .idle, issuer := .host } =
        .next { runEvents .host picks s with issuer := .host }) ∧
    (∀ (addr : Addr) (data : Word) (picks : List Nat),
      s.host = .access (startWrite s.bus addr data) →
      picks.length = (if addr.toNat < s.bus.size - 4 then 4 else 1) →
      exec (.write32 addr data) { s with host := .idle, issuer := .host } =
        .next { runEvents .host picks s with issuer := .host }) ∧
    (∀ f : Nat → Nat, s.host = .stepping .fresh → s.cpu.isRunning = true → ∃ n : Nat,
      exec .step { s with host := .idle, issuer := .host } =
        .next { runEvents .host ((List.range n).map f) s with issuer := .host })

/-! ### The processor -/

/-- When `isRunning` is false, `STEP` is a no-op returning 0 (rule R91). -/
def Obligations.StepNotRunning : Prop :=
  ∀ s : State, s.cpu.isRunning = false → exec .step s = .next { s with
    responses := s.responses.deliver s.issuer { status := .ok, value := .count 0 } }

/-- When `isRunning` is true, `STEP` runs the strategy from the registers, `pc` and the bus. A run that
ends in `Done(x', pc', n)` has `n ≥ 1` and commits `x'` and `pc'` together over the bus it left; one
that ends in `DecodeError(info)` has left the bus as it was, and the halt entry is taken. Nothing else
changes (rules R90, R92, R94, R95, R96, R162, R163). -/
def Obligations.StepCommitsOrHalts : Prop :=
  ∀ s : State, s.cpu.isRunning = true →
    (∀ x pc n, (ExecProg.run s.execProg s.bus).2 = .done x pc n →
      1 ≤ n ∧ (ExecProg.run s.execProg s.bus).1.size = s.bus.size ∧
      exec .step s = .next { s with
        bus := (ExecProg.run s.execProg s.bus).1
        cpu := { s.cpu with x := x, pc := pc }
        responses := s.responses.deliver s.issuer { status := .ok, value := .count n } }) ∧
    (∀ info, (ExecProg.run s.execProg s.bus).2 = .decodeError info →
      (ExecProg.run s.execProg s.bus).1 = s.bus ∧
      exec .step s = .next { s with
        cpu := { s.cpu with
          isRunning := false
          halted := true
          haltInfo := { cause := .unsupportedInstruction, info := info } }
        responses := s.responses.deliver s.issuer { status := .decodeError, value := .count 0 } })

/-- `ExecPlaceholder`: the writes of the colour at `4 * i` for every pixel in ascending order, count 1,
nothing else (rule R97). -/
def Obligations.PlaceholderStepWrites : Prop :=
  ∀ s : State, s.cpu.isRunning = true → s.session.strategy = .placeholder →
    exec .step s = .next { s with
      bus := s.bus.writes ((List.range (s.video.width * s.video.height)).map fun i =>
        (BitVec.ofNat 32 (4 * i), s.session.placeholderColor))
      responses := s.responses.deliver s.issuer { status := .ok, value := .count 1 } }

/-- When the frame lies below `S - 4`, a placeholder `STEP` leaves the four bytes of the colour at
every pixel, every other byte and every cell as it was, and a render with base 0 after it delivers
`W * H` pixels of the colour (rule R98, its first case). -/
def Obligations.PlaceholderFrameIsSolid : Prop :=
  ∀ s : State, s.cpu.isRunning = true → s.session.strategy = .placeholder →
    s.video.fbSize ≤ s.bus.size - 4 → s.bus.size < 2 ^ 32 →
    ∃ t u : State, exec .step s = .next t ∧
      (∀ i, i < s.video.width * s.video.height → ∀ k, k < 4 →
        t.bus.byteAt (4 * i + k) = s.session.placeholderColor.extractLsb' (8 * (3 - k)) 8) ∧
      (∀ c, s.video.fbSize ≤ c → t.bus.byteAt c = s.bus.byteAt c) ∧
      (∀ c, t.bus.cellAt c = s.bus.cellAt c) ∧
      t = { s with
        bus := t.bus
        responses := s.responses.deliver s.issuer { status := .ok, value := .count 1 } } ∧
      exec .render t = .next u ∧
      (s.video.frameBufferBase = 0 →
        u.sink = some (List.replicate (s.video.width * s.video.height)
          { red := s.session.placeholderColor.extractLsb' 16 8
            green := s.session.placeholderColor.extractLsb' 8 8
            blue := s.session.placeholderColor.extractLsb' 0 8 }))

/-- `ExecNull`: a running `STEP` fetches `iw` at `pc` and halts with `(1, (pc, iw))`, whatever memory
holds; it writes nothing (rule R100). -/
def Obligations.NullStepHalts : Prop :=
  ∀ s : State, s.cpu.isRunning = true → s.session.strategy = .null →
    exec .step s = .next { s with
      cpu := { s.cpu with
        isRunning := false
        halted := true
        haltInfo :=
          { cause := .unsupportedInstruction
            info := [s.cpu.pc, s.bus.read32 (truncAddr s.cpu.pc)] } }
      responses := s.responses.deliver s.issuer { status := .decodeError, value := .count 0 } }

/-- `INSN iw` completes in every state: not running it is a no-op; running, it is the strategy's run
after the fetch returned `iw`, committed on `Done` and a halt entry with the bus as it was on
`DecodeError`; under `ExecNull` every word halts with `(1, (pc, iw))`. The rules (R72, R91, R96, R100)
say this of a `STEP` and what it fetches; that `INSN` is the unit of work of such a `STEP`, and its
no-op when not running, are the model's inference (DEDUCED, log 9). -/
def Obligations.InsnFollowsExec : Prop :=
  ∀ (s : State) (iw : Word),
    (s.cpu.isRunning = false → exec (.insn iw) s = .next { s with
      responses := s.responses.deliver s.issuer { status := .ok, value := .count 0 } }) ∧
    (s.cpu.isRunning = true →
      (∀ x pc n,
        (ExecProg.run (ExecProg.fetched s.execProg s.bus s.cpu.pc iw) s.bus).2 = .done x pc n →
        1 ≤ n ∧ exec (.insn iw) s = .next { s with
          bus := (ExecProg.run (ExecProg.fetched s.execProg s.bus s.cpu.pc iw) s.bus).1
          cpu := { s.cpu with x := x, pc := pc }
          responses := s.responses.deliver s.issuer { status := .ok, value := .count n } }) ∧
      (∀ info,
        (ExecProg.run (ExecProg.fetched s.execProg s.bus s.cpu.pc iw) s.bus).2 = .decodeError info →
        exec (.insn iw) s = .next { s with
          cpu := { s.cpu with
            isRunning := false
            halted := true
            haltInfo := { cause := .unsupportedInstruction, info := info } }
          responses :=
            s.responses.deliver s.issuer { status := .decodeError, value := .count 0 } })) ∧
    (s.cpu.isRunning = true → s.session.strategy = .null →
      exec (.insn iw) s = .next { s with
        cpu := { s.cpu with
          isRunning := false
          halted := true
          haltInfo := { cause := .unsupportedInstruction, info := [s.cpu.pc, iw] } }
        responses := s.responses.deliver s.issuer { status := .decodeError, value := .count 0 } })

/-- A halt and the signal of a `STOP` commute: the end state is the same in either order
(rule R168). -/
def Obligations.HaltCommutesWithStop : Prop :=
  ∀ (s : State) (info : List Word),
    haltEntry info (stopSignal s) = stopSignal (haltEntry info s) ∧
    (haltEntry info (stopSignal s)).cpu.halted = true ∧
    (haltEntry info (stopSignal s)).cpu.isRunning = false ∧
    (haltEntry info (stopSignal s)).sched.schedState = .stopped

/-- While `isRunning` is false and no `STEP` is in flight, no step of the machine changes a general
register or `pc` (rules R11, R16, R91, R96). -/
def Obligations.RestingProcessorKeepsRegisters : Prop :=
  ∀ s t : State, step s = .next t → s.cpu.isRunning = false → (∀ u, s.host ≠ .stepping u) →
    (∀ c ∈ s.sched.ctx, ∀ u, c.activity ≠ .stepping u) →
    t.cpu.x = s.cpu.x ∧ t.cpu.pc = s.cpu.pc

/-- `isRunning` is written by three events only: a `START` of the host sets it, a `STOP` of the host and
the halt entry clear it (rule R15). The turn of a halt entry is a `STEP` of the host, an iteration of
the loop, or an event of the agent that has a `STEP` in flight. -/
def Obligations.IsRunningHasThreeWriters : Prop :=
  ∀ s t : State, step s = .next t → t.cpu.isRunning ≠ s.cpu.isRunning →
    (s.NextIs .host .start ∧ t.cpu.isRunning = true ∧ t.cpu.halted = false ∧
      t.sched.schedState = .running ∧
      (s.sched.schedState = .idle ∨ s.sched.schedState = .stopped)) ∨
    (s.NextIs .host .stop ∧ t.cpu.isRunning = false ∧ t.sched.schedState = .stopped ∧
      (s.sched.schedState = .running ∨ s.sched.schedState = .paused)) ∨
    ((s.NextIs .host .step ∨ s.NextIs .loop .loopIter ∨
        (s.NextIsEvent .host ∧ ∃ u, s.host = .stepping u) ∨
        (s.NextIsEvent .loop ∧ ∃ c ∈ s.sched.ctx, ∃ u, c.activity = .stepping u)) ∧
      t.cpu.isRunning = false ∧ t.cpu.halted = true ∧
      t.cpu.haltInfo.cause = .unsupportedInstruction ∧ t.cpu.x = s.cpu.x ∧ t.cpu.pc = s.cpu.pc ∧
      t.bus = s.bus ∧ t.sched.schedState = s.sched.schedState)

/-! ### The video unit -/

/-- `RENDER` completes in every state: the buffer becomes the clamped copy of the framebuffer bytes,
the sink receives `W * H` pixels (red, green, blue) in row-major order, `dirty` is cleared, and
nothing else changes (rules R110, R111, R113 to R118). -/
def Obligations.RenderResult : Prop :=
  ∀ s : State, ∃ (t : State) (px : List Pixel),
    exec .render s = .next t ∧
    (∀ k, k < s.video.width * s.video.height * 4 → Memory.get t.video.outputBuffer k =
      (if s.video.frameBufferBase.toNat + k < s.bus.size then
        s.bus.byteAt (s.video.frameBufferBase.toNat + k) else 0)) ∧
    t.sink = some px ∧ px.length = s.video.width * s.video.height ∧
    (∀ x y, x < s.video.width → y < s.video.height → px[y * s.video.width + x]? = some
      { red := s.bus.vread (s.video.frameBufferBase.toNat + 4 * (y * s.video.width + x) + 1)
        green := s.bus.vread (s.video.frameBufferBase.toNat + 4 * (y * s.video.width + x) + 2)
        blue := s.bus.vread (s.video.frameBufferBase.toNat + 4 * (y * s.video.width + x) + 3) }) ∧
    t = { s with
      video := { s.video with outputBuffer := t.video.outputBuffer, dirty := false }
      sink := some px
      responses := s.responses.deliver s.issuer { status := .ok, value := .absent } }

/-- A render straight after construction is legal and delivers `W * H` black pixels (rule R119). -/
def Obligations.InitialRenderIsBlack : Prop :=
  ∀ p : SessionParams, ∃ t : State, exec .render (State.initial p) = .next t ∧
    t.sink = some (List.replicate (p.width * p.height) { red := 0, green := 0, blue := 0 })

/-- `SET_FB_BASE` sets the base to any address and nothing else; `dirty` is not set (rule R120). -/
def Obligations.SetFbBaseResult : Prop :=
  ∀ (s : State) (addr : Addr), exec (.setFbBase addr) s = .next { s with
    video := { s.video with frameBufferBase := addr }
    responses := s.responses.deliver s.issuer { status := .ok, value := .absent } }

/-- One event of a render in flight, the refresh agent's or the host's, reads one byte at the moment of
the event, from the base read at the render's start: the rest of the buffer and of the machine stays
(rules R52, R69, R113, R118, R120). That the other agent may have a render in flight as well, on the
same `outputBuffer`, is the model's choice (DESIGN CHOICE, log 24). -/
def Obligations.RenderEventReadsOneByte : Prop :=
  ∀ (s : State) (base : Addr) (unread : List Nat) (pick : Nat), unread ≠ [] →
    (s.refresh = some (.reading base unread) →
      ∃ k ∈ unread, ∃ t : State, runEvent .refresh pick s = t ∧
        Memory.get t.video.outputBuffer k = s.bus.vread (base.toNat + k) ∧
        (∀ j, j ≠ k → Memory.get t.video.outputBuffer j = Memory.get s.video.outputBuffer j) ∧
        t = { s with
          video := { s.video with outputBuffer := t.video.outputBuffer }
          refresh := some (.reading base (unread.erase k)) }) ∧
    (s.host = .rendering (.reading base unread) →
      ∃ k ∈ unread, ∃ t : State, runEvent .host pick s = t ∧
        Memory.get t.video.outputBuffer k = s.bus.vread (base.toNat + k) ∧
        (∀ j, j ≠ k → Memory.get t.video.outputBuffer j = Memory.get s.video.outputBuffer j) ∧
        t = { s with
          video := { s.video with outputBuffer := t.video.outputBuffer }
          host := .rendering (.reading base (unread.erase k)) })

/-- A render in flight, the refresh agent's or the host's, that no other agent interrupts, its bytes in
any order, is `RENDER` with its response (rules R52, R53, R69, R115). The event after the last byte
read, the end of the render, is the model's point (log 7). -/
def Obligations.InFlightRenderIsRender : Prop :=
  ∀ (s : State) (picks : List Nat), s.StorageInv → picks.length = s.video.fbSize + 1 →
    (s.refresh = some (.reading s.video.frameBufferBase (List.range s.video.fbSize)) →
      exec .render { s with refresh := none, issuer := .refresh } =
        .next { runEvents .refresh picks s with issuer := .refresh }) ∧
    (s.host = .rendering (.reading s.video.frameBufferBase (List.range s.video.fbSize)) →
      exec .render { s with host := .idle, issuer := .host } =
        .next { runEvents .host picks s with issuer := .host })

/-- `dirty` is never set again: no step takes it from false to true (rule R24). -/
def Obligations.DirtyIsNeverSetAgain : Prop :=
  ∀ s t : State, step s = .next t → s.video.dirty = false → t.video.dirty = false

/-- Only a `SET_FB_BASE` of the host changes `frameBufferBase` (rules R22, R120). -/
def Obligations.FrameBufferBaseHasOneWriter : Prop :=
  ∀ s t : State, step s = .next t → t.video.frameBufferBase ≠ s.video.frameBufferBase →
    ∃ (w : CommandWord) (rest : List Turn),
      (s.schedule = .command .host w :: rest ∨ s.schedule = .issue .host w :: rest) ∧
      decode (.command w) = .ok (.setFbBase t.video.frameBufferBase)

/-! ### The scheduler -/

/-- `START` from `Idle` or `Stopped` sets `isRunning`, clears `halted`, makes a fresh context whose
window starts now, and keeps everything else, `pc`, registers, memory, `haltInfo` and `measuredRate`
among it; in `Running` and `Paused` it is a no-op (rules R126, R169, R184;
`idleUntil` is the model's field, log 13). -/
def Obligations.StartResult : Prop :=
  ∀ s : State,
    (s.sched.schedState = .idle ∨ s.sched.schedState = .stopped →
      exec .start s = .next { s with
        cpu := { s.cpu with isRunning := true, halted := false }
        sched :=
          { schedState := .running
            measuredRate := s.sched.measuredRate
            ctx := some { frames := 0, t0 := s.clock, idleUntil := s.clock, activity := .idle } }
        responses := s.responses.deliver s.issuer { status := .ok, value := .absent } }) ∧
    (s.sched.schedState = .running ∨ s.sched.schedState = .paused →
      exec .start s = .next { s with
        responses := s.responses.deliver s.issuer { status := .ok, value := .absent } })

/-- `STOP` from `Running` or `Paused` gives `Stopped` and clears `isRunning` in one event, then waits
while a context is live; in `Idle` and `Stopped` it is a no-op (rule R127; that the wait is a
field of State is the model's form, log 11). -/
def Obligations.StopResult : Prop :=
  ∀ s : State,
    (s.sched.schedState = .running ∨ s.sched.schedState = .paused →
      (s.sched.ctxLive = true → exec .stop s = .next { s with
        cpu := { s.cpu with isRunning := false }
        sched := { s.sched with schedState := .stopped }
        host := .joining }) ∧
      (s.sched.ctxLive = false → exec .stop s = .next { s with
        cpu := { s.cpu with isRunning := false }
        sched := { s.sched with schedState := .stopped }
        responses := s.responses.deliver s.issuer { status := .ok, value := .absent } })) ∧
    (s.sched.schedState = .idle ∨ s.sched.schedState = .stopped →
      exec .stop s = .next { s with
        responses := s.responses.deliver s.issuer { status := .ok, value := .absent } })

/-- The wait of `STOP`: it goes on while a context is live, and returns `OK` once it is gone
(rule R127). -/
def Obligations.StopWaitReturns : Prop :=
  ∀ (s : State) (pick : Nat) (rest : List Turn), s.schedule = .event .host pick :: rest →
    s.host = .joining →
    (s.sched.ctxLive = true → step s = .next { s with schedule := rest }) ∧
    (s.sched.ctxLive = false → step s = .next { s with
      schedule := rest
      host := .idle
      responses := s.responses.deliver .host { status := .ok, value := .absent } })

/-- `PAUSE`: `Running` becomes `Paused`, and in every other state it is a no-op; `isRunning`, the
context and `measuredRate` are not touched (rule R128). -/
def Obligations.PauseResult : Prop :=
  ∀ s : State,
    (s.sched.schedState = .running → exec .pause s = .next { s with
      sched := { s.sched with schedState := .paused }
      responses := s.responses.deliver s.issuer { status := .ok, value := .absent } }) ∧
    (s.sched.schedState ≠ .running → exec .pause s = .next { s with
      responses := s.responses.deliver s.issuer { status := .ok, value := .absent } })

/-- `RESUME` (opcode 23, format N): `Paused` becomes `Running`, and in every other state it is a no-op;
nothing else is touched, `measuredRate` among it (rule R129). -/
def Obligations.ResumeResult : Prop :=
  (∀ w : CommandWord, opField w = 0x23 → decode (.command w) = .ok .resume) ∧
  ∀ s : State,
    (s.sched.schedState = .paused → exec .resume s = .next { s with
      sched := { s.sched with schedState := .running }
      responses := s.responses.deliver s.issuer { status := .ok, value := .absent } }) ∧
    (s.sched.schedState ≠ .paused → exec .resume s = .next { s with
      responses := s.responses.deliver s.issuer { status := .ok, value := .absent } })

/-- `TOGGLE` of an idle host is `PAUSE` in `Running`, `RESUME` in `Paused`, and nothing in `Idle` and
`Stopped` (rules R71, R130). That it is one turn and gives no response where it is nothing is the
model's choice (DESIGN CHOICE, log 23). -/
def Obligations.ToggleResult : Prop :=
  ∀ (s : State) (rest : List Turn), s.schedule = .toggle :: rest → s.host = .idle →
    (s.sched.schedState = .running →
      step s = exec .pause { s with schedule := rest, issuer := .host }) ∧
    (s.sched.schedState = .paused →
      step s = exec .resume { s with schedule := rest, issuer := .host }) ∧
    (s.sched.schedState = .idle ∨ s.sched.schedState = .stopped →
      step s = .next { s with schedule := rest })

/-- The two queries return `measuredRate` and the processor's `isRunning` in every state and change
nothing (rules R131, R132). -/
def Obligations.QueriesOnlyRead : Prop :=
  ∀ s : State,
    exec .getRate s = .next { s with
      responses := s.responses.deliver s.issuer
        { status := .ok, value := .rate s.sched.measuredRate } } ∧
    exec .getIsRunning s = .next { s with
      responses := s.responses.deliver s.issuer
        { status := .ok, value := .flag s.cpu.isRunning } }

/-- `LOOP_ITER` completes when a context is live and `running`: the processor and the bus change as by
one `STEP`, or not at all when paused; exactly one frame is counted; when the window is full the rate
is the frames over the elapsed time and a new window starts; the rest of the machine stays
(rules R140 to R144, R146; the clock and `idleUntil` are the model's form of the input, log 5, 13). -/
def Obligations.LoopIterResult : Prop :=
  ∀ (s : State) (c : LoopContext), s.sched.ctx = some c → s.sched.running = true →
    ∃ t u : State, exec .loopIter s = .next t ∧ exec .step s = .next u ∧
      t.clock = max s.clock c.idleUntil ∧
      (s.sched.paused = true → t.bus = s.bus ∧ t.cpu = s.cpu) ∧
      (s.sched.paused = false → t.bus = u.bus ∧ t.cpu = u.cpu) ∧
      (1 ≤ t.clock - c.t0 →
        t.sched.measuredRate = ((c.frames : Rat) + 1) / (t.clock - c.t0) ∧
        t.sched.ctx = some
          { frames := 0
            t0 := t.clock
            idleUntil := t.clock + s.session.loopDelay
            activity := .idle }) ∧
      (t.clock - c.t0 < 1 →
        t.sched.measuredRate = s.sched.measuredRate ∧
        t.sched.ctx = some
          { frames := c.frames + 1
            t0 := c.t0
            idleUntil := t.clock + s.session.loopDelay
            activity := .idle }) ∧
      t = { s with
        bus := t.bus
        cpu := t.cpu
        sched := { t.sched with schedState := s.sched.schedState }
        clock := t.clock
        responses := s.responses.deliver .loop { status := .ok, value := .absent } }

/-- `LOOP_EXIT` completes when a context is live and `running` is false: the context is gone and
nothing else changes (rule R145). -/
def Obligations.LoopExitResult : Prop :=
  ∀ s : State, s.sched.ctxLive = true → s.sched.running = false →
    exec .loopExit s = .next { s with
      sched := { s.sched with ctx := none }
      responses := s.responses.deliver .loop { status := .ok, value := .absent } }

/-- The loop's two events have no meaning where they are not enabled (rules R140, R145; the refusal is
the model's, log 10). -/
def Obligations.LoopEventsNotEnabled : Prop :=
  ∀ s : State,
    (s.sched.ctxLive = false ∨ s.sched.running = false →
      exec .loopIter s = .refused .loopEventNotEnabled) ∧
    (s.sched.ctxLive = false ∨ s.sched.running = true →
      exec .loopExit s = .refused .loopEventNotEnabled)

/-- An iteration whose events no other agent's event interrupts, its byte events in any order, is
`LOOP_ITER` (rules R51, R53, R140). -/
def Obligations.InFlightIterationIsLoopIter : Prop :=
  ∀ (s : State) (c : LoopContext) (f : Nat → Nat), Memory.wf s.bus.mem →
    s.sched.ctx = some c → c.activity = .idle → s.sched.running = true →
    ∃ n : Nat, exec .loopIter s = .next (runEvents .loop ((List.range n).map f) s)

/-- With no turn left the schedule is fair and no operation blocks (rules R135, R150, R194; the form is
the model's, log 6). While a context is live, some step is the loop agent's event; until then the
lifecycle and the rate stay, and under `FB_SYNC = none` the whole scheduler. A `STOP` in its wait with
`running` false returns `OK`, and the context is gone (rule R127). A render of the refresh agent
completes with `OK`, under either `FB_SYNC`, and whatever the host has in flight completes, in every
state with the control invariant. -/
def Obligations.UnscheduledTurnsAreFair : Prop :=
  (∀ s : State, s.schedule = [] → s.sched.ctxLive = true →
    ∃ (n : Nat) (t : State) (pick : Nat) (d : Rat), runSteps n s = .next t ∧
      t.sched.ctxLive = true ∧ t.sched = { s.sched with ctx := t.sched.ctx } ∧
      (s.session.fbSync = .none → t.sched = s.sched) ∧
      step t = .next (runEvent .loop pick (t.tick d))) ∧
  (∀ s : State, s.schedule = [] → s.host = .joining → s.sched.running = false →
    ∃ (n : Nat) (t : State), runSteps n s = .next t ∧ t.sched.ctx = none ∧ t.host = .idle ∧
      t.responses.host = some { status := .ok, value := .absent }) ∧
  (∀ s : State, s.schedule = [] → s.refresh ≠ none →
    ∃ (n : Nat) (t : State), runSteps n s = .next t ∧ t.refresh = none ∧
      t.responses.refresh = some { status := .ok, value := .absent }) ∧
  (∀ s : State, s.schedule = [] → s.ControlInv →
    ∃ (n : Nat) (t : State), runSteps n s = .next t ∧ t.host = .idle)

/-- While the scheduler stays `Paused`, once no iteration that sampled `paused = false` is in flight,
the loop agent changes neither the bus nor the processor, however many events it takes
(rule R146). -/
def Obligations.PausedLoopLeavesMachineAlone : Prop :=
  ∀ (s : State) (picks : List Nat), s.sched.paused = true →
    (∀ c ∈ s.sched.ctx, c.activity = .idle ∨ c.activity = .counting) →
    (runEvents .loop picks s).bus = s.bus ∧ (runEvents .loop picks s).cpu = s.cpu

/-- Without a context the loop agent has no event: after the return of `STOP` nothing it does mutates
anything until the next `START` (rules R57, R145, R190). -/
def Obligations.NoLoopEventWithoutContext : Prop :=
  ∀ (s : State) (picks : List Nat), s.sched.ctx = none → runEvents .loop picks s = s

/-- Once `running` is false the loop agent, given its turns, finishes the iteration it is in and exits,
whatever the order of its byte events: the wait of `STOP` ends (rules R127, R135, R150). -/
def Obligations.LoopExitsAfterStop : Prop :=
  ∀ (s : State) (f : Nat → Nat), s.sched.running = false →
    ∃ n : Nat, (runEvents .loop ((List.range n).map f) s).sched.ctx = none

/-! ### The whole machine -/

/-- No step changes what is fixed at construction (rules R2, R18, R21). -/
def Obligations.SessionIsFixed : Prop :=
  ∀ s t : State, step s = .next t → s.SameSession t

/-- A turn of the refresh agent, whole operations and single events alike, writes nothing of the bus,
the processor, the scheduler, the framebuffer base or the session (rules R61, R69, R117). Only under
`FB_SYNC = rwlock`, with a write to the framebuffer half done, does its render let that write's own
agent finish it first (rule R58; the form is a DESIGN CHOICE, log 15). -/
def Obligations.RefreshAgentOnlyReads : Prop :=
  ∀ (s t : State) (rest : List Turn),
    ((∃ w, s.schedule = .command .refresh w :: rest) ∨
      (∃ w, s.schedule = .issue .refresh w :: rest) ∨
      (∃ pick, s.schedule = .event .refresh pick :: rest)) →
    step s = .next t →
    t.cpu = s.cpu ∧ t.session = s.session ∧
      t.video.frameBufferBase = s.video.frameBufferBase ∧
      t.sched = { s.sched with ctx := t.sched.ctx } ∧
      ((t.bus = s.bus ∧ t.sched = s.sched ∧ t.host = s.host) ∨
        (s.session.fbSync = .rwlock ∧ s.writeHalfDone = true ∧ t.bus = s.finishWrites.bus ∧
          t.sched = s.finishWrites.sched ∧ t.host = s.finishWrites.host))

/-- Every step keeps the canonical form and the bounds of the stores, from every state that has them:
`mem[S-1]` and all beyond stay 0 (rules R19, R20, R23, R44, R112). -/
def Obligations.StorageInvKept : Prop :=
  ∀ s t : State, s.StorageInv → step s = .next t → t.StorageInv

/-- The state after reset has the storage invariant. -/
def Obligations.StorageInvAtReset : Prop := State.reset.StorageInv

/-- Every step keeps the agreement of flags, lifecycle and activities, from every state that has it
(rules R15, R29, R127, R132, R134, R162, R170). -/
def Obligations.ControlInvKept : Prop :=
  ∀ s t : State, s.ControlInv → step s = .next t → t.ControlInv

/-- The state after reset has the control invariant. -/
def Obligations.ControlInvAtReset : Prop := State.reset.ControlInv

/-- Every step keeps the frame timer's invariant, from every state that has it, the rate never being
negative, and the clock never runs back (rules R30, R141, R143, R144; `clock` and `idleUntil` are the
model's fields, log 5, 13). A `SLEEP` advances the clock by its duration and does nothing else (rules
R71, R141; a negative one counting as 0 is the model's choice, log 23). -/
def Obligations.TimerInvKept : Prop :=
  (∀ s t : State, s.TimerInv → step s = .next t → t.TimerInv ∧ s.clock ≤ t.clock) ∧
  (∀ (s : State) (d : Rat) (rest : List Turn), s.schedule = .sleep d :: rest →
    step s = .next { s with schedule := rest, clock := s.clock + max 0 d })

/-- The state after reset has the timer invariant (`LOOP_DELAY` is positive by its form, log 3). -/
def Obligations.TimerInvAtReset : Prop := State.reset.TimerInv

/-- Under `FB_SYNC = rwlock` a render is one event with respect to every write to the framebuffer, and
it does not wait (rules R58, R194; the form is a DESIGN CHOICE, log 15). No step starts a render byte
by byte; a render in flight, the refresh agent's or the host's, completes with its next event, and a
`RENDER` word of either at once; both take place where no write to the framebuffer is half done. To
that end a half done write takes the bytes it has left: those bytes become the word's, and no other
byte and no cell changes. -/
def Obligations.LockedRendersAreWhole : Prop :=
  (∀ s t : State, s.LockInv → step s = .next t → t.LockInv) ∧
  (∀ (s : State) (pick : Nat), s.refresh = some .whole → runEvent .refresh pick s =
    ({ renderAll s.finishWrites with refresh := none }.respond .refresh .ok .absent)) ∧
  (∀ (s : State) (pick : Nat), s.host = .rendering .whole → runEvent .host pick s =
    ({ renderAll s.finishWrites with host := .idle }.respond .host .ok .absent)) ∧
  (∀ (s : State) (a : Agent) (w : CommandWord) (rest : List Turn), opField w = 0x30 →
    s.schedule = .command a w :: rest → s.busy a = false → a ≠ .loop →
    step s = .next (({ renderAll s.finishWrites with
      schedule := rest, issuer := a } : State).respond a .ok .absent)) ∧
  (∀ s : State, s.finishWrites.writeHalfDone = false) ∧
  (∀ (s : State) (addr : Addr) (v : Word) (left : List (Fin 4)), s.writeHalfDone = true →
    s.busAccesses = [.memWrite addr v left] →
    s.finishWrites.busAccesses = [.memWrite addr v []] ∧
    (∀ k ∈ left, s.finishWrites.bus.byteAt (addr.toNat + k) =
      v.extractLsb' (8 * (3 - (k : Nat))) 8) ∧
    (∀ c, (∀ k ∈ left, c ≠ addr.toNat + (k : Nat)) →
      s.finishWrites.bus.byteAt c = s.bus.byteAt c) ∧
    (∀ c, s.finishWrites.bus.cellAt c = s.bus.cellAt c))

/-- What reset leaves (spec/10_state.md section 7): rules R12, R13, R15, R17 to R19, R21 to R24, R26,
R29, R30 (log 20). The reference parameters (log 4), `RESET_VECTOR` as an open constant (log 3), the
empty `info` (log 17), the empty sink (log 14) and the empty schedule (log 1) are the model's choice.
No operation is in flight. -/
def Obligations.ResetValues : Prop :=
  (∀ i : Fin 32, State.reset.cpu.x[i] = 0) ∧ State.reset.cpu.pc = Config.resetVector ∧
  State.reset.cpu.isRunning = false ∧ State.reset.cpu.halted = false ∧
  causeCode State.reset.cpu.haltInfo.cause = 0 ∧ State.reset.cpu.haltInfo.info = [] ∧
  State.reset.bus.size = 8388608 ∧ (∀ a, State.reset.bus.byteAt a = 0) ∧
  (∀ a, State.reset.bus.cellAt a = 0) ∧ State.reset.video.width = 320 ∧
  State.reset.video.height = 240 ∧ State.reset.video.frameBufferBase = 0 ∧
  (∀ k, Memory.get State.reset.video.outputBuffer k = 0) ∧ State.reset.video.dirty = true ∧
  schedCode State.reset.sched.schedState = 0 ∧ State.reset.sched.running = false ∧
  State.reset.sched.paused = false ∧ State.reset.sched.measuredRate = 0 ∧
  State.reset.sched.ctxLive = false ∧ State.reset.session.targetHz = 60 ∧
  State.reset.session.fbSync = .none ∧ State.reset.host = .idle ∧ State.reset.refresh = none ∧
  State.reset.sink = none ∧ State.reset.schedule = []

/-- A session is constructed exactly when `S ≥ 4`, `W ≥ 1`, `H ≥ 1`, `TARGET_HZ > 0`, the sink's surface
is `W × H`, and (this model's reading, log 18) `S < 2^32` and `LOOP_DELAY > 0` (rules R3, R112). -/
def Obligations.ConstructChecksParameters : Prop :=
  ∀ p : SessionParams,
    (4 ≤ p.size ∧ p.size < 2 ^ 32 ∧ 1 ≤ p.width ∧ 1 ≤ p.height ∧ 0 < p.session.targetHz ∧
      0 < p.session.loopDelay ∧ p.sinkWidth = p.width ∧ p.sinkHeight = p.height →
        State.construct p = some (State.initial p)) ∧
    (p.size < 4 ∨ 2 ^ 32 ≤ p.size ∨ p.width = 0 ∨ p.height = 0 ∨ p.session.targetHz ≤ 0 ∨
      p.session.loopDelay ≤ 0 ∨ p.sinkWidth ≠ p.width ∨ p.sinkHeight ≠ p.height → State.construct p = none)
end

