-- ==== Sys2Proof/Laws/Memory.lean ====
section
/-! SUPPORT. Laws of sparse stores: read after write, the canonical form, equal reads make equal
stores. -/

namespace Sys2Proof.Machine

variable {w : Nat} {m : List (Nat × BitVec w)} {a b : Nat} {v : BitVec w}

@[simp] theorem Memory.get_nil : Memory.get ([] : List (Nat × BitVec w)) a = 0 := rfl

@[simp] theorem Memory.get_cons {c : Nat × BitVec w} :
    Memory.get (c :: m) a = if c.1 = a then c.2 else Memory.get m a := rfl

theorem Memory.get_erase : Memory.get (Memory.erase m a) b = if b = a then 0 else Memory.get m b := by
  induction m with
  | nil => simp [Memory.erase]
  | cons c m ih =>
    simp only [Memory.erase] at ih
    by_cases hc : c.1 = a
    · simp only [Memory.erase, List.filter_cons, hc, ne_eq, not_true_eq_false, decide_false,
        Bool.false_eq_true, if_false, Memory.get_cons, ih]
      by_cases hb : b = a
      · simp [hb]
      · simp [hb, Ne.symm hb]
    · simp only [Memory.erase, List.filter_cons, hc, ne_eq, not_false_eq_true, decide_true, if_true,
        Memory.get_cons, ih]
      by_cases hb : b = a
      · subst hb
        simp [hc]
      · simp [hb]

theorem Memory.get_insert (h : ∀ c ∈ m, c.1 ≠ a) :
    Memory.get (Memory.insert m a v) b = if b = a then v else Memory.get m b := by
  induction m with
  | nil => simp [Memory.insert, eq_comm]
  | cons c m ih =>
    have hc : c.1 ≠ a := h c (by simp)
    have hm : ∀ d ∈ m, d.1 ≠ a := fun d hd => h d (by simp [hd])
    simp only [Memory.insert]
    split
    · simp [eq_comm]
    · simp only [Memory.get_cons, ih hm]
      by_cases hb : b = a
      · subst hb
        simp [hc]
      · simp [hb]

theorem Memory.ne_of_mem_erase {c : Nat × BitVec w} (h : c ∈ Memory.erase m a) : c.1 ≠ a := by
  simp only [Memory.erase, List.mem_filter, decide_eq_true_eq] at h
  exact h.2

/-- Read after write, for any store and any two addresses. -/
theorem Memory.get_set : Memory.get (Memory.set m a v) b = if b = a then v else Memory.get m b := by
  unfold Memory.set
  split
  · next h => rw [Memory.get_erase, h]
  · rw [Memory.get_insert fun c hc => Memory.ne_of_mem_erase hc, Memory.get_erase]
    split <;> rfl

@[simp] theorem Memory.get_set_same : Memory.get (Memory.set m a v) a = v := by
  simp [Memory.get_set]

theorem Memory.get_set_other (h : b ≠ a) : Memory.get (Memory.set m a v) b = Memory.get m b := by
  simp [Memory.get_set, h]

theorem Memory.mem_insert {c : Nat × BitVec w} :
    c ∈ Memory.insert m a v ↔ c = (a, v) ∨ c ∈ m := by
  induction m with
  | nil => simp [Memory.insert]
  | cons d m ih =>
    simp only [Memory.insert]
    split
    · simp
    · simp only [List.mem_cons, ih]
      tauto

/-- The entries of a written store. -/
theorem Memory.mem_set {c : Nat × BitVec w} (h : c ∈ Memory.set m a v) :
    (c = (a, v) ∧ v ≠ 0) ∨ c ∈ m := by
  unfold Memory.set at h
  split at h
  · right
    simp only [Memory.erase, List.mem_filter] at h
    exact h.1
  · next hv =>
    rcases Memory.mem_insert.mp h with h | h
    · exact .inl ⟨h, hv⟩
    · right
      simp only [Memory.erase, List.mem_filter] at h
      exact h.1

@[simp] theorem Memory.wf_nil : Memory.wf ([] : List (Nat × BitVec w)) := by simp [Memory.wf]

theorem Memory.wf_erase (h : Memory.wf m) : Memory.wf (Memory.erase m a) :=
  ⟨h.1.filter _, fun c hc => h.2 c (List.mem_of_mem_filter hc)⟩

theorem Memory.pairwise_insert (h : m.Pairwise fun c d => c.1 < d.1) (ha : ∀ c ∈ m, c.1 ≠ a) :
    (Memory.insert m a v).Pairwise fun c d => c.1 < d.1 := by
  induction m with
  | nil => simp [Memory.insert]
  | cons d m ih =>
    obtain ⟨hd, hm⟩ := List.pairwise_cons.mp h
    have hda : d.1 ≠ a := ha d (by simp)
    simp only [Memory.insert]
    split
    · next hlt =>
      refine List.pairwise_cons.mpr ⟨?_, h⟩
      intro c hc
      rcases List.mem_cons.mp hc with rfl | hc
      · exact hlt
      · exact lt_trans hlt (hd c hc)
    · next hge =>
      refine List.pairwise_cons.mpr ⟨?_, ih hm fun c hc => ha c (by simp [hc])⟩
      intro c hc
      rcases Memory.mem_insert.mp hc with rfl | hc
      · exact lt_of_le_of_ne (Nat.le_of_not_lt hge) hda
      · exact hd c hc

/-- Every write keeps the canonical form. -/
theorem Memory.wf_set (h : Memory.wf m) : Memory.wf (Memory.set m a v) := by
  refine ⟨?_, ?_⟩
  · unfold Memory.set
    split
    · exact (Memory.wf_erase h).1
    · exact Memory.pairwise_insert (Memory.wf_erase h).1 fun c hc => Memory.ne_of_mem_erase hc
  · intro c hc
    rcases Memory.mem_set hc with ⟨rfl, hv⟩ | hc
    · exact hv
    · exact h.2 c hc

theorem Memory.get_of_forall_lt (h : ∀ c ∈ m, a < c.1) : Memory.get m a = 0 := by
  induction m with
  | nil => rfl
  | cons c m ih =>
    have := h c (by simp)
    simp only [Memory.get_cons]
    rw [if_neg (by omega)]
    exact ih fun d hd => h d (by simp [hd])

theorem Memory.get_of_mem (h : Memory.wf m) {c : Nat × BitVec w} (hc : c ∈ m) :
    Memory.get m c.1 = c.2 := by
  induction m with
  | nil => simp at hc
  | cons d m ih =>
    obtain ⟨hd, hm⟩ := List.pairwise_cons.mp h.1
    rcases List.mem_cons.mp hc with rfl | hc
    · simp
    · have := hd c hc
      simp only [Memory.get_cons]
      rw [if_neg (by omega)]
      exact ih ⟨hm, fun e he => h.2 e (by simp [he])⟩ hc

/-- Canonical stores that read alike everywhere are equal. -/
theorem Memory.ext {n : List (Nat × BitVec w)} (hm : Memory.wf m) (hn : Memory.wf n)
    (h : ∀ a, Memory.get m a = Memory.get n a) : m = n := by
  induction m generalizing n with
  | nil =>
    cases n with
    | nil => rfl
    | cons d n =>
      have := h d.1
      simp only [Memory.get_nil, Memory.get_cons, if_true] at this
      exact absurd this.symm (hn.2 d (by simp))
  | cons c m ih =>
    cases n with
    | nil =>
      have := h c.1
      simp only [Memory.get_nil, Memory.get_cons, if_true] at this
      exact absurd this (hm.2 c (by simp))
    | cons d n =>
      obtain ⟨hc, hm'⟩ := List.pairwise_cons.mp hm.1
      obtain ⟨hd, hn'⟩ := List.pairwise_cons.mp hn.1
      have key : ∀ {c d : Nat × BitVec w} {m n : List (Nat × BitVec w)},
          (∀ e ∈ m, c.1 < e.1) → (∀ e ∈ n, d.1 < e.1) → c.2 ≠ 0 → c.1 < d.1 →
          (∀ a, Memory.get (c :: m) a = Memory.get (d :: n) a) → False := by
        intro c d m n _ hd h0 hlt h
        have := h c.1
        simp only [Memory.get_cons, if_true] at this
        rw [if_neg (by omega), Memory.get_of_forall_lt fun e he => lt_trans hlt (hd e he)] at this
        exact h0 this
      have hcd : c.1 = d.1 := by
        rcases lt_trichotomy c.1 d.1 with hlt | heq | hgt
        · exact (key hc hd (hm.2 c (by simp)) hlt h).elim
        · exact heq
        · exact (key hd hc (hn.2 d (by simp)) hgt fun a => (h a).symm).elim
      have hval : c.2 = d.2 := by
        have := h c.1
        simpa [Memory.get_cons, hcd] using this
      have hrest : ∀ a, Memory.get m a = Memory.get n a := by
        intro a
        by_cases ha : c.1 = a
        · subst ha
          rw [Memory.get_of_forall_lt hc, Memory.get_of_forall_lt (hcd ▸ hd)]
        · have := h a
          simpa [Memory.get_cons, ha, hcd ▸ ha] using this
      rw [ih ⟨hm', fun e he => hm.2 e (by simp [he])⟩ ⟨hn', fun e he => hn.2 e (by simp [he])⟩ hrest,
        Prod.ext hcd hval]

/-- What a window of a store reads as. -/
theorem Memory.get_window {base len limit : Nat} :
    Memory.get (Memory.window m base len limit) a =
      if a < len ∧ base + a < limit then Memory.get m (base + a) else 0 := by
  induction m with
  | nil => simp [Memory.window]
  | cons c m ih =>
    simp only [Memory.window] at ih
    by_cases hc : base ≤ c.1 ∧ c.1 < base + len ∧ c.1 < limit
    · simp only [Memory.window, List.filter_cons, hc, and_self, decide_true, if_true, List.map_cons,
        Memory.get_cons, ih]
      by_cases ha : c.1 = base + a
      · have h1 : c.1 - base = a := by omega
        have h2 : a < len ∧ base + a < limit := by omega
        simp [ha, h2]
      · have h1 : c.1 - base ≠ a := by omega
        simp [ha, h1]
    · simp only [Memory.window, List.filter_cons, hc, decide_false, Bool.false_eq_true, if_false,
        Memory.get_cons, ih]
      by_cases ha : c.1 = base + a
      · have h2 : ¬(a < len ∧ base + a < limit) := by omega
        simp [h2]
      · simp [ha]

/-- The entries of a window lie inside it. -/
theorem Memory.mem_window {base len limit : Nat} {c : Nat × BitVec w}
    (h : c ∈ Memory.window m base len limit) : c.1 < len := by
  simp only [Memory.window, List.mem_map, List.mem_filter, decide_eq_true_eq] at h
  obtain ⟨d, ⟨_, h1, h2, _⟩, rfl⟩ := h
  show d.1 - base < len
  omega

/-- A window of a canonical store is canonical. -/
theorem Memory.wf_window {base len limit : Nat} (h : Memory.wf m) :
    Memory.wf (Memory.window m base len limit) := by
  refine ⟨?_, ?_⟩
  · simp only [Memory.window]
    refine List.pairwise_map.mpr ?_
    refine List.Pairwise.imp_of_mem ?_ (h.1.filter _)
    intro c d hc hd hlt
    simp only [List.mem_filter, decide_eq_true_eq] at hc hd
    show c.1 - base < d.1 - base
    omega
  · intro c hc
    simp only [Memory.window, List.mem_map, List.mem_filter] at hc
    obtain ⟨d, ⟨hd, _⟩, rfl⟩ := hc
    exact h.2 d hd

end Sys2Proof.Machine
end

