-- ==== Sys2Proof/Laws/Bus.lean ====
section
/-! SUPPORT. Laws of the bus: the bytes of a word, what a write leaves in memory and in register
space, read after write, and the events of an access. -/

namespace Sys2Proof.Machine

/-! ### Words and bytes -/

/-- Joining the four bytes of a word gives the word (rule R46). -/
@[simp] theorem wordOf_byteOf (v : Word) :
    wordOf (byteOf v 0) (byteOf v 1) (byteOf v 2) (byteOf v 3) = v := by
  unfold wordOf byteOf
  ext i hi
  simp only [BitVec.getElem_append, BitVec.getElem_extractLsb']
  split_ifs <;> (rw [← BitVec.getLsbD_eq_getElem]; congr 1; omega)

/-- The number four bytes stand for, the first most significant (rule R46). -/
theorem toNat_wordOf (b0 b1 b2 b3 : Byte) : (wordOf b0 b1 b2 b3).toNat =
    b0.toNat * 2 ^ 24 + b1.toNat * 2 ^ 16 + b2.toNat * 2 ^ 8 + b3.toNat := by
  unfold wordOf
  simp only [BitVec.toNat_append]
  have h1 := b1.isLt
  have h2 := b2.isLt
  have h3 := b3.isLt
  rw [← Nat.shiftLeft_add_eq_or_of_lt h3, ← Nat.shiftLeft_add_eq_or_of_lt h2,
    ← Nat.shiftLeft_add_eq_or_of_lt h1]
  simp only [Nat.shiftLeft_eq]
  omega

theorem byteOf_wordOf (b0 b1 b2 b3 : Byte) (k : Nat) (hk : k < 4) :
    byteOf (wordOf b0 b1 b2 b3) k =
      if k = 0 then b0 else if k = 1 then b1 else if k = 2 then b2 else b3 := by
  have h0 := b0.isLt
  have h1 := b1.isLt
  have h2 := b2.isLt
  have h3 := b3.isLt
  apply BitVec.eq_of_toNat_eq
  unfold byteOf
  rw [BitVec.extractLsb'_toNat, toNat_wordOf, Nat.shiftRight_eq_div_pow]
  interval_cases k <;> simp <;> omega

/-- A byte of a word one byte of which was replaced. -/
theorem byteOf_setByte (v : Word) (j k : Nat) (b : Byte) (hk : k < 4) :
    byteOf (setByte v j b) k = if k = j then b else byteOf v k := by
  unfold setByte
  rw [byteOf_wordOf _ _ _ _ _ hk]
  interval_cases k <;> simp [eq_comm]

/-- Words with equal bytes are equal. -/
theorem word_ext {u v : Word} (h : ∀ k, k < 4 → byteOf u k = byteOf v k) : u = v := by
  rw [← wordOf_byteOf u, ← wordOf_byteOf v, h 0 (by omega), h 1 (by omega), h 2 (by omega),
    h 3 (by omega)]

/-! ### Bytes and cells of a bus -/

/-- The decoder's one comparison (rules R41, R42). -/
theorem AddressSpace.toMemory_iff {b : AddressSpace} {a : Addr} :
    b.toMemory a = true ↔ a.toNat < b.size - 4 := decide_eq_true_iff

/-- Where the decoder routes to register space (rule R42). -/
theorem AddressSpace.toMemory_false_iff {b : AddressSpace} {a : Addr} :
    b.toMemory a = false ↔ b.size - 4 ≤ a.toNat := by
  rw [← Nat.not_lt, ← AddressSpace.toMemory_iff, Bool.not_eq_true]

@[simp] theorem AddressSpace.setByteAt_size (b : AddressSpace) (a : Nat) (v : Byte) :
    (b.setByteAt a v).size = b.size := rfl
@[simp] theorem AddressSpace.setByteAt_reg (b : AddressSpace) (a : Nat) (v : Byte) :
    (b.setByteAt a v).reg = b.reg := rfl
@[simp] theorem AddressSpace.setCellAt_size (b : AddressSpace) (a : Nat) (v : Word) :
    (b.setCellAt a v).size = b.size := rfl
@[simp] theorem AddressSpace.setCellAt_mem (b : AddressSpace) (a : Nat) (v : Word) :
    (b.setCellAt a v).mem = b.mem := rfl
@[simp] theorem AddressSpace.memWrite32_size (b : AddressSpace) (a : Nat) (v : Word) :
    (b.memWrite32 a v).size = b.size := rfl
@[simp] theorem AddressSpace.memWrite32_reg (b : AddressSpace) (a : Nat) (v : Word) :
    (b.memWrite32 a v).reg = b.reg := rfl

theorem AddressSpace.byteAt_setByteAt (b : AddressSpace) (a : Nat) (v : Byte) (c : Nat) :
    (b.setByteAt a v).byteAt c = if c = a then v else b.byteAt c := Memory.get_set

theorem AddressSpace.cellAt_setCellAt (b : AddressSpace) (a : Nat) (v : Word) (c : Nat) :
    (b.setCellAt a v).cellAt c = if c = a then v else b.cellAt c := Memory.get_set

@[simp] theorem AddressSpace.byteAt_setCellAt (b : AddressSpace) (a : Nat) (v : Word) (c : Nat) :
    (b.setCellAt a v).byteAt c = b.byteAt c := rfl

@[simp] theorem AddressSpace.cellAt_setByteAt (b : AddressSpace) (a : Nat) (v : Byte) (c : Nat) :
    (b.setByteAt a v).cellAt c = b.cellAt c := rfl

@[simp] theorem AddressSpace.cellAt_memWrite32 (b : AddressSpace) (a : Nat) (v : Word) (c : Nat) :
    (b.memWrite32 a v).cellAt c = b.cellAt c := rfl

/-- A memory write leaves its four bytes and no other (rules R46, R81). -/
theorem AddressSpace.byteAt_memWrite32 (b : AddressSpace) (a : Nat) (v : Word) (c : Nat) :
    (b.memWrite32 a v).byteAt c =
      if a ≤ c ∧ c < a + 4 then byteOf v (c - a) else b.byteAt c := by
  simp only [AddressSpace.memWrite32, AddressSpace.byteAt_setByteAt]
  by_cases h : a ≤ c ∧ c < a + 4
  · obtain ⟨k, hk, rfl⟩ : ∃ k, k < 4 ∧ c = a + k := ⟨c - a, by omega, by omega⟩
    rw [if_pos h]
    interval_cases k <;> simp
  · rw [if_neg h]
    rw [if_neg (by omega), if_neg (by omega), if_neg (by omega), if_neg (by omega)]

@[simp] theorem AddressSpace.memRead32_setCellAt (b : AddressSpace) (a : Nat) (v : Word) (c : Nat) :
    (b.setCellAt a v).memRead32 c = b.memRead32 c := rfl

theorem AddressSpace.memRead32_memWrite32_same (b : AddressSpace) (a : Nat) (v : Word) :
    (b.memWrite32 a v).memRead32 a = v := by
  simp [AddressSpace.memRead32, AddressSpace.byteAt_memWrite32]

theorem AddressSpace.memRead32_memWrite32_apart (b : AddressSpace) {a c : Nat} (v : Word)
    (h : c + 4 ≤ a ∨ a + 4 ≤ c) : (b.memWrite32 a v).memRead32 c = b.memRead32 c := by
  simp only [AddressSpace.memRead32, AddressSpace.byteAt_memWrite32]
  rw [if_neg (by omega), if_neg (by omega), if_neg (by omega), if_neg (by omega)]

@[simp] theorem AddressSpace.write32_size (b : AddressSpace) (a : Addr) (v : Word) :
    (b.write32 a v).size = b.size := by
  unfold AddressSpace.write32; split <;> rfl

@[simp] theorem AddressSpace.write32_bound (b : AddressSpace) (a : Addr) (v : Word) :
    (b.write32 a v).bound = b.bound := by
  simp [AddressSpace.bound]

@[simp] theorem AddressSpace.write32_toMemory (b : AddressSpace) (a c : Addr) (v : Word) :
    (b.write32 a v).toMemory c = b.toMemory c := by
  simp [AddressSpace.toMemory]

/-- What a bus write leaves in main memory (rule R81). -/
theorem AddressSpace.byteAt_write32 (b : AddressSpace) (a : Addr) (v : Word) (c : Nat) :
    (b.write32 a v).byteAt c =
      if a.toNat < b.bound ∧ a.toNat ≤ c ∧ c < a.toNat + 4 then byteOf v (c - a.toNat)
      else b.byteAt c := by
  unfold AddressSpace.write32 AddressSpace.toMemory
  by_cases h : a.toNat < b.bound
  · simp [h, AddressSpace.byteAt_memWrite32]
  · simp [h]

/-- What a bus write leaves in register space (rule R81). -/
theorem AddressSpace.cellAt_write32 (b : AddressSpace) (a : Addr) (v : Word) (c : Nat) :
    (b.write32 a v).cellAt c =
      if b.bound ≤ a.toNat ∧ c = a.toNat then v else b.cellAt c := by
  unfold AddressSpace.write32 AddressSpace.toMemory
  by_cases h : a.toNat < b.bound
  · simp [h]
  · simp [h, AddressSpace.cellAt_setCellAt, Nat.le_of_not_lt h]

/-- Round trip, at every address (rule R83). -/
@[simp] theorem AddressSpace.read32_write32_same (b : AddressSpace) (a : Addr) (v : Word) :
    (b.write32 a v).read32 a = v := by
  unfold AddressSpace.read32
  rw [AddressSpace.write32_toMemory]
  unfold AddressSpace.write32
  split
  · exact b.memRead32_memWrite32_same _ _
  · simp [AddressSpace.cellAt_setCellAt]

/-- The bytes of a word in main memory (rule R46). -/
theorem AddressSpace.byteOf_memRead32 (b : AddressSpace) (a : Nat) {k : Nat} (hk : k < 4) :
    byteOf (b.memRead32 a) k = b.byteAt (a + k) := by
  rw [AddressSpace.memRead32, byteOf_wordOf _ _ _ _ _ hk]
  interval_cases k <;> rfl

/-- Buses of one size that agree at an address agree there after the same write. -/
theorem AddressSpace.read32_write32_congr {b c : AddressSpace} {p : Addr} (hs : b.size = c.size)
    (h : b.read32 p = c.read32 p) (a : Addr) (v : Word) :
    (b.write32 a v).read32 p = (c.write32 a v).read32 p := by
  have hb : b.bound = c.bound := by simp [AddressSpace.bound, hs]
  unfold AddressSpace.read32 AddressSpace.toMemory at *
  simp only [AddressSpace.write32_bound, hb] at h ⊢
  split_ifs at h ⊢ with hp
  · refine word_ext fun k hk => ?_
    have hk' := congrArg (byteOf · k) h
    simp only [AddressSpace.byteOf_memRead32 _ _ hk] at hk'
    simp only [AddressSpace.byteOf_memRead32 _ _ hk, AddressSpace.byteAt_write32, hb, hk']
  · simp only [AddressSpace.cellAt_write32, hb, h]

end Sys2Proof.Machine
end

