-- ==== Sys2Proof/Laws/Decode.lean ====
section
/-! SUPPORT. Laws of the command word: its fields (rule R62), and what it can decode to (rule R66). -/

namespace Sys2Proof

theorem opField_commandWord (op : Byte) (addr : Addr) (data : Word) :
    opField (commandWord op addr data) = op := by
  apply BitVec.eq_of_getLsbD_eq
  intro i hi
  have h1 : ¬64 + i < 32 := by omega
  have h2 : ¬64 + i - 32 < 32 := by omega
  have h3 : 64 + i - 32 - 32 = i := by omega
  simp only [opField, commandWord, BitVec.getLsbD_extractLsb', BitVec.getLsbD_append, h1, h2, h3, hi,
    decide_true, Bool.true_and, if_false]

theorem addrField_commandWord (op : Byte) (addr : Addr) (data : Word) :
    addrField (commandWord op addr data) = addr := by
  apply BitVec.eq_of_getLsbD_eq
  intro i hi
  have h1 : ¬32 + i < 32 := by omega
  have h3 : 32 + i - 32 = i := by omega
  simp only [addrField, commandWord, BitVec.getLsbD_extractLsb', BitVec.getLsbD_append, h1, h3,
    hi, decide_true, Bool.true_and, if_false, if_true]

theorem dataField_commandWord (op : Byte) (addr : Addr) (data : Word) :
    dataField (commandWord op addr data) = data := by
  apply BitVec.eq_of_getLsbD_eq
  intro i hi
  simp only [dataField, commandWord, BitVec.getLsbD_extractLsb', BitVec.getLsbD_append,
    Nat.zero_add, hi, decide_true, Bool.true_and, if_true]

/-- A command word, taken apart and put together again. -/
theorem commandWord_fields (w : CommandWord) :
    commandWord (opField w) (addrField w) (dataField w) = w := by
  apply BitVec.eq_of_getLsbD_eq
  intro i hi
  simp only [commandWord, opField, addrField, dataField, BitVec.getLsbD_append,
    BitVec.getLsbD_extractLsb']
  split
  · simp [*]
  · split
    · have : 32 + (i - 32) = i := by omega
      simp [*]
    · have h8 : i - 32 - 32 < 8 := by omega
      have : 64 + (i - 32 - 32) = i := by omega
      simp [h8, this]

/-- All that a command word can decode to: one line per opcode of the map (rule R66). -/
theorem decodeCommand_cases {w : CommandWord} {i : Instr} (h : decodeCommand w = .ok i) :
    (opField w = 0x01 ∧ i = .read32 (addrField w)) ∨
      (opField w = 0x02 ∧ i = .write32 (addrField w) (dataField w)) ∨
      (opField w = 0x10 ∧ i = .step) ∨
      (opField w = 0x20 ∧ i = .start) ∨
      (opField w = 0x21 ∧ i = .stop) ∨
      (opField w = 0x22 ∧ i = .pause) ∨
      (opField w = 0x23 ∧ i = .resume) ∨
      (opField w = 0x24 ∧ i = .getRate) ∨
      (opField w = 0x25 ∧ i = .getIsRunning) ∨
      (opField w = 0x30 ∧ i = .render) ∨
      (opField w = 0x31 ∧ i = .setFbBase (addrField w)) ∨
      (opField w = 0x80 ∧ i = .loopIter) ∨
      (opField w = 0x81 ∧ i = .loopExit) := by
  unfold decodeCommand at h
  by_cases h0 : opField w = 0x01
  · rw [if_pos h0] at h
    exact .inl ⟨h0, (Except.ok.inj h).symm⟩
  rw [if_neg h0] at h
  by_cases h1 : opField w = 0x02
  · rw [if_pos h1] at h
    right
    exact .inl ⟨h1, (Except.ok.inj h).symm⟩
  rw [if_neg h1] at h
  by_cases h2 : opField w = 0x10
  · rw [if_pos h2] at h
    iterate 2 right
    exact .inl ⟨h2, (Except.ok.inj h).symm⟩
  rw [if_neg h2] at h
  by_cases h3 : opField w = 0x20
  · rw [if_pos h3] at h
    iterate 3 right
    exact .inl ⟨h3, (Except.ok.inj h).symm⟩
  rw [if_neg h3] at h
  by_cases h4 : opField w = 0x21
  · rw [if_pos h4] at h
    iterate 4 right
    exact .inl ⟨h4, (Except.ok.inj h).symm⟩
  rw [if_neg h4] at h
  by_cases h5 : opField w = 0x22
  · rw [if_pos h5] at h
    iterate 5 right
    exact .inl ⟨h5, (Except.ok.inj h).symm⟩
  rw [if_neg h5] at h
  by_cases h6 : opField w = 0x23
  · rw [if_pos h6] at h
    iterate 6 right
    exact .inl ⟨h6, (Except.ok.inj h).symm⟩
  rw [if_neg h6] at h
  by_cases h7 : opField w = 0x24
  · rw [if_pos h7] at h
    iterate 7 right
    exact .inl ⟨h7, (Except.ok.inj h).symm⟩
  rw [if_neg h7] at h
  by_cases h8 : opField w = 0x25
  · rw [if_pos h8] at h
    iterate 8 right
    exact .inl ⟨h8, (Except.ok.inj h).symm⟩
  rw [if_neg h8] at h
  by_cases h9 : opField w = 0x30
  · rw [if_pos h9] at h
    iterate 9 right
    exact .inl ⟨h9, (Except.ok.inj h).symm⟩
  rw [if_neg h9] at h
  by_cases h10 : opField w = 0x31
  · rw [if_pos h10] at h
    iterate 10 right
    exact .inl ⟨h10, (Except.ok.inj h).symm⟩
  rw [if_neg h10] at h
  by_cases h11 : opField w = 0x80
  · rw [if_pos h11] at h
    iterate 11 right
    exact .inl ⟨h11, (Except.ok.inj h).symm⟩
  rw [if_neg h11] at h
  by_cases h12 : opField w = 0x81
  · rw [if_pos h12] at h
    iterate 12 right
    exact ⟨h12, (Except.ok.inj h).symm⟩
  rw [if_neg h12] at h
  cases h

end Sys2Proof
end

