-- ==== Sys2Proof/Laws/State.lean ====
section
/-! SUPPORT. One lemma per field per update: what each shared operation leaves unchanged, and the
fields it writes. -/

namespace Sys2Proof.Machine

/-! ### State.respond -/

@[simp] theorem State.respond_bus (s : State) (a : Agent) (st : Status) (v : Value) :
    (s.respond a st v).bus = s.bus := rfl
@[simp] theorem State.respond_cpu (s : State) (a : Agent) (st : Status) (v : Value) :
    (s.respond a st v).cpu = s.cpu := rfl
@[simp] theorem State.respond_video (s : State) (a : Agent) (st : Status) (v : Value) :
    (s.respond a st v).video = s.video := rfl
@[simp] theorem State.respond_sched (s : State) (a : Agent) (st : Status) (v : Value) :
    (s.respond a st v).sched = s.sched := rfl
@[simp] theorem State.respond_session (s : State) (a : Agent) (st : Status) (v : Value) :
    (s.respond a st v).session = s.session := rfl
@[simp] theorem State.respond_sink (s : State) (a : Agent) (st : Status) (v : Value) :
    (s.respond a st v).sink = s.sink := rfl
@[simp] theorem State.respond_host (s : State) (a : Agent) (st : Status) (v : Value) :
    (s.respond a st v).host = s.host := rfl
@[simp] theorem State.respond_refresh (s : State) (a : Agent) (st : Status) (v : Value) :
    (s.respond a st v).refresh = s.refresh := rfl
@[simp] theorem State.respond_issuer (s : State) (a : Agent) (st : Status) (v : Value) :
    (s.respond a st v).issuer = s.issuer := rfl
@[simp] theorem State.respond_schedule (s : State) (a : Agent) (st : Status) (v : Value) :
    (s.respond a st v).schedule = s.schedule := rfl
@[simp] theorem State.respond_clock (s : State) (a : Agent) (st : Status) (v : Value) :
    (s.respond a st v).clock = s.clock := rfl
@[simp] theorem State.respond_unscheduled (s : State) (a : Agent) (st : Status) (v : Value) :
    (s.respond a st v).unscheduled = s.unscheduled := rfl

/-! ### State.done -/

@[simp] theorem State.done_bus (s : State) (v : Value) :
    (s.done v).bus = s.bus := rfl
@[simp] theorem State.done_cpu (s : State) (v : Value) :
    (s.done v).cpu = s.cpu := rfl
@[simp] theorem State.done_video (s : State) (v : Value) :
    (s.done v).video = s.video := rfl
@[simp] theorem State.done_sched (s : State) (v : Value) :
    (s.done v).sched = s.sched := rfl
@[simp] theorem State.done_session (s : State) (v : Value) :
    (s.done v).session = s.session := rfl
@[simp] theorem State.done_sink (s : State) (v : Value) :
    (s.done v).sink = s.sink := rfl
@[simp] theorem State.done_host (s : State) (v : Value) :
    (s.done v).host = s.host := rfl
@[simp] theorem State.done_refresh (s : State) (v : Value) :
    (s.done v).refresh = s.refresh := rfl
@[simp] theorem State.done_issuer (s : State) (v : Value) :
    (s.done v).issuer = s.issuer := rfl
@[simp] theorem State.done_schedule (s : State) (v : Value) :
    (s.done v).schedule = s.schedule := rfl
@[simp] theorem State.done_clock (s : State) (v : Value) :
    (s.done v).clock = s.clock := rfl
@[simp] theorem State.done_unscheduled (s : State) (v : Value) :
    (s.done v).unscheduled = s.unscheduled := rfl

/-! ### State.stepDone -/

@[simp] theorem State.stepDone_bus (s : State) (a : Agent) (r : StepResult) :
    (s.stepDone a r).bus = s.bus := rfl
@[simp] theorem State.stepDone_cpu (s : State) (a : Agent) (r : StepResult) :
    (s.stepDone a r).cpu = s.cpu := rfl
@[simp] theorem State.stepDone_video (s : State) (a : Agent) (r : StepResult) :
    (s.stepDone a r).video = s.video := rfl
@[simp] theorem State.stepDone_sched (s : State) (a : Agent) (r : StepResult) :
    (s.stepDone a r).sched = s.sched := rfl
@[simp] theorem State.stepDone_session (s : State) (a : Agent) (r : StepResult) :
    (s.stepDone a r).session = s.session := rfl
@[simp] theorem State.stepDone_sink (s : State) (a : Agent) (r : StepResult) :
    (s.stepDone a r).sink = s.sink := rfl
@[simp] theorem State.stepDone_host (s : State) (a : Agent) (r : StepResult) :
    (s.stepDone a r).host = s.host := rfl
@[simp] theorem State.stepDone_refresh (s : State) (a : Agent) (r : StepResult) :
    (s.stepDone a r).refresh = s.refresh := rfl
@[simp] theorem State.stepDone_issuer (s : State) (a : Agent) (r : StepResult) :
    (s.stepDone a r).issuer = s.issuer := rfl
@[simp] theorem State.stepDone_schedule (s : State) (a : Agent) (r : StepResult) :
    (s.stepDone a r).schedule = s.schedule := rfl
@[simp] theorem State.stepDone_clock (s : State) (a : Agent) (r : StepResult) :
    (s.stepDone a r).clock = s.clock := rfl
@[simp] theorem State.stepDone_unscheduled (s : State) (a : Agent) (r : StepResult) :
    (s.stepDone a r).unscheduled = s.unscheduled := rfl

/-! ### refuseCommand -/

@[simp] theorem refuseCommand_bus (s : State) (a : Agent) :
    (refuseCommand a s).bus = s.bus := rfl
@[simp] theorem refuseCommand_cpu (s : State) (a : Agent) :
    (refuseCommand a s).cpu = s.cpu := rfl
@[simp] theorem refuseCommand_video (s : State) (a : Agent) :
    (refuseCommand a s).video = s.video := rfl
@[simp] theorem refuseCommand_sched (s : State) (a : Agent) :
    (refuseCommand a s).sched = s.sched := rfl
@[simp] theorem refuseCommand_session (s : State) (a : Agent) :
    (refuseCommand a s).session = s.session := rfl
@[simp] theorem refuseCommand_sink (s : State) (a : Agent) :
    (refuseCommand a s).sink = s.sink := rfl
@[simp] theorem refuseCommand_host (s : State) (a : Agent) :
    (refuseCommand a s).host = s.host := rfl
@[simp] theorem refuseCommand_refresh (s : State) (a : Agent) :
    (refuseCommand a s).refresh = s.refresh := rfl
@[simp] theorem refuseCommand_issuer (s : State) (a : Agent) :
    (refuseCommand a s).issuer = s.issuer := rfl
@[simp] theorem refuseCommand_schedule (s : State) (a : Agent) :
    (refuseCommand a s).schedule = s.schedule := rfl
@[simp] theorem refuseCommand_clock (s : State) (a : Agent) :
    (refuseCommand a s).clock = s.clock := rfl
@[simp] theorem refuseCommand_unscheduled (s : State) (a : Agent) :
    (refuseCommand a s).unscheduled = s.unscheduled := rfl

/-! ### haltEntry -/

@[simp] theorem haltEntry_bus (s : State) (info : List Word) :
    (haltEntry info s).bus = s.bus := rfl
@[simp] theorem haltEntry_video (s : State) (info : List Word) :
    (haltEntry info s).video = s.video := rfl
@[simp] theorem haltEntry_sched (s : State) (info : List Word) :
    (haltEntry info s).sched = s.sched := rfl
@[simp] theorem haltEntry_session (s : State) (info : List Word) :
    (haltEntry info s).session = s.session := rfl
@[simp] theorem haltEntry_sink (s : State) (info : List Word) :
    (haltEntry info s).sink = s.sink := rfl
@[simp] theorem haltEntry_host (s : State) (info : List Word) :
    (haltEntry info s).host = s.host := rfl
@[simp] theorem haltEntry_refresh (s : State) (info : List Word) :
    (haltEntry info s).refresh = s.refresh := rfl
@[simp] theorem haltEntry_issuer (s : State) (info : List Word) :
    (haltEntry info s).issuer = s.issuer := rfl
@[simp] theorem haltEntry_responses (s : State) (info : List Word) :
    (haltEntry info s).responses = s.responses := rfl
@[simp] theorem haltEntry_schedule (s : State) (info : List Word) :
    (haltEntry info s).schedule = s.schedule := rfl
@[simp] theorem haltEntry_clock (s : State) (info : List Word) :
    (haltEntry info s).clock = s.clock := rfl
@[simp] theorem haltEntry_unscheduled (s : State) (info : List Word) :
    (haltEntry info s).unscheduled = s.unscheduled := rfl

/-! ### commitUnit -/

@[simp] theorem commitUnit_bus (s : State) (x : Regs) (pc : Word) :
    (commitUnit x pc s).bus = s.bus := rfl
@[simp] theorem commitUnit_video (s : State) (x : Regs) (pc : Word) :
    (commitUnit x pc s).video = s.video := rfl
@[simp] theorem commitUnit_sched (s : State) (x : Regs) (pc : Word) :
    (commitUnit x pc s).sched = s.sched := rfl
@[simp] theorem commitUnit_session (s : State) (x : Regs) (pc : Word) :
    (commitUnit x pc s).session = s.session := rfl
@[simp] theorem commitUnit_sink (s : State) (x : Regs) (pc : Word) :
    (commitUnit x pc s).sink = s.sink := rfl
@[simp] theorem commitUnit_host (s : State) (x : Regs) (pc : Word) :
    (commitUnit x pc s).host = s.host := rfl
@[simp] theorem commitUnit_refresh (s : State) (x : Regs) (pc : Word) :
    (commitUnit x pc s).refresh = s.refresh := rfl
@[simp] theorem commitUnit_issuer (s : State) (x : Regs) (pc : Word) :
    (commitUnit x pc s).issuer = s.issuer := rfl
@[simp] theorem commitUnit_responses (s : State) (x : Regs) (pc : Word) :
    (commitUnit x pc s).responses = s.responses := rfl
@[simp] theorem commitUnit_schedule (s : State) (x : Regs) (pc : Word) :
    (commitUnit x pc s).schedule = s.schedule := rfl
@[simp] theorem commitUnit_clock (s : State) (x : Regs) (pc : Word) :
    (commitUnit x pc s).clock = s.clock := rfl
@[simp] theorem commitUnit_unscheduled (s : State) (x : Regs) (pc : Word) :
    (commitUnit x pc s).unscheduled = s.unscheduled := rfl

/-! ### spawnLoop -/

@[simp] theorem spawnLoop_bus (s : State) :
    (spawnLoop s).bus = s.bus := rfl
@[simp] theorem spawnLoop_video (s : State) :
    (spawnLoop s).video = s.video := rfl
@[simp] theorem spawnLoop_session (s : State) :
    (spawnLoop s).session = s.session := rfl
@[simp] theorem spawnLoop_sink (s : State) :
    (spawnLoop s).sink = s.sink := rfl
@[simp] theorem spawnLoop_host (s : State) :
    (spawnLoop s).host = s.host := rfl
@[simp] theorem spawnLoop_refresh (s : State) :
    (spawnLoop s).refresh = s.refresh := rfl
@[simp] theorem spawnLoop_issuer (s : State) :
    (spawnLoop s).issuer = s.issuer := rfl
@[simp] theorem spawnLoop_responses (s : State) :
    (spawnLoop s).responses = s.responses := rfl
@[simp] theorem spawnLoop_schedule (s : State) :
    (spawnLoop s).schedule = s.schedule := rfl
@[simp] theorem spawnLoop_clock (s : State) :
    (spawnLoop s).clock = s.clock := rfl
@[simp] theorem spawnLoop_unscheduled (s : State) :
    (spawnLoop s).unscheduled = s.unscheduled := rfl

/-! ### stopSignal -/

@[simp] theorem stopSignal_bus (s : State) :
    (stopSignal s).bus = s.bus := rfl
@[simp] theorem stopSignal_video (s : State) :
    (stopSignal s).video = s.video := rfl
@[simp] theorem stopSignal_session (s : State) :
    (stopSignal s).session = s.session := rfl
@[simp] theorem stopSignal_sink (s : State) :
    (stopSignal s).sink = s.sink := rfl
@[simp] theorem stopSignal_host (s : State) :
    (stopSignal s).host = s.host := rfl
@[simp] theorem stopSignal_refresh (s : State) :
    (stopSignal s).refresh = s.refresh := rfl
@[simp] theorem stopSignal_issuer (s : State) :
    (stopSignal s).issuer = s.issuer := rfl
@[simp] theorem stopSignal_responses (s : State) :
    (stopSignal s).responses = s.responses := rfl
@[simp] theorem stopSignal_schedule (s : State) :
    (stopSignal s).schedule = s.schedule := rfl
@[simp] theorem stopSignal_clock (s : State) :
    (stopSignal s).clock = s.clock := rfl
@[simp] theorem stopSignal_unscheduled (s : State) :
    (stopSignal s).unscheduled = s.unscheduled := rfl

/-! ### State.setSched -/

@[simp] theorem State.setSched_bus (s : State) (st : SchedState) :
    (s.setSched st).bus = s.bus := rfl
@[simp] theorem State.setSched_cpu (s : State) (st : SchedState) :
    (s.setSched st).cpu = s.cpu := rfl
@[simp] theorem State.setSched_video (s : State) (st : SchedState) :
    (s.setSched st).video = s.video := rfl
@[simp] theorem State.setSched_session (s : State) (st : SchedState) :
    (s.setSched st).session = s.session := rfl
@[simp] theorem State.setSched_sink (s : State) (st : SchedState) :
    (s.setSched st).sink = s.sink := rfl
@[simp] theorem State.setSched_host (s : State) (st : SchedState) :
    (s.setSched st).host = s.host := rfl
@[simp] theorem State.setSched_refresh (s : State) (st : SchedState) :
    (s.setSched st).refresh = s.refresh := rfl
@[simp] theorem State.setSched_issuer (s : State) (st : SchedState) :
    (s.setSched st).issuer = s.issuer := rfl
@[simp] theorem State.setSched_responses (s : State) (st : SchedState) :
    (s.setSched st).responses = s.responses := rfl
@[simp] theorem State.setSched_schedule (s : State) (st : SchedState) :
    (s.setSched st).schedule = s.schedule := rfl
@[simp] theorem State.setSched_clock (s : State) (st : SchedState) :
    (s.setSched st).clock = s.clock := rfl
@[simp] theorem State.setSched_unscheduled (s : State) (st : SchedState) :
    (s.setSched st).unscheduled = s.unscheduled := rfl

/-! ### State.setLoop -/

@[simp] theorem State.setLoop_bus (s : State) (act : LoopActivity) :
    (s.setLoop act).bus = s.bus := rfl
@[simp] theorem State.setLoop_cpu (s : State) (act : LoopActivity) :
    (s.setLoop act).cpu = s.cpu := rfl
@[simp] theorem State.setLoop_video (s : State) (act : LoopActivity) :
    (s.setLoop act).video = s.video := rfl
@[simp] theorem State.setLoop_session (s : State) (act : LoopActivity) :
    (s.setLoop act).session = s.session := rfl
@[simp] theorem State.setLoop_sink (s : State) (act : LoopActivity) :
    (s.setLoop act).sink = s.sink := rfl
@[simp] theorem State.setLoop_host (s : State) (act : LoopActivity) :
    (s.setLoop act).host = s.host := rfl
@[simp] theorem State.setLoop_refresh (s : State) (act : LoopActivity) :
    (s.setLoop act).refresh = s.refresh := rfl
@[simp] theorem State.setLoop_issuer (s : State) (act : LoopActivity) :
    (s.setLoop act).issuer = s.issuer := rfl
@[simp] theorem State.setLoop_responses (s : State) (act : LoopActivity) :
    (s.setLoop act).responses = s.responses := rfl
@[simp] theorem State.setLoop_schedule (s : State) (act : LoopActivity) :
    (s.setLoop act).schedule = s.schedule := rfl
@[simp] theorem State.setLoop_clock (s : State) (act : LoopActivity) :
    (s.setLoop act).clock = s.clock := rfl
@[simp] theorem State.setLoop_unscheduled (s : State) (act : LoopActivity) :
    (s.setLoop act).unscheduled = s.unscheduled := rfl

/-! ### endLoop -/

@[simp] theorem endLoop_bus (s : State) :
    (endLoop s).bus = s.bus := rfl
@[simp] theorem endLoop_cpu (s : State) :
    (endLoop s).cpu = s.cpu := rfl
@[simp] theorem endLoop_video (s : State) :
    (endLoop s).video = s.video := rfl
@[simp] theorem endLoop_session (s : State) :
    (endLoop s).session = s.session := rfl
@[simp] theorem endLoop_sink (s : State) :
    (endLoop s).sink = s.sink := rfl
@[simp] theorem endLoop_host (s : State) :
    (endLoop s).host = s.host := rfl
@[simp] theorem endLoop_refresh (s : State) :
    (endLoop s).refresh = s.refresh := rfl
@[simp] theorem endLoop_issuer (s : State) :
    (endLoop s).issuer = s.issuer := rfl
@[simp] theorem endLoop_responses (s : State) :
    (endLoop s).responses = s.responses := rfl
@[simp] theorem endLoop_schedule (s : State) :
    (endLoop s).schedule = s.schedule := rfl
@[simp] theorem endLoop_clock (s : State) :
    (endLoop s).clock = s.clock := rfl
@[simp] theorem endLoop_unscheduled (s : State) :
    (endLoop s).unscheduled = s.unscheduled := rfl

/-! ### endWait -/

@[simp] theorem endWait_bus (s : State) :
    (endWait s).bus = s.bus := by
  unfold endWait; split <;> rfl
@[simp] theorem endWait_cpu (s : State) :
    (endWait s).cpu = s.cpu := by
  unfold endWait; split <;> rfl
@[simp] theorem endWait_video (s : State) :
    (endWait s).video = s.video := by
  unfold endWait; split <;> rfl
@[simp] theorem endWait_sched (s : State) :
    (endWait s).sched = s.sched := by
  unfold endWait; split <;> rfl
@[simp] theorem endWait_session (s : State) :
    (endWait s).session = s.session := by
  unfold endWait; split <;> rfl
@[simp] theorem endWait_sink (s : State) :
    (endWait s).sink = s.sink := by
  unfold endWait; split <;> rfl
@[simp] theorem endWait_host (s : State) :
    (endWait s).host = s.host := by
  unfold endWait; split <;> rfl
@[simp] theorem endWait_refresh (s : State) :
    (endWait s).refresh = s.refresh := by
  unfold endWait; split <;> rfl
@[simp] theorem endWait_issuer (s : State) :
    (endWait s).issuer = s.issuer := by
  unfold endWait; split <;> rfl
@[simp] theorem endWait_responses (s : State) :
    (endWait s).responses = s.responses := by
  unfold endWait; split <;> rfl
@[simp] theorem endWait_schedule (s : State) :
    (endWait s).schedule = s.schedule := by
  unfold endWait; split <;> rfl
@[simp] theorem endWait_unscheduled (s : State) :
    (endWait s).unscheduled = s.unscheduled := by
  unfold endWait; split <;> rfl

/-! ### countFrame -/

@[simp] theorem countFrame_bus (s : State) :
    (countFrame s).bus = s.bus := by
  unfold countFrame; split <;> [rfl; (dsimp only; split <;> rfl)]
@[simp] theorem countFrame_cpu (s : State) :
    (countFrame s).cpu = s.cpu := by
  unfold countFrame; split <;> [rfl; (dsimp only; split <;> rfl)]
@[simp] theorem countFrame_video (s : State) :
    (countFrame s).video = s.video := by
  unfold countFrame; split <;> [rfl; (dsimp only; split <;> rfl)]
@[simp] theorem countFrame_session (s : State) :
    (countFrame s).session = s.session := by
  unfold countFrame; split <;> [rfl; (dsimp only; split <;> rfl)]
@[simp] theorem countFrame_sink (s : State) :
    (countFrame s).sink = s.sink := by
  unfold countFrame; split <;> [rfl; (dsimp only; split <;> rfl)]
@[simp] theorem countFrame_host (s : State) :
    (countFrame s).host = s.host := by
  unfold countFrame; split <;> [rfl; (dsimp only; split <;> rfl)]
@[simp] theorem countFrame_refresh (s : State) :
    (countFrame s).refresh = s.refresh := by
  unfold countFrame; split <;> [rfl; (dsimp only; split <;> rfl)]
@[simp] theorem countFrame_issuer (s : State) :
    (countFrame s).issuer = s.issuer := by
  unfold countFrame; split <;> [rfl; (dsimp only; split <;> rfl)]
@[simp] theorem countFrame_responses (s : State) :
    (countFrame s).responses = s.responses := by
  unfold countFrame; split <;> [rfl; (dsimp only; split <;> rfl)]
@[simp] theorem countFrame_schedule (s : State) :
    (countFrame s).schedule = s.schedule := by
  unfold countFrame; split <;> [rfl; (dsimp only; split <;> rfl)]
@[simp] theorem countFrame_clock (s : State) :
    (countFrame s).clock = s.clock := by
  unfold countFrame; split <;> [rfl; (dsimp only; split <;> rfl)]
@[simp] theorem countFrame_unscheduled (s : State) :
    (countFrame s).unscheduled = s.unscheduled := by
  unfold countFrame; split <;> [rfl; (dsimp only; split <;> rfl)]

/-! ### renderByte -/

@[simp] theorem renderByte_bus (s : State) (base : Addr) (k : Nat) :
    (renderByte base k s).bus = s.bus := rfl
@[simp] theorem renderByte_cpu (s : State) (base : Addr) (k : Nat) :
    (renderByte base k s).cpu = s.cpu := rfl
@[simp] theorem renderByte_sched (s : State) (base : Addr) (k : Nat) :
    (renderByte base k s).sched = s.sched := rfl
@[simp] theorem renderByte_session (s : State) (base : Addr) (k : Nat) :
    (renderByte base k s).session = s.session := rfl
@[simp] theorem renderByte_sink (s : State) (base : Addr) (k : Nat) :
    (renderByte base k s).sink = s.sink := rfl
@[simp] theorem renderByte_host (s : State) (base : Addr) (k : Nat) :
    (renderByte base k s).host = s.host := rfl
@[simp] theorem renderByte_refresh (s : State) (base : Addr) (k : Nat) :
    (renderByte base k s).refresh = s.refresh := rfl
@[simp] theorem renderByte_issuer (s : State) (base : Addr) (k : Nat) :
    (renderByte base k s).issuer = s.issuer := rfl
@[simp] theorem renderByte_responses (s : State) (base : Addr) (k : Nat) :
    (renderByte base k s).responses = s.responses := rfl
@[simp] theorem renderByte_schedule (s : State) (base : Addr) (k : Nat) :
    (renderByte base k s).schedule = s.schedule := rfl
@[simp] theorem renderByte_clock (s : State) (base : Addr) (k : Nat) :
    (renderByte base k s).clock = s.clock := rfl
@[simp] theorem renderByte_unscheduled (s : State) (base : Addr) (k : Nat) :
    (renderByte base k s).unscheduled = s.unscheduled := rfl

/-! ### renderBytes -/

@[simp] theorem renderBytes_bus (s : State) :
    (renderBytes s).bus = s.bus := rfl
@[simp] theorem renderBytes_cpu (s : State) :
    (renderBytes s).cpu = s.cpu := rfl
@[simp] theorem renderBytes_sched (s : State) :
    (renderBytes s).sched = s.sched := rfl
@[simp] theorem renderBytes_session (s : State) :
    (renderBytes s).session = s.session := rfl
@[simp] theorem renderBytes_sink (s : State) :
    (renderBytes s).sink = s.sink := rfl
@[simp] theorem renderBytes_host (s : State) :
    (renderBytes s).host = s.host := rfl
@[simp] theorem renderBytes_refresh (s : State) :
    (renderBytes s).refresh = s.refresh := rfl
@[simp] theorem renderBytes_issuer (s : State) :
    (renderBytes s).issuer = s.issuer := rfl
@[simp] theorem renderBytes_responses (s : State) :
    (renderBytes s).responses = s.responses := rfl
@[simp] theorem renderBytes_schedule (s : State) :
    (renderBytes s).schedule = s.schedule := rfl
@[simp] theorem renderBytes_clock (s : State) :
    (renderBytes s).clock = s.clock := rfl
@[simp] theorem renderBytes_unscheduled (s : State) :
    (renderBytes s).unscheduled = s.unscheduled := rfl

/-! ### finishRender -/

@[simp] theorem finishRender_bus (s : State) :
    (finishRender s).bus = s.bus := rfl
@[simp] theorem finishRender_cpu (s : State) :
    (finishRender s).cpu = s.cpu := rfl
@[simp] theorem finishRender_sched (s : State) :
    (finishRender s).sched = s.sched := rfl
@[simp] theorem finishRender_session (s : State) :
    (finishRender s).session = s.session := rfl
@[simp] theorem finishRender_host (s : State) :
    (finishRender s).host = s.host := rfl
@[simp] theorem finishRender_refresh (s : State) :
    (finishRender s).refresh = s.refresh := rfl
@[simp] theorem finishRender_issuer (s : State) :
    (finishRender s).issuer = s.issuer := rfl
@[simp] theorem finishRender_responses (s : State) :
    (finishRender s).responses = s.responses := rfl
@[simp] theorem finishRender_schedule (s : State) :
    (finishRender s).schedule = s.schedule := rfl
@[simp] theorem finishRender_clock (s : State) :
    (finishRender s).clock = s.clock := rfl
@[simp] theorem finishRender_unscheduled (s : State) :
    (finishRender s).unscheduled = s.unscheduled := rfl

/-! ### renderAll -/

@[simp] theorem renderAll_bus (s : State) :
    (renderAll s).bus = s.bus := rfl
@[simp] theorem renderAll_cpu (s : State) :
    (renderAll s).cpu = s.cpu := rfl
@[simp] theorem renderAll_sched (s : State) :
    (renderAll s).sched = s.sched := rfl
@[simp] theorem renderAll_session (s : State) :
    (renderAll s).session = s.session := rfl
@[simp] theorem renderAll_host (s : State) :
    (renderAll s).host = s.host := rfl
@[simp] theorem renderAll_refresh (s : State) :
    (renderAll s).refresh = s.refresh := rfl
@[simp] theorem renderAll_issuer (s : State) :
    (renderAll s).issuer = s.issuer := rfl
@[simp] theorem renderAll_responses (s : State) :
    (renderAll s).responses = s.responses := rfl
@[simp] theorem renderAll_schedule (s : State) :
    (renderAll s).schedule = s.schedule := rfl
@[simp] theorem renderAll_clock (s : State) :
    (renderAll s).clock = s.clock := rfl
@[simp] theorem renderAll_unscheduled (s : State) :
    (renderAll s).unscheduled = s.unscheduled := rfl

/-! ### State.advanceClock -/

@[simp] theorem State.advanceClock_bus (s : State) (d : Rat) :
    (s.advanceClock d).bus = s.bus := rfl
@[simp] theorem State.advanceClock_cpu (s : State) (d : Rat) :
    (s.advanceClock d).cpu = s.cpu := rfl
@[simp] theorem State.advanceClock_video (s : State) (d : Rat) :
    (s.advanceClock d).video = s.video := rfl
@[simp] theorem State.advanceClock_sched (s : State) (d : Rat) :
    (s.advanceClock d).sched = s.sched := rfl
@[simp] theorem State.advanceClock_session (s : State) (d : Rat) :
    (s.advanceClock d).session = s.session := rfl
@[simp] theorem State.advanceClock_sink (s : State) (d : Rat) :
    (s.advanceClock d).sink = s.sink := rfl
@[simp] theorem State.advanceClock_host (s : State) (d : Rat) :
    (s.advanceClock d).host = s.host := rfl
@[simp] theorem State.advanceClock_refresh (s : State) (d : Rat) :
    (s.advanceClock d).refresh = s.refresh := rfl
@[simp] theorem State.advanceClock_issuer (s : State) (d : Rat) :
    (s.advanceClock d).issuer = s.issuer := rfl
@[simp] theorem State.advanceClock_responses (s : State) (d : Rat) :
    (s.advanceClock d).responses = s.responses := rfl
@[simp] theorem State.advanceClock_schedule (s : State) (d : Rat) :
    (s.advanceClock d).schedule = s.schedule := rfl
@[simp] theorem State.advanceClock_unscheduled (s : State) (d : Rat) :
    (s.advanceClock d).unscheduled = s.unscheduled := rfl

/-! ### State.setBus -/

@[simp] theorem State.setBus_cpu (s : State) (b : AddressSpace) :
    (s.setBus b).cpu = s.cpu := rfl
@[simp] theorem State.setBus_video (s : State) (b : AddressSpace) :
    (s.setBus b).video = s.video := rfl
@[simp] theorem State.setBus_sched (s : State) (b : AddressSpace) :
    (s.setBus b).sched = s.sched := rfl
@[simp] theorem State.setBus_session (s : State) (b : AddressSpace) :
    (s.setBus b).session = s.session := rfl
@[simp] theorem State.setBus_sink (s : State) (b : AddressSpace) :
    (s.setBus b).sink = s.sink := rfl
@[simp] theorem State.setBus_host (s : State) (b : AddressSpace) :
    (s.setBus b).host = s.host := rfl
@[simp] theorem State.setBus_refresh (s : State) (b : AddressSpace) :
    (s.setBus b).refresh = s.refresh := rfl
@[simp] theorem State.setBus_issuer (s : State) (b : AddressSpace) :
    (s.setBus b).issuer = s.issuer := rfl
@[simp] theorem State.setBus_responses (s : State) (b : AddressSpace) :
    (s.setBus b).responses = s.responses := rfl
@[simp] theorem State.setBus_schedule (s : State) (b : AddressSpace) :
    (s.setBus b).schedule = s.schedule := rfl
@[simp] theorem State.setBus_clock (s : State) (b : AddressSpace) :
    (s.setBus b).clock = s.clock := rfl
@[simp] theorem State.setBus_unscheduled (s : State) (b : AddressSpace) :
    (s.setBus b).unscheduled = s.unscheduled := rfl

/-! ### State.setHost -/

@[simp] theorem State.setHost_bus (s : State) (h : HostActivity) :
    (s.setHost h).bus = s.bus := rfl
@[simp] theorem State.setHost_cpu (s : State) (h : HostActivity) :
    (s.setHost h).cpu = s.cpu := rfl
@[simp] theorem State.setHost_video (s : State) (h : HostActivity) :
    (s.setHost h).video = s.video := rfl
@[simp] theorem State.setHost_sched (s : State) (h : HostActivity) :
    (s.setHost h).sched = s.sched := rfl
@[simp] theorem State.setHost_session (s : State) (h : HostActivity) :
    (s.setHost h).session = s.session := rfl
@[simp] theorem State.setHost_sink (s : State) (h : HostActivity) :
    (s.setHost h).sink = s.sink := rfl
@[simp] theorem State.setHost_refresh (s : State) (h : HostActivity) :
    (s.setHost h).refresh = s.refresh := rfl
@[simp] theorem State.setHost_issuer (s : State) (h : HostActivity) :
    (s.setHost h).issuer = s.issuer := rfl
@[simp] theorem State.setHost_responses (s : State) (h : HostActivity) :
    (s.setHost h).responses = s.responses := rfl
@[simp] theorem State.setHost_schedule (s : State) (h : HostActivity) :
    (s.setHost h).schedule = s.schedule := rfl
@[simp] theorem State.setHost_clock (s : State) (h : HostActivity) :
    (s.setHost h).clock = s.clock := rfl
@[simp] theorem State.setHost_unscheduled (s : State) (h : HostActivity) :
    (s.setHost h).unscheduled = s.unscheduled := rfl

/-! ### State.setRefresh -/

@[simp] theorem State.setRefresh_bus (s : State) (r : Option RenderProgress) :
    (s.setRefresh r).bus = s.bus := rfl
@[simp] theorem State.setRefresh_cpu (s : State) (r : Option RenderProgress) :
    (s.setRefresh r).cpu = s.cpu := rfl
@[simp] theorem State.setRefresh_video (s : State) (r : Option RenderProgress) :
    (s.setRefresh r).video = s.video := rfl
@[simp] theorem State.setRefresh_sched (s : State) (r : Option RenderProgress) :
    (s.setRefresh r).sched = s.sched := rfl
@[simp] theorem State.setRefresh_session (s : State) (r : Option RenderProgress) :
    (s.setRefresh r).session = s.session := rfl
@[simp] theorem State.setRefresh_sink (s : State) (r : Option RenderProgress) :
    (s.setRefresh r).sink = s.sink := rfl
@[simp] theorem State.setRefresh_host (s : State) (r : Option RenderProgress) :
    (s.setRefresh r).host = s.host := rfl
@[simp] theorem State.setRefresh_issuer (s : State) (r : Option RenderProgress) :
    (s.setRefresh r).issuer = s.issuer := rfl
@[simp] theorem State.setRefresh_responses (s : State) (r : Option RenderProgress) :
    (s.setRefresh r).responses = s.responses := rfl
@[simp] theorem State.setRefresh_schedule (s : State) (r : Option RenderProgress) :
    (s.setRefresh r).schedule = s.schedule := rfl
@[simp] theorem State.setRefresh_clock (s : State) (r : Option RenderProgress) :
    (s.setRefresh r).clock = s.clock := rfl
@[simp] theorem State.setRefresh_unscheduled (s : State) (r : Option RenderProgress) :
    (s.setRefresh r).unscheduled = s.unscheduled := rfl

/-! ### State.tick -/

@[simp] theorem State.tick_bus (s : State) (d : Rat) :
    (s.tick d).bus = s.bus := rfl
@[simp] theorem State.tick_cpu (s : State) (d : Rat) :
    (s.tick d).cpu = s.cpu := rfl
@[simp] theorem State.tick_video (s : State) (d : Rat) :
    (s.tick d).video = s.video := rfl
@[simp] theorem State.tick_sched (s : State) (d : Rat) :
    (s.tick d).sched = s.sched := rfl
@[simp] theorem State.tick_session (s : State) (d : Rat) :
    (s.tick d).session = s.session := rfl
@[simp] theorem State.tick_sink (s : State) (d : Rat) :
    (s.tick d).sink = s.sink := rfl
@[simp] theorem State.tick_host (s : State) (d : Rat) :
    (s.tick d).host = s.host := rfl
@[simp] theorem State.tick_refresh (s : State) (d : Rat) :
    (s.tick d).refresh = s.refresh := rfl
@[simp] theorem State.tick_issuer (s : State) (d : Rat) :
    (s.tick d).issuer = s.issuer := rfl
@[simp] theorem State.tick_responses (s : State) (d : Rat) :
    (s.tick d).responses = s.responses := rfl
@[simp] theorem State.tick_schedule (s : State) (d : Rat) :
    (s.tick d).schedule = s.schedule := rfl

/-! ### State.queue -/

@[simp] theorem State.queue_bus (s : State) (t : Turn) :
    (s.queue t).bus = s.bus := rfl
@[simp] theorem State.queue_cpu (s : State) (t : Turn) :
    (s.queue t).cpu = s.cpu := rfl
@[simp] theorem State.queue_video (s : State) (t : Turn) :
    (s.queue t).video = s.video := rfl
@[simp] theorem State.queue_sched (s : State) (t : Turn) :
    (s.queue t).sched = s.sched := rfl
@[simp] theorem State.queue_session (s : State) (t : Turn) :
    (s.queue t).session = s.session := rfl
@[simp] theorem State.queue_sink (s : State) (t : Turn) :
    (s.queue t).sink = s.sink := rfl
@[simp] theorem State.queue_host (s : State) (t : Turn) :
    (s.queue t).host = s.host := rfl
@[simp] theorem State.queue_refresh (s : State) (t : Turn) :
    (s.queue t).refresh = s.refresh := rfl
@[simp] theorem State.queue_issuer (s : State) (t : Turn) :
    (s.queue t).issuer = s.issuer := rfl
@[simp] theorem State.queue_responses (s : State) (t : Turn) :
    (s.queue t).responses = s.responses := rfl
@[simp] theorem State.queue_clock (s : State) (t : Turn) :
    (s.queue t).clock = s.clock := rfl
@[simp] theorem State.queue_unscheduled (s : State) (t : Turn) :
    (s.queue t).unscheduled = s.unscheduled := rfl

/-! ### State.fetchReady -/

@[simp] theorem State.fetchReady_video (s : State) (iw : Word) :
    (s.fetchReady iw).video = s.video := rfl
@[simp] theorem State.fetchReady_sched (s : State) (iw : Word) :
    (s.fetchReady iw).sched = s.sched := rfl
@[simp] theorem State.fetchReady_sink (s : State) (iw : Word) :
    (s.fetchReady iw).sink = s.sink := rfl
@[simp] theorem State.fetchReady_host (s : State) (iw : Word) :
    (s.fetchReady iw).host = s.host := rfl
@[simp] theorem State.fetchReady_refresh (s : State) (iw : Word) :
    (s.fetchReady iw).refresh = s.refresh := rfl
@[simp] theorem State.fetchReady_issuer (s : State) (iw : Word) :
    (s.fetchReady iw).issuer = s.issuer := rfl
@[simp] theorem State.fetchReady_responses (s : State) (iw : Word) :
    (s.fetchReady iw).responses = s.responses := rfl
@[simp] theorem State.fetchReady_schedule (s : State) (iw : Word) :
    (s.fetchReady iw).schedule = s.schedule := rfl
@[simp] theorem State.fetchReady_clock (s : State) (iw : Word) :
    (s.fetchReady iw).clock = s.clock := rfl
@[simp] theorem State.fetchReady_unscheduled (s : State) (iw : Word) :
    (s.fetchReady iw).unscheduled = s.unscheduled := rfl

/-! ### State.setBase -/

@[simp] theorem State.setBase_bus (s : State) (addr : Addr) :
    (s.setBase addr).bus = s.bus := rfl
@[simp] theorem State.setBase_cpu (s : State) (addr : Addr) :
    (s.setBase addr).cpu = s.cpu := rfl
@[simp] theorem State.setBase_sched (s : State) (addr : Addr) :
    (s.setBase addr).sched = s.sched := rfl
@[simp] theorem State.setBase_session (s : State) (addr : Addr) :
    (s.setBase addr).session = s.session := rfl
@[simp] theorem State.setBase_sink (s : State) (addr : Addr) :
    (s.setBase addr).sink = s.sink := rfl
@[simp] theorem State.setBase_host (s : State) (addr : Addr) :
    (s.setBase addr).host = s.host := rfl
@[simp] theorem State.setBase_refresh (s : State) (addr : Addr) :
    (s.setBase addr).refresh = s.refresh := rfl
@[simp] theorem State.setBase_issuer (s : State) (addr : Addr) :
    (s.setBase addr).issuer = s.issuer := rfl
@[simp] theorem State.setBase_responses (s : State) (addr : Addr) :
    (s.setBase addr).responses = s.responses := rfl
@[simp] theorem State.setBase_schedule (s : State) (addr : Addr) :
    (s.setBase addr).schedule = s.schedule := rfl
@[simp] theorem State.setBase_clock (s : State) (addr : Addr) :
    (s.setBase addr).clock = s.clock := rfl
@[simp] theorem State.setBase_unscheduled (s : State) (addr : Addr) :
    (s.setBase addr).unscheduled = s.unscheduled := rfl

/-! ### What the operations write -/

@[simp] theorem State.respond_responses (s : State) (a : Agent) (st : Status) (v : Value) :
    (s.respond a st v).responses = s.responses.deliver a { status := st, value := v } := rfl
@[simp] theorem State.done_responses (s : State) (v : Value) :
    (s.done v).responses = s.responses.deliver s.issuer { status := .ok, value := v } := rfl
@[simp] theorem State.stepDone_responses (s : State) (a : Agent) (r : StepResult) :
    (s.stepDone a r).responses =
      s.responses.deliver a { status := r.status, value := .count r.count } := rfl
@[simp] theorem haltEntry_cpu (s : State) (info : List Word) :
    (haltEntry info s).cpu = s.cpu.haltedWith info := rfl
@[simp] theorem commitUnit_cpu (s : State) (x : Regs) (pc : Word) :
    (commitUnit x pc s).cpu = { s.cpu with x := x, pc := pc } := rfl
@[simp] theorem spawnLoop_cpu (s : State) : (spawnLoop s).cpu = s.cpu.started := rfl
@[simp] theorem spawnLoop_sched (s : State) : (spawnLoop s).sched =
    { s.sched with
      schedState := .running
      ctx := some { frames := 0, t0 := s.clock, idleUntil := s.clock, activity := .idle } } := rfl
@[simp] theorem stopSignal_cpu (s : State) : (stopSignal s).cpu = s.cpu.stopped := rfl
@[simp] theorem stopSignal_sched (s : State) :
    (stopSignal s).sched = { s.sched with schedState := .stopped } := rfl
@[simp] theorem State.setSched_sched (s : State) (st : SchedState) :
    (s.setSched st).sched = { s.sched with schedState := st } := rfl
@[simp] theorem State.setLoop_sched (s : State) (act : LoopActivity) : (s.setLoop act).sched =
    { s.sched with ctx := s.sched.ctx.map fun c => { c with activity := act } } := rfl
@[simp] theorem endLoop_sched (s : State) : (endLoop s).sched = { s.sched with ctx := none } := rfl
@[simp] theorem finishRender_video (s : State) :
    (finishRender s).video = { s.video with dirty := false } := rfl
@[simp] theorem finishRender_sink (s : State) : (finishRender s).sink = some s.video.raster := rfl
@[simp] theorem State.advanceClock_clock (s : State) (d : Rat) :
    (s.advanceClock d).clock = s.clock + max 0 d := rfl

@[simp] theorem State.setBase_video (s : State) (addr : Addr) :
    (s.setBase addr).video = { s.video with frameBufferBase := addr } := rfl
@[simp] theorem State.setBus_bus (s : State) (b : AddressSpace) : (s.setBus b).bus = b := rfl
@[simp] theorem State.setHost_host (s : State) (h : HostActivity) : (s.setHost h).host = h := rfl
@[simp] theorem State.setRefresh_refresh (s : State) (r : Option RenderProgress) :
    (s.setRefresh r).refresh = r := rfl
@[simp] theorem State.tick_clock (s : State) (d : Rat) : (s.tick d).clock = s.clock + max 0 d := rfl
@[simp] theorem State.tick_unscheduled (s : State) (d : Rat) :
    (s.tick d).unscheduled = s.unscheduled.next := rfl
@[simp] theorem State.queue_schedule (s : State) (t : Turn) :
    (s.queue t).schedule = t :: s.schedule := rfl

end Sys2Proof.Machine
end

