-- ==== Sys2Proof/Laws/Exec.lean ====
section
/-! SUPPORT. Laws of the extension point: what a run can do to the bus, that a failing run writes
nothing, the unit of work, and the fetch. -/

namespace Sys2Proof.Machine

/-- What every bus write keeps, the writing part of a run keeps. -/
theorem ExecTail.run_keeps {P : AddressSpace → Prop}
    (hw : ∀ b a v, P b → P (b.write32 a v)) (t : ExecTail) :
    ∀ b, P b → P (ExecTail.run t b).1 := by
  induction t with
  | read a next ih => exact fun b hb => ih _ b hb
  | write a v next ih => exact fun b hb => ih _ (hw b a v hb)
  | done x pc extra => exact fun b hb => hb

/-- What every bus write keeps, a run keeps (rule R95 (a)). -/
theorem ExecProg.run_keeps {P : AddressSpace → Prop}
    (hw : ∀ b a v, P b → P (b.write32 a v)) (p : ExecProg) :
    ∀ b, P b → P (ExecProg.run p b).1 := by
  induction p with
  | read a next ih => exact fun b hb => ih _ b hb
  | decodeError info => exact fun b hb => hb
  | commit t => exact fun b hb => ExecTail.run_keeps hw t b hb

@[simp] theorem ExecProg.run_size (p : ExecProg) (b : AddressSpace) :
    (ExecProg.run p b).1.size = b.size :=
  ExecProg.run_keeps (P := fun c => c.size = b.size) (fun c a v h => by simp [h]) p b rfl

/-- The writing part never fails and counts at least 1 (rule R95 (e), (f)). -/
theorem ExecTail.run_outcome (t : ExecTail) :
    ∀ b, ∃ x pc n, (ExecTail.run t b).2 = .done x pc (n + 1) := by
  induction t with
  | read a next ih => exact fun b => ih _ b
  | write a v next ih => exact fun b => ih _
  | done x pc extra => exact fun b => ⟨x, pc, extra, rfl⟩

/-- A run ends in `Done` with a count of at least 1, or in `DecodeError` with the bus as it was
(rules R92, R95, R96). -/
theorem ExecProg.run_outcome (p : ExecProg) (b : AddressSpace) :
    (∃ x pc n, (ExecProg.run p b).2 = .done x pc (n + 1)) ∨
      (∃ info, (ExecProg.run p b).2 = .decodeError info ∧ (ExecProg.run p b).1 = b) := by
  induction p with
  | read a next ih => exact ih _
  | decodeError info => exact .inr ⟨info, rfl, rfl⟩
  | commit t => exact .inl (ExecTail.run_outcome t b)

/-- What a run's write leaves at `pc` is found from the word that was there. -/
theorem AddressSpace.fetchWordAfter_read32 {b c : AddressSpace} (h : c.size = b.size) (pc a : Addr)
    (v : Word) : b.fetchWordAfter pc (c.read32 pc) a v = (c.write32 a v).read32 pc :=
  AddressSpace.read32_write32_congr (by simpa using h.symm)
    (AddressSpace.read32_write32_same b pc _) a v

/-- The writing part whose fetch finds what the bus holds at `pc` is the writing part itself. -/
theorem ExecTail.run_fetched {b : AddressSpace} (pc : Word) (t : ExecTail) :
    ∀ c : AddressSpace, c.size = b.size →
      ExecTail.run (ExecTail.fetched t b pc (c.read32 (truncAddr pc))) c = ExecTail.run t c := by
  induction t with
  | read a next ih =>
    intro c hc
    simp only [ExecTail.fetched]
    split
    · next h =>
      subst h
      rfl
    · exact ih _ c hc
  | write a v next ih =>
    intro c hc
    simp only [ExecTail.fetched, ExecTail.run, AddressSpace.fetchWordAfter_read32 hc]
    exact ih _ (by simpa using hc)
  | done x pc' extra => exact fun c _ => rfl

/-- A run whose fetch finds what the bus holds at `pc` is the run itself (rule R99). -/
theorem ExecProg.run_fetched (p : ExecProg) (pc : Word) (b : AddressSpace) :
    ExecProg.run (ExecProg.fetched p b pc (b.read32 (truncAddr pc))) b = ExecProg.run p b := by
  induction p with
  | read a next ih =>
    simp only [ExecProg.fetched]
    split
    · next h =>
      subst h
      rfl
    · exact ih _
  | decodeError info => rfl
  | commit t => exact ExecTail.run_fetched pc t b rfl

/-- The two ends of a unit of work: the commit, or the halt entry with nothing else changed
(rules R90, R96, R162, R163). -/
theorem runUnit_cases (p : ExecProg) (s : State) :
    (∃ x pc n, runUnit p s = (commitUnit x pc { s with bus := (ExecProg.run p s.bus).1 }, .ok (n + 1))) ∨
      (∃ info, runUnit p s = (haltEntry info s, .decodeError)) := by
  unfold runUnit
  rcases ExecProg.run_outcome p s.bus with ⟨x, pc, n, h⟩ | ⟨info, h, hb⟩
  · left
    exact ⟨x, pc, n, by rw [h]; rfl⟩
  · right
    exact ⟨info, by rw [h, hb]; rfl⟩

/-- All that a `STEP` can do. -/
theorem stepUnit_cases (s : State) :
    (s.cpu.isRunning = false ∧ stepUnit s = (s, .ok 0)) ∨
      (s.cpu.isRunning = true ∧ ∃ x pc n, stepUnit s =
        (commitUnit x pc { s with bus := (ExecProg.run s.execProg s.bus).1 }, .ok (n + 1))) ∨
      (s.cpu.isRunning = true ∧ ∃ info, stepUnit s = (haltEntry info s, .decodeError)) := by
  unfold stepUnit
  cases h : s.cpu.isRunning with
  | false => exact .inl ⟨rfl, rfl⟩
  | true =>
    rcases runUnit_cases s.execProg s with h' | h'
    · exact .inr (.inl ⟨rfl, by simpa using h'⟩)
    · exact .inr (.inr ⟨rfl, by simpa using h'⟩)

/-- The frame of a `STEP`: only the processor and the bus change (rule R95 (b)). -/
theorem stepUnit_frame (s : State) : (stepUnit s).1 =
    { s with bus := (stepUnit s).1.bus, cpu := (stepUnit s).1.cpu } := by
  rcases stepUnit_cases s with ⟨_, h⟩ | ⟨_, x, pc, n, h⟩ | ⟨_, info, h⟩ <;> rw [h] <;> rfl

/-- The frame of a unit of work. -/
theorem runUnit_frame (p : ExecProg) (s : State) : (runUnit p s).1 =
    { s with bus := (runUnit p s).1.bus, cpu := (runUnit p s).1.cpu } := by
  rcases runUnit_cases p s with ⟨x, pc, n, h⟩ | ⟨info, h⟩ <;> rw [h] <;> rfl

/-- What every bus write keeps, a `STEP` keeps. -/
theorem stepUnit_keeps_bus {P : AddressSpace → Prop} (hw : ∀ b a v, P b → P (b.write32 a v))
    (s : State) (h : P s.bus) : P (stepUnit s).1.bus := by
  rcases stepUnit_cases s with ⟨_, e⟩ | ⟨_, x, pc, n, e⟩ | ⟨_, info, e⟩ <;> rw [e]
  · exact h
  · exact ExecProg.run_keeps hw _ _ h
  · exact h

end Sys2Proof.Machine
end

