-- ==== Sys2Proof/Laws/Events.lean ====
section
/-! SUPPORT. Laws of operations in flight: all that one event of an access, of a unit of work, of a
render or of an agent can do. -/

namespace Sys2Proof.Machine

theorem pickFrom_mem {α : Type} {l : List α} {n : Nat} {x : α} (h : pickFrom l n = some x) :
    x ∈ l := List.mem_of_getElem? h

theorem pickFrom_eq_none {α : Type} {l : List α} {n : Nat} : pickFrom l n = none ↔ l = [] := by
  unfold pickFrom
  rw [List.getElem?_eq_none_iff]
  constructor
  · intro h
    by_contra hne
    have := Nat.mod_lt n (List.length_pos_of_ne_nil hne)
    omega
  · rintro rfl
    simp

/-- A started write is of the kind the decoder chose (rules R41, R42). -/
theorem startWrite_routed (b : AddressSpace) (a : Addr) (v : Word) : (startWrite b a v).Routed b := by
  unfold startWrite
  split
  · next h => exact h
  · next h => exact Bool.eq_false_iff.mpr h

/-- A started read is of the kind the decoder chose (rules R41, R42). -/
theorem startRead_routed (b : AddressSpace) (a : Addr) : (startRead b a).Routed b := by
  unfold startRead
  split
  · next h => exact h
  · next h => exact Bool.eq_false_iff.mpr h

/-- All one event of an access can do to the bus: nothing, one byte of its word, or its cell. -/
theorem accessEvent_bus (acc : Access) (pick : Nat) (b : AddressSpace) :
    (accessEvent acc pick b).1 = b ∨
      (∃ addr v left, ∃ k : Fin 4, acc = .memWrite addr v left ∧
        (accessEvent acc pick b).1 = b.setByteAt (addr.toNat + k) (byteOf v k)) ∨
      (∃ addr v, acc = .cellWrite addr v ∧ (accessEvent acc pick b).1 = b.setCellAt addr.toNat v) := by
  cases acc with
  | memRead addr left got =>
    left
    simp only [accessEvent]
    split <;> rfl
  | memWrite addr v left =>
    simp only [accessEvent]
    split
    · exact .inl rfl
    · next k hk => exact .inr (.inl ⟨addr, v, left, k, rfl, rfl⟩)
  | cellRead addr => exact .inl rfl
  | cellWrite addr v => exact .inr (.inr ⟨addr, v, rfl, rfl⟩)

@[simp] theorem accessEvent_size (acc : Access) (pick : Nat) (b : AddressSpace) :
    (accessEvent acc pick b).1.size = b.size := by
  rcases accessEvent_bus acc pick b with h | ⟨_, _, _, _, _, h⟩ | ⟨_, _, _, h⟩ <;> rw [h] <;> rfl

theorem Access.Routed.of_size {acc : Access} {b c : AddressSpace} (h : acc.Routed b)
    (hs : c.size = b.size) : acc.Routed c := by
  have : ∀ a, c.toMemory a = b.toMemory a := fun a => by
    unfold AddressSpace.toMemory AddressSpace.bound
    rw [hs]
  cases acc <;> simpa [Access.Routed, this] using h

/-- An access that goes on keeps its address and kind. -/
theorem accessEvent_routed {acc acc' : Access} {pick : Nat} {b : AddressSpace} (h : acc.Routed b)
    (he : (accessEvent acc pick b).2 = .going acc') : acc'.Routed b := by
  cases acc with
  | memRead addr left got =>
    simp only [accessEvent] at he
    split at he
    · cases he
    · simp only [memReadStatus] at he
      split at he
      · cases he
      · cases he
        exact h
  | memWrite addr v left =>
    simp only [accessEvent] at he
    split at he
    · cases he
    · simp only [memWriteStatus] at he
      split at he
      · cases he
      · cases he
        exact h
  | cellRead addr => cases he
  | cellWrite addr v => cases he

/-- All that one event of a unit of work can do: an event of its access, the start of an access, the
commit, or the halt entry. -/
theorem unitEvent_cases (u : UnitProgress) (pick : Nat) (s : State) :
    (∃ acc, u.access = some acc ∧ unitEvent u pick s =
        (s.setBus (accessEvent acc pick s.bus).1,
          .going (u.accessed (accessEvent acc pick s.bus).2))) ∨
      (∃ a, u.access = none ∧
        unitEvent u pick s = (s, .going { u with access := some (startRead s.bus a) })) ∨
      (∃ a v, u.access = none ∧
        unitEvent u pick s = (s, .going { u with access := some (startWrite s.bus a v) })) ∨
      (∃ x pc n, u.access = none ∧ unitEvent u pick s = (commitUnit x pc s, .ended (.ok (n + 1)))) ∨
      (∃ info, u.access = none ∧ unitEvent u pick s = (haltEntry info s, .ended .decodeError)) := by
  unfold unitEvent
  cases hu : u.access with
  | some acc => exact .inl ⟨acc, rfl, rfl⟩
  | none =>
    right
    simp only
    generalize ExecProg.after s.execProg u.replies u.writes = p
    cases p with
    | read a next => exact .inl ⟨a, by simp, rfl⟩
    | decodeError info => exact .inr (.inr (.inr ⟨info, by simp, rfl⟩))
    | commit t =>
      cases t with
      | read a next => exact .inl ⟨a, by simp, rfl⟩
      | write a v next => exact .inr (.inl ⟨a, v, by simp, rfl⟩)
      | done x pc n => exact .inr (.inr (.inl ⟨x, pc, n, by simp, rfl⟩))

/-- The frame of an event of a unit of work: only the processor and the bus change. -/
theorem unitEvent_frame (u : UnitProgress) (pick : Nat) (s : State) : (unitEvent u pick s).1 =
    { s with bus := (unitEvent u pick s).1.bus, cpu := (unitEvent u pick s).1.cpu } := by
  rcases unitEvent_cases u pick s with ⟨_, _, h⟩ | ⟨_, _, h⟩ | ⟨_, _, _, h⟩ | ⟨_, _, _, _, h⟩ | ⟨_, _, h⟩ <;>
    rw [h] <;> rfl

/-- The frame of an event of a render: only the sink and the video unit change (rule R117). -/
theorem renderEvent_frame (r : RenderProgress) (pick : Nat) (s : State) : (renderEvent r pick s).1 =
    { s with sink := (renderEvent r pick s).1.sink, video := (renderEvent r pick s).1.video } := by
  cases r with
  | whole => rfl
  | reading base unread =>
    simp only [renderEvent]
    split <;> rfl

/-! ### Writes finished before a render under `FB_SYNC = rwlock` -/

@[simp] theorem AddressSpace.setBytes_size (b : AddressSpace) (addr : Addr) (v : Word)
    (left : List (Fin 4)) : (b.setBytes addr v left).size = b.size := by
  unfold AddressSpace.setBytes
  induction left generalizing b with
  | nil => rfl
  | cons k ks ih => exact ih _

@[simp] theorem AddressSpace.setBytes_reg (b : AddressSpace) (addr : Addr) (v : Word)
    (left : List (Fin 4)) : (b.setBytes addr v left).reg = b.reg := by
  unfold AddressSpace.setBytes
  induction left generalizing b with
  | nil => rfl
  | cons k ks ih => exact ih _

/-- The bytes `left` hold the word's bytes, and every other byte is as it was. -/
theorem AddressSpace.byteAt_setBytes (b : AddressSpace) (addr : Addr) (v : Word)
    (left : List (Fin 4)) (c : Nat) : (b.setBytes addr v left).byteAt c =
      if ∃ k ∈ left, c = addr.toNat + (k : Nat) then byteOf v (c - addr.toNat) else b.byteAt c := by
  induction left generalizing b with
  | nil => simp [AddressSpace.setBytes]
  | cons k ks ih =>
    have e : b.setBytes addr v (k :: ks) =
        (b.setByteAt (addr.toNat + k) (byteOf v k)).setBytes addr v ks := rfl
    rw [e, ih, AddressSpace.byteAt_setByteAt]
    by_cases hs : ∃ j ∈ ks, c = addr.toNat + (j : Nat)
    · rw [if_pos hs, if_pos (hs.imp fun j hj => ⟨List.mem_cons_of_mem _ hj.1, hj.2⟩)]
    · rw [if_neg hs]
      by_cases hc : c = addr.toNat + (k : Nat)
      · rw [if_pos hc, if_pos ⟨k, List.mem_cons_self, hc⟩, hc, Nat.add_sub_cancel_left]
      · rw [if_neg hc, if_neg]
        rintro ⟨j, hj, rfl⟩
        rcases List.mem_cons.mp hj with rfl | hj
        · exact hc rfl
        · exact hs ⟨j, hj, rfl⟩

theorem HostActivity.setAccess_self {h : HostActivity} {acc : Access}
    (ha : h.busAccess = some acc) : h.setAccess acc = h := by
  cases h with
  | access a =>
    cases ha
    rfl
  | stepping u =>
    obtain ⟨r, w, o⟩ := u
    cases ha
    rfl
  | idle => cases ha
  | joining => cases ha
  | rendering r => cases ha

theorem LoopActivity.setAccess_self {l : LoopActivity} {acc : Access}
    (ha : l.busAccess = some acc) : l.setAccess acc = l := by
  cases l with
  | stepping u =>
    obtain ⟨r, w, o⟩ := u
    cases ha
    rfl
  | idle => cases ha
  | sampled => cases ha
  | counting => cases ha

/-- All that finishing an access can do: nothing, or the bytes that a half done write has left. -/
theorem State.finishAccess_cases (s : State) (acc : Access) :
    s.finishAccess acc = (s.bus, acc) ∨
      ∃ addr v left, acc = .memWrite addr v left ∧
        s.finishAccess acc = (s.bus.setBytes addr v left, .memWrite addr v []) := by
  unfold State.finishAccess
  split
  · cases acc with
    | memWrite addr v left => exact .inr ⟨addr, v, left, rfl, rfl⟩
    | memRead addr left got => exact .inl rfl
    | cellRead addr => exact .inl rfl
    | cellWrite addr v => exact .inl rfl
  · exact .inl rfl

/-- All that finishing the host's write can do. -/
theorem State.finishHostWrite_cases (s : State) : s.finishHostWrite = s ∨
    ∃ addr v left, s.host.busAccess = some (.memWrite addr v left) ∧
      s.finishHostWrite = (s.setBus (s.bus.setBytes addr v left)).setHost
        (s.host.setAccess (.memWrite addr v [])) := by
  unfold State.finishHostWrite
  cases ha : s.host.busAccess with
  | none => exact .inl rfl
  | some acc =>
    simp only
    rcases s.finishAccess_cases acc with h | ⟨addr, v, left, rfl, h⟩ <;> rw [h]
    · left
      rw [HostActivity.setAccess_self ha]
      rfl
    · exact .inr ⟨addr, v, left, rfl, rfl⟩

/-- All that finishing the loop agent's write can do. -/
theorem State.finishLoopWrite_cases (s : State) : s.finishLoopWrite = s ∨
    ∃ c addr v left, s.sched.ctx = some c ∧ c.activity.busAccess = some (.memWrite addr v left) ∧
      s.finishLoopWrite = (s.setBus (s.bus.setBytes addr v left)).setLoop
        (c.activity.setAccess (.memWrite addr v [])) := by
  unfold State.finishLoopWrite
  cases hc : s.sched.ctx with
  | none => exact .inl rfl
  | some c =>
    simp only
    cases ha : c.activity.busAccess with
    | none => exact .inl rfl
    | some acc =>
      simp only
      rcases s.finishAccess_cases acc with h | ⟨addr, v, left, rfl, h⟩ <;> rw [h]
      · left
        rw [LoopActivity.setAccess_self ha]
        simp only [State.setLoop, State.setBus, hc, Option.map_some]
        rw [← hc]
      · exact .inr ⟨c, addr, v, left, rfl, ha, rfl⟩

/-- Without a half done write to the framebuffer nothing is finished. -/
theorem State.finishWrites_of_none {s : State} (h : s.writeHalfDone = false) : s.finishWrites = s := by
  simp [State.finishWrites, h]

/-- All that finishing the writes can do. -/
theorem State.finishWrites_cases (s : State) : s.finishWrites = s ∨
    (s.writeHalfDone = true ∧ s.finishWrites = s.finishHostWrite.finishLoopWrite) := by
  unfold State.finishWrites
  split
  · next h => exact .inr ⟨h, rfl⟩
  · exact .inl rfl

/-- The frame of finishing the writes: the bus, and the host's and the loop agent's activity. -/
theorem State.finishWrites_frame (s : State) : s.finishWrites =
    { s with
      bus := s.finishWrites.bus
      host := s.finishWrites.host
      sched := { s.sched with ctx := s.finishWrites.sched.ctx } } := by
  rcases s.finishWrites_cases with h | ⟨_, h⟩ <;> rw [h]
  rcases s.finishHostWrite_cases with h | ⟨_, _, _, _, h⟩ <;>
    rcases s.finishHostWrite.finishLoopWrite_cases with g | ⟨_, _, _, _, _, _, g⟩ <;>
    rw [g, h] <;> rfl

/-- Finishing the writes keeps the number of bytes and of contexts. -/
theorem State.finishWrites_size_live (s : State) :
    s.finishWrites.bus.size = s.bus.size ∧
      s.finishWrites.sched.ctxLive = s.sched.ctxLive := by
  rcases s.finishWrites_cases with h | ⟨_, h⟩ <;> rw [h]
  · exact ⟨rfl, rfl⟩
  rcases s.finishHostWrite_cases with h | ⟨_, _, _, _, h⟩ <;>
    rcases s.finishHostWrite.finishLoopWrite_cases with g | ⟨_, _, _, _, _, _, g⟩ <;>
    rw [g, h] <;> simp [ExecutionScheduler.ctxLive]

/-- The frame of what comes before an event of a render. -/
theorem State.readyFor_frame (s : State) (r : RenderProgress) : s.readyFor r =
    { s with
      bus := (s.readyFor r).bus
      host := (s.readyFor r).host
      sched := { s.sched with ctx := (s.readyFor r).sched.ctx } } := by
  cases r with
  | whole => exact s.finishWrites_frame
  | reading base unread => rfl

/-! ### Frames of the agents' events -/

/-- No event of an agent touches the turns to come or what the unscheduled turns count. -/
theorem runEvent_turns (a : Agent) (pick : Nat) (s : State) :
    (runEvent a pick s).schedule = s.schedule ∧
      (runEvent a pick s).unscheduled = s.unscheduled := by
  cases a with
  | host =>
    simp only [runEvent, hostEvent]
    split
    · exact ⟨rfl, rfl⟩
    · simp only [hostAccessed]
      split <;> exact ⟨rfl, rfl⟩
    · split <;> exact ⟨rfl, rfl⟩
    · simp only [hostStepped]
      rw [unitEvent_frame]
      split <;> exact ⟨rfl, rfl⟩
    · simp only [renderAnswer]
      rw [renderEvent_frame, State.readyFor_frame]
      split <;> exact ⟨rfl, rfl⟩
  | refresh =>
    simp only [runEvent, refreshEvent]
    split
    · exact ⟨rfl, rfl⟩
    · simp only [renderAnswer]
      rw [renderEvent_frame, State.readyFor_frame]
      split <;> exact ⟨rfl, rfl⟩
  | loop =>
    simp only [runEvent, loopEvent]
    split
    · exact ⟨rfl, rfl⟩
    · split
      · split <;> simp [beginIteration]
      · simp [beginLoopStep]
      · simp only [loopStepped]
        rw [unitEvent_frame]
        split <;> exact ⟨rfl, rfl⟩
      · simp

/-- The frame of an event of the host: the refresh agent's render, the clock and, but for the access of
an iteration that a render finishes, the scheduler stay. -/
theorem hostEvent_frame (pick : Nat) (s : State) :
    (hostEvent pick s).refresh = s.refresh ∧ (hostEvent pick s).clock = s.clock ∧
      (hostEvent pick s).sched = { s.sched with ctx := (hostEvent pick s).sched.ctx } := by
  unfold hostEvent
  split
  · exact ⟨rfl, rfl, rfl⟩
  · simp only [hostAccessed]
    split <;> exact ⟨rfl, rfl, rfl⟩
  · split <;> exact ⟨rfl, rfl, rfl⟩
  · simp only [hostStepped]
    rw [unitEvent_frame]
    split <;> exact ⟨rfl, rfl, rfl⟩
  · simp only [renderAnswer]
    rw [renderEvent_frame, State.readyFor_frame]
    split <;> exact ⟨rfl, rfl, rfl⟩

/-- The frame of an event of the refresh agent (rules R61, R117): beside the video unit, the sink, its
own render and its response only what finishing the writes before a render changes. -/
theorem refreshEvent_frame (pick : Nat) (s : State) : refreshEvent pick s =
    { s with
      bus := (refreshEvent pick s).bus
      host := (refreshEvent pick s).host
      sched := { s.sched with ctx := (refreshEvent pick s).sched.ctx }
      video := (refreshEvent pick s).video
      sink := (refreshEvent pick s).sink
      refresh := (refreshEvent pick s).refresh
      responses := (refreshEvent pick s).responses } := by
  unfold refreshEvent
  split
  · rfl
  · simp only [renderAnswer]
    rw [renderEvent_frame, State.readyFor_frame]
    split <;> rfl

/-- The bus, the host and the scheduler after an event of the refresh agent are those before it, or,
where its render is one event, those with the writes finished (rules R58, R61, R117). -/
theorem refreshEvent_writes (pick : Nat) (s : State) :
    ((refreshEvent pick s).bus = s.bus ∧ (refreshEvent pick s).host = s.host ∧
        (refreshEvent pick s).sched = s.sched) ∨
      (s.refresh = some .whole ∧ (refreshEvent pick s).bus = s.finishWrites.bus ∧
        (refreshEvent pick s).host = s.finishWrites.host ∧
        (refreshEvent pick s).sched = s.finishWrites.sched) := by
  unfold refreshEvent
  split
  · exact .inl ⟨rfl, rfl, rfl⟩
  · next r hr =>
    simp only [renderAnswer]
    rw [renderEvent_frame]
    cases r with
    | whole => split <;> exact .inr ⟨hr, rfl, rfl, rfl⟩
    | reading base unread => split <;> exact .inl ⟨rfl, rfl, rfl⟩

end Sys2Proof.Machine
end

