-- ==== Sys2Proof/Laws/PerInstr.lean ====
section
/-! SUPPORT. The rows of spec/opcode_table.json, and per instruction: its encoding is its row's. -/

namespace Sys2Proof.Laws.TableRow

/-- A row of spec/opcode_table.json: its mnemonic, its format, and its opcode byte (the byte its
72-bit mask selects, rule R66), none for the 32-bit row `INSN` whose mask is empty (rule R72). -/
structure Row where
  mnemonic : String
  format : Format
  opcode : Option Byte
deriving DecidableEq, Repr

/-- The fourteen rows, in the table's order. -/
def rows : List Row :=
  [⟨"READ32", .a, some 0x01⟩, ⟨"WRITE32", .ad, some 0x02⟩, ⟨"STEP", .n, some 0x10⟩,
    ⟨"START", .n, some 0x20⟩, ⟨"STOP", .n, some 0x21⟩, ⟨"PAUSE", .n, some 0x22⟩,
    ⟨"RESUME", .n, some 0x23⟩, ⟨"GET_RATE", .n, some 0x24⟩, ⟨"GET_ISRUNNING", .n, some 0x25⟩,
    ⟨"RENDER", .n, some 0x30⟩, ⟨"SET_FB_BASE", .a, some 0x31⟩, ⟨"LOOP_ITER", .n, some 0x80⟩,
    ⟨"LOOP_EXIT", .n, some 0x81⟩, ⟨"INSN", .i32, none⟩]

/-- No two rows share an opcode. -/
theorem rows_disjoint : rows.Pairwise fun r q => r.opcode ≠ q.opcode := by decide

/-- The opcode byte of a bit pattern, if it is a command word. -/
def opcodeOf (c : Code) : Option Byte :=
  match c with
  | .command w => some (opField w)
  | .instruction _ => none

/-- The row of an operation, read off its mnemonic, its format and its encoding, is in the table. -/
def Statement (i : Instr) : Prop :=
  (⟨i.mnemonic, i.format, opcodeOf (encode i)⟩ : Row) ∈ rows

/-- The row of an operation whose encoding has the opcode `op`. -/
theorem of_opcode {i : Instr} {op : Byte} {addr : Addr} {data : Word}
    (he : encode i = .command (commandWord op addr data))
    (hr : (⟨i.mnemonic, i.format, some op⟩ : Row) ∈ rows) : Statement i := by
  simpa only [Statement, he, opcodeOf, opField_commandWord] using hr

theorem read32 (addr : Addr) : Statement (.read32 addr) :=
  of_opcode rfl (by simp only [Instr.mnemonic, Instr.format]; decide)
theorem write32 (addr : Addr) (data : Word) : Statement (.write32 addr data) :=
  of_opcode rfl (by simp only [Instr.mnemonic, Instr.format]; decide)
theorem step : Statement .step := of_opcode rfl (by decide)
theorem start : Statement .start := of_opcode rfl (by decide)
theorem stop : Statement .stop := of_opcode rfl (by decide)
theorem pause : Statement .pause := of_opcode rfl (by decide)
theorem resume : Statement .resume := of_opcode rfl (by decide)
theorem getRate : Statement .getRate := of_opcode rfl (by decide)
theorem getIsRunning : Statement .getIsRunning := of_opcode rfl (by decide)
theorem render : Statement .render := of_opcode rfl (by decide)
theorem setFbBase (addr : Addr) : Statement (.setFbBase addr) :=
  of_opcode rfl (by simp only [Instr.mnemonic, Instr.format]; decide)
theorem loopIter : Statement .loopIter := of_opcode rfl (by decide)
theorem loopExit : Statement .loopExit := of_opcode rfl (by decide)
theorem insn (iw : Word) : Statement (.insn iw) := by
  simp only [Statement, Instr.mnemonic, Instr.format, encode, opcodeOf]
  decide

end Sys2Proof.Laws.TableRow
end

