-- ==== Sys2Proof/Laws/Turns.lean ====
section
/-! SUPPORT. All that a step can do: one inversion lemma for the meanings, for the turns, for the
events of each agent, and for the step. -/

namespace Sys2Proof.Machine

/-- All that a meaning can do: a response alone; a bus write; a unit of work; the start and the stop of
the loop; another lifecycle state; a render; another framebuffer base; an iteration; the exit. -/
theorem exec_cases {i : Instr} {s t : State} (h : exec i s = .next t) :
    (∃ v, t = s.done v) ∨
      (∃ addr data, i = .write32 addr data ∧
        t = (s.setBus (s.bus.write32 addr data)).done .absent) ∨
      ((i = .step ∨ ∃ iw, i = .insn iw) ∧ s.cpu.isRunning = false ∧ t = s.stepDone s.issuer (.ok 0)) ∨
      ((i = .step ∨ ∃ iw, i = .insn iw) ∧ s.cpu.isRunning = true ∧
        ∃ p, t = (runUnit p s).1.stepDone s.issuer (runUnit p s).2) ∨
      (i = .start ∧ (s.sched.schedState = .idle ∨ s.sched.schedState = .stopped) ∧
        t = (spawnLoop s).done .absent) ∨
      (i = .stop ∧ s.sched.running = true ∧ t = awaitLoop (stopSignal s)) ∨
      (i = .pause ∧ s.sched.schedState = .running ∧ t = (s.setSched .paused).done .absent) ∨
      (i = .resume ∧ s.sched.schedState = .paused ∧ t = (s.setSched .running).done .absent) ∨
      (i = .render ∧ t = (renderAll s).done .absent) ∨
      (∃ addr, i = .setFbBase addr ∧ t = (s.setBase addr).done .absent) ∨
      (i = .loopIter ∧ s.sched.ctxLive = true ∧ s.sched.running = true ∧
        t = (countFrame (iterationStep (endWait s))).respond .loop .ok .absent) ∨
      (i = .loopExit ∧ s.sched.ctxLive = true ∧ s.sched.running = false ∧
        t = (endLoop s).respond .loop .ok .absent) := by
  cases i with
  | read32 addr =>
    cases h
    exact .inl ⟨_, rfl⟩
  | write32 addr data =>
    cases h
    exact .inr (.inl ⟨addr, data, rfl, rfl⟩)
  | step =>
    cases h
    unfold stepUnit
    cases hr : s.cpu.isRunning with
    | false => exact .inr (.inr (.inl ⟨.inl rfl, rfl, rfl⟩))
    | true => exact .inr (.inr (.inr (.inl ⟨.inl rfl, rfl, s.execProg, rfl⟩)))
  | start =>
    simp only [exec, execStart] at h
    split at h <;> cases h
    · next hs => exact .inr (.inr (.inr (.inr (.inl ⟨rfl, .inl hs, rfl⟩))))
    · next hs => exact .inr (.inr (.inr (.inr (.inl ⟨rfl, .inr hs, rfl⟩))))
    · exact .inl ⟨_, rfl⟩
    · exact .inl ⟨_, rfl⟩
  | stop =>
    simp only [exec, execStop] at h
    split at h <;> cases h
    · next hs =>
      exact .inr (.inr (.inr (.inr (.inr (.inl
        ⟨rfl, by simp [ExecutionScheduler.running, hs], rfl⟩)))))
    · next hs =>
      exact .inr (.inr (.inr (.inr (.inr (.inl
        ⟨rfl, by simp [ExecutionScheduler.running, hs], rfl⟩)))))
    · exact .inl ⟨_, rfl⟩
    · exact .inl ⟨_, rfl⟩
  | pause =>
    simp only [exec, execPause] at h
    split at h <;> cases h
    · next hs => exact .inr (.inr (.inr (.inr (.inr (.inr (.inl ⟨rfl, hs, rfl⟩))))))
    all_goals exact .inl ⟨_, rfl⟩
  | resume =>
    simp only [exec, execResume] at h
    split at h <;> cases h
    · next hs => exact .inr (.inr (.inr (.inr (.inr (.inr (.inr (.inl ⟨rfl, hs, rfl⟩)))))))
    all_goals exact .inl ⟨_, rfl⟩
  | getRate =>
    cases h
    exact .inl ⟨_, rfl⟩
  | getIsRunning =>
    cases h
    exact .inl ⟨_, rfl⟩
  | render =>
    cases h
    exact .inr (.inr (.inr (.inr (.inr (.inr (.inr (.inr (.inl ⟨rfl, rfl⟩))))))))
  | setFbBase addr =>
    cases h
    exact .inr (.inr (.inr (.inr (.inr (.inr (.inr (.inr (.inr (.inl ⟨addr, rfl, rfl⟩)))))))))
  | loopIter =>
    simp only [exec, execLoopIter] at h
    split at h
    · next hc =>
      cases h
      rw [Bool.and_eq_true] at hc
      exact .inr (.inr (.inr (.inr (.inr (.inr (.inr (.inr (.inr (.inr (.inl
        ⟨rfl, hc.1, hc.2, rfl⟩))))))))))
    · cases h
  | loopExit =>
    simp only [exec, execLoopExit] at h
    split at h
    · next hc =>
      cases h
      rw [Bool.and_eq_true, Bool.not_eq_true'] at hc
      exact .inr (.inr (.inr (.inr (.inr (.inr (.inr (.inr (.inr (.inr (.inr
        ⟨rfl, hc.1, hc.2, rfl⟩))))))))))
    · cases h
  | insn iw =>
    simp only [exec, execInsn] at h
    split at h <;> cases h
    · next hr => exact .inr (.inr (.inr (.inl ⟨.inr ⟨iw, rfl⟩, hr, _, rfl⟩)))
    · next hr =>
      exact .inr (.inr (.inl ⟨.inr ⟨iw, rfl⟩, by simpa using hr, rfl⟩))

/-- Who moves when a round's patience is used up, and that the round then ends (rule R150). -/
theorem UnscheduledTurns.overdue_turn {n : UnscheduledTurns}
    (h : Config.freePatience n.rounds ≤ n.waited) : n.mover = owedAgent n.rounds ∧
      n.next = { taken := n.taken + 1, waited := 0, rounds := n.rounds + 1 } := by
  have ho : n.overdue = true := decide_eq_true h
  simp [UnscheduledTurns.mover, UnscheduledTurns.next, ho]

/-- Who moves before that, and that the wait is then one turn longer. -/
theorem UnscheduledTurns.patient_turn {n : UnscheduledTurns}
    (h : n.waited < Config.freePatience n.rounds) : n.mover = Config.freeAgent n.taken ∧
      n.next = { taken := n.taken + 1, waited := n.waited + 1, rounds := n.rounds } := by
  have ho : n.overdue = false := decide_eq_false (Nat.not_le.mpr h)
  simp [UnscheduledTurns.mover, UnscheduledTurns.next, ho]

theorem decodeFor_admitted {a : Agent} {w : CommandWord} {i : Instr} (h : decodeFor a w = some i) :
    decode (.command w) = .ok i ∧ i.admitted a = true := by
  unfold decodeFor at h
  split at h
  · next j hj =>
    split at h
    · next ha =>
      cases h
      exact ⟨hj, ha⟩
    · cases h
  · cases h

/-- All that an admitted operation can do when it runs whole. -/
theorem runInstr_cases {a : Agent} {i : Instr} {s t : State} (h : runInstr a i s = .next t) :
    (i = .render ∧ exec .render { s.finishWrites with issuer := a } = .next t) ∨
      (exec i { s with issuer := a } = .next t ∧ (i = .step → s.sched.ctxLive = false)) := by
  unfold runInstr at h
  split at h
  · cases h
  · next h1 =>
    split at h
    · next h2 =>
      subst h2
      exact .inl ⟨rfl, h⟩
    · exact .inr ⟨h, fun hi => by simpa [hi] using h1⟩

/-- All that the start of an operation can do. -/
theorem issueInstr_cases {a : Agent} {i : Instr} {s t : State} (h : issueInstr a i s = .next t) :
    (∃ acc, ((∃ addr, i = .read32 addr ∧ acc = startRead s.bus addr) ∨
        ∃ addr data, i = .write32 addr data ∧ acc = startWrite s.bus addr data) ∧
        t = s.setHost (.access acc)) ∨
      (i = .step ∧ s.sched.ctxLive = false ∧ s.cpu.isRunning = true ∧
        t = s.setHost (.stepping .fresh)) ∨
      (i = .render ∧ t = s.startRender a s.startOfRender) ∨
      (i = .loopIter ∧ s.sched.ctxLive = true ∧ s.sched.running = true ∧ t = beginIteration s) ∨
      runInstr a i s = .next t := by
  cases i with
  | read32 addr =>
    cases h
    exact .inl ⟨_, .inl ⟨addr, rfl, rfl⟩, rfl⟩
  | write32 addr data =>
    cases h
    exact .inl ⟨_, .inr ⟨addr, data, rfl, rfl⟩, rfl⟩
  | step =>
    simp only [issueInstr] at h
    split at h
    · cases h
    · next hl =>
      split at h
      · next hr =>
        cases h
        exact .inr (.inl ⟨rfl, by simpa using hl, hr, rfl⟩)
      · exact .inr (.inr (.inr (.inr h)))
  | render =>
    cases h
    exact .inr (.inr (.inl ⟨rfl, rfl⟩))
  | loopIter =>
    simp only [issueInstr] at h
    split at h
    · next hc =>
      cases h
      rw [Bool.and_eq_true] at hc
      exact .inr (.inr (.inr (.inl ⟨rfl, hc.1, hc.2, rfl⟩)))
    · cases h
  | start => exact .inr (.inr (.inr (.inr h)))
  | stop => exact .inr (.inr (.inr (.inr h)))
  | pause => exact .inr (.inr (.inr (.inr h)))
  | resume => exact .inr (.inr (.inr (.inr h)))
  | getRate => exact .inr (.inr (.inr (.inr h)))
  | getIsRunning => exact .inr (.inr (.inr (.inr h)))
  | setFbBase addr => exact .inr (.inr (.inr (.inr h)))
  | loopExit => exact .inr (.inr (.inr (.inr h)))
  | insn iw => exact .inr (.inr (.inr (.inr h)))

/-- All that the arrival of a command word can do. -/
theorem acceptCommand_cases {run : Agent → Instr → State → Host.Outcome State Fault Refusal}
    {a : Agent} {w : CommandWord} {s t : State} (h : acceptCommand run a w s = .next t) :
    s.busy a = false ∧
      ((decodeFor a w = none ∧ t = refuseCommand a s) ∨
        ∃ i, decodeFor a w = some i ∧ run a i s = .next t) := by
  unfold acceptCommand at h
  split at h
  · cases h
  · next hb =>
    refine ⟨by simpa using hb, ?_⟩
    split at h
    · next hd =>
      cases h
      exact .inl ⟨hd, rfl⟩
    · next i hd => exact .inr ⟨i, hd, h⟩

/-- All that one turn can do. -/
theorem runTurn_cases {u : Turn} {s t : State} (h : runTurn u s = .next t) :
    (∃ a w, (u = .command a w ∨ u = .issue a w) ∧ s.busy a = false ∧ decodeFor a w = none ∧
        t = refuseCommand a s) ∨
      (∃ a w i, (u = .command a w ∨ u = .issue a w) ∧ s.busy a = false ∧ decodeFor a w = some i ∧
        runInstr a i s = .next t) ∨
      (∃ a w i, u = .issue a w ∧ s.busy a = false ∧ decodeFor a w = some i ∧
        issueInstr a i s = .next t) ∨
      (∃ a pick, u = .event a pick ∧ t = runEvent a pick s) ∨
      (u = .toggle ∧ s.busy .host = false ∧ (t = s ∨ runInstr .host .pause s = .next t ∨
        runInstr .host .resume s = .next t)) ∨
      (∃ d, u = .sleep d ∧ t = s.advanceClock d) := by
  cases u with
  | command a w =>
    obtain ⟨hb, ⟨hd, rfl⟩ | ⟨i, hd, hi⟩⟩ := acceptCommand_cases h
    · exact .inl ⟨a, w, .inl rfl, hb, hd, rfl⟩
    · exact .inr (.inl ⟨a, w, i, .inl rfl, hb, hd, hi⟩)
  | issue a w =>
    obtain ⟨hb, ⟨hd, rfl⟩ | ⟨i, hd, hi⟩⟩ := acceptCommand_cases h
    · exact .inl ⟨a, w, .inr rfl, hb, hd, rfl⟩
    · exact .inr (.inr (.inl ⟨a, w, i, rfl, hb, hd, hi⟩))
  | event a pick =>
    cases h
    exact .inr (.inr (.inr (.inl ⟨a, pick, rfl, rfl⟩)))
  | toggle =>
    simp only [runTurn, runToggle] at h
    split at h
    · cases h
    · next hb =>
      refine .inr (.inr (.inr (.inr (.inl ⟨rfl, by simpa using hb, ?_⟩))))
      cases hs : s.sched.schedState <;> simp only [hs, expandToggle] at h
      · cases h
        exact .inl rfl
      · exact .inr (.inl h)
      · exact .inr (.inr h)
      · cases h
        exact .inl rfl
  | sleep d =>
    cases h
    exact .inr (.inr (.inr (.inr (.inr ⟨d, rfl, rfl⟩))))

/-- All that one step can do: the first turn, or an unscheduled one. -/
theorem step_cases {s t : State} (h : step s = .next t) :
    (s.schedule = [] ∧ t = s) ∨
      (s.schedule = [] ∧ ∃ pick d, t = runEvent s.unscheduled.mover pick (s.tick d)) ∨
      (∃ u rest, s.schedule = u :: rest ∧ runTurn u { s with schedule := rest } = .next t) := by
  unfold step at h
  split at h
  · next hs =>
    cases h
    unfold unscheduledTurn
    split
    · exact .inl ⟨hs, rfl⟩
    · exact .inr (.inl ⟨hs, _, _, rfl⟩)
  · next u rest hs => exact .inr (.inr ⟨u, rest, hs, h⟩)

/-- Steps after steps. -/
theorem runSteps_add {m n : Nat} {s t : State} (h : runSteps m s = .next t) :
    runSteps (m + n) s = runSteps n t := by
  induction m generalizing s with
  | zero =>
    cases h
    simp
  | succ m ih =>
    rw [Nat.succ_add]
    simp only [runSteps] at h ⊢
    split at h
    · exact ih h
    · cases h
    · cases h

end Sys2Proof.Machine
end

