-- ==== Sys2Proof/Tests/Slice0.lean ====
section
/-! SUPPORT. Tests: terms the checks refuse, words written out from the spec's encodings, single steps
from spec/95_test_vectors.md, and for each statement a witness that meets its hypotheses. -/

-- The kernel evaluates these theorems one after another: in parallel their threads take too much memory.
set_option Elab.async false

namespace Sys2Proof.Tests

open Sys2Proof.Machine

/-! ### The small session of spec/95_test_vectors.md: S = 64, W = H = 2 -/

/-- Its parameters: colour FF336699, LOOP_DELAY 1/4, RESET_VECTOR 10 (programs P3, P4). -/
def params (strategy : Strategy) : SessionParams where
  size := 64
  width := 2
  height := 2
  sinkWidth := 2
  sinkHeight := 2
  session :=
    { targetHz := 60
      resetVector := 0x10
      placeholderColor := 0xFF336699
      loopDelay := 1 / 4
      strategy := strategy
      fbSync := .none }

/-- Reset of the small session. -/
def small (strategy : Strategy) : State := State.initial (params strategy)

/-- The small session under `FB_SYNC = rwlock`. -/
def locked : State :=
  let s := small .placeholder
  { s with session := { s.session with fbSync := .rwlock } }

/-- With `isRunning` and no live loop, as V61 and V65 start. -/
def awake (strategy : Strategy) : State :=
  let s := small strategy
  { s with cpu := s.cpu.started }

/-- After `START`: `(Running, true, true)`. -/
def live (strategy : Strategy) : State := spawnLoop (small strategy)

/-- A live loop with the given lifecycle state, frames, window start and clock. -/
def timed (st : SchedState) (frames : Nat) (t0 now rate : Rat) : State :=
  let s := live .placeholder
  { s with
    clock := now
    sched :=
      { schedState := st
        measuredRate := rate
        ctx := some { frames := frames, t0 := t0, idleUntil := t0, activity := .idle } } }

/-- After a halt in `Running` (V94). -/
def haltedLive : State := haltEntry [0x10, 0] (live .null)

/-- A `STOP` has signalled and waits (V109). -/
def stopping : State := (stopSignal (live .placeholder)).setHost .joining

/-- The state with words written to the bus. -/
def wrote (s : State) (ws : List (Addr × Word)) : State := s.setBus (s.bus.writes ws)

/-- Half a `WRITE32 0, FF112233` of the host: its first two bytes are done (V130). -/
def halfWritten (s : State) : State :=
  (wrote s [(0, 0xFF110000)]).setHost (.access (.memWrite 0 0xFF112233 [2, 3]))

/-- A render of the refresh agent that has read nothing yet. -/
def rendering : State :=
  let s := wrote (small .placeholder) [(0, 0xFF123456)]
  s.setRefresh (some (.reading 0 (List.range s.video.fbSize)))

/-- Something of the next state, if there is one. -/
def after {α : Type} (o : Host.Outcome State Fault Refusal) (f : State → α) : Option α :=
  match o with
  | .next t => some (f t)
  | .fault _ => none
  | .refused _ => none

/-- Why a step was refused, if it was. -/
def refusal (o : Host.Outcome State Fault Refusal) : Option Refusal :=
  match o with
  | .next _ => none
  | .fault _ => none
  | .refused r => some r

/-- `(schedState, isRunning, ctxLive)`, the triple of V90 to V95. -/
def triple (s : State) : SchedState × Bool × Bool :=
  (s.sched.schedState, s.cpu.isRunning, s.sched.ctxLive)

/-- `(frames, t0, measuredRate)`, the columns of V100 to V108. -/
def timer (s : State) : Option (Nat × Rat × Rat) :=
  s.sched.ctx.map fun c => (c.frames, c.t0, s.sched.measuredRate)

/-- `n` bytes of main memory from an address. -/
def bytes (s : State) (a n : Nat) : List Byte := (List.range n).map fun i => s.bus.byteAt (a + i)

/-- The pixels last handed to the sink, as `RRGGBB`. -/
def shown (s : State) : Option (List (BitVec 24)) := s.sink.map fun px => px.map rgb24

/-- The last response of the host. -/
def answer (s : State) : Option (Status × Value) :=
  s.responses.host.map fun r => (r.status, r.value)

/-! ### Well-formedness: an ill-formed term for each check -/

theorem test_legal_parameters : (params .null).legal := by decide +kernel
theorem test_size_too_small : ¬{ params .null with size := 3 }.legal := by decide +kernel
theorem test_size_beyond_addresses : ¬{ params .null with size := 2 ^ 32 }.legal := by decide +kernel
theorem test_no_width : ¬{ params .null with width := 0, sinkWidth := 0 }.legal := by decide +kernel
theorem test_no_height : ¬{ params .null with height := 0, sinkHeight := 0 }.legal := by
  decide +kernel
theorem test_no_rate :
    ¬{ params .null with session := { (params .null).session with targetHz := 0 } }.legal := by
  decide +kernel
theorem test_no_delay :
    ¬{ params .null with session := { (params .null).session with loopDelay := 0 } }.legal := by
  decide +kernel
theorem test_sink_width : ¬{ params .null with sinkWidth := 3 }.legal := by decide +kernel
theorem test_sink_height : ¬{ params .null with sinkHeight := 3 }.legal := by decide +kernel
theorem test_construct_refuses : State.construct { params .null with size := 3 } = none := by
  decide +kernel
/-- Rule R69: host operations are not the refresh agent's, nor the loop agent's. -/
theorem test_refresh_may_not_start : Instr.admitted .refresh .start = false := by decide
theorem test_refresh_may_not_write : Instr.admitted .refresh (.write32 0 1) = false := by decide
theorem test_loop_may_not_render : Instr.admitted .loop .render = false := by decide
/-- Rules R68, R72: the loop's events and `INSN` are no commands. -/
theorem test_host_may_not_iterate : Instr.admitted .host .loopIter = false := by decide
theorem test_insn_is_no_command : Instr.admitted .host (.insn 0) = false := by decide

/-! ### Decoding: words written out from rules R62, R66, R72 (V1 to V20, P1, P4) -/

theorem test_decode_read32 : decode (.command 0x01007FFFFB00000000) = .ok (.read32 0x7FFFFB) := by
  decide
theorem test_decode_write32 :
    decode (.command 0x020000001012345678) = .ok (.write32 0x10 0x12345678) := by decide
theorem test_decode_step : decode (.command 0x10DEADBEEF12345678) = .ok .step := by decide
theorem test_decode_start : decode (.command 0x200000000000000000) = .ok .start := by decide
theorem test_decode_stop : decode (.command 0x210000000000000000) = .ok .stop := by decide
theorem test_decode_pause : decode (.command 0x220000000000000000) = .ok .pause := by decide
theorem test_decode_resume : decode (.command 0x230000000000000000) = .ok .resume := by decide
theorem test_decode_getRate : decode (.command 0x240000000000000000) = .ok .getRate := by decide
theorem test_decode_getIsRunning :
    decode (.command 0x250000000000000000) = .ok .getIsRunning := by decide
theorem test_decode_render : decode (.command 0x300000000000000000) = .ok .render := by decide
theorem test_decode_setFbBase :
    decode (.command 0x310010000000000000) = .ok (.setFbBase 0x100000) := by decide
theorem test_decode_loopIter : decode (.command 0x800000000000000000) = .ok .loopIter := by decide
theorem test_decode_loopExit : decode (.command 0x810000000000000000) = .ok .loopExit := by decide
theorem test_decode_insn : decode (.instruction 0xCAFEF00D) = .ok (.insn 0xCAFEF00D) := by decide
/-- V15 to V18. -/
theorem test_decode_reserved :
    [0x00, 0x03, 0x26, 0xFF].map (fun op => decode (.command (commandWord op 0 0))) =
      [0x00, 0x03, 0x26, 0xFF].map fun op => .error (.reservedOpcode op) := by decide
theorem test_decode_table_word :
    decodeTableWord 72 0x02007FFFFC00000001 = some (.write32 0x7FFFFC 1) ∧
      decodeTableWord 32 0x12345678 = some (.insn 0x12345678) ∧
      decodeTableWord 72 0x260000000000000000 = none := by decide

/-! ### Single operations -/

/-- V36 to V38. -/
theorem test_trunc32 :
    trunc32 0x1FFFFFFFF = 0xFFFFFFFF ∧ trunc32 (-1) = 0xFFFFFFFF ∧ trunc32 0x100000000 = 0 := by
  decide
/-- V33: a misaligned read is big-endian. -/
theorem test_read32_misaligned :
    after (exec (.read32 0x11) (wrote (small .null) [(0x10, 0x11223344)])) answer =
      some (some (.ok, .word 0x22334400)) := by decide +kernel
/-- V51: at `S - 4` the cell is read, not the byte of memory. -/
theorem test_read32_boundary :
    after (exec (.read32 0x3C) (wrote (small .null) [(0x3B, 0xA1B2C3D4)])) answer =
      some (some (.ok, .word 0)) := by decide +kernel
/-- V34: an overlapping write. -/
theorem test_write32_overlap :
    after (exec (.write32 0x12 0xAABBCCDD) (wrote (small .null) [(0x10, 0x11223344)]))
      (fun t => bytes t 0x10 6) = some [0x11, 0x22, 0xAA, 0xBB, 0xCC, 0xDD] := by decide +kernel
/-- V52: one word in one cell, memory untouched. -/
theorem test_write32_cell :
    after (exec (.write32 0x3C 9) (small .null)) (fun t => (t.bus.mem, t.bus.reg)) =
      some ([], [(0x3C, 9)]) := by decide +kernel
/-- V61. -/
theorem test_step_placeholder :
    after (exec .step (awake .placeholder)) (fun t => (bytes t 0 17, answer t)) =
      some ([0xFF, 0x33, 0x66, 0x99, 0xFF, 0x33, 0x66, 0x99, 0xFF, 0x33, 0x66, 0x99, 0xFF, 0x33,
        0x66, 0x99, 0], some (.ok, .count 1)) := by decide +kernel
/-- V66: the halt entry. -/
theorem test_step_null :
    after (exec .step (wrote (awake .null) [(0x10, 0x12345678)]))
      (fun t => (t.cpu.haltInfo.info, t.cpu.halted && !t.cpu.isRunning, t.responses.host)) =
      some ([0x10, 0x12345678], true, some { status := .decodeError, value := .count 0 }) := by
  decide +kernel
/-- Rule R100: under `ExecNull` every word halts. -/
theorem test_insn_null :
    after (exec (.insn 0xCAFEF00D) (awake .null)) (fun t => (t.cpu.haltInfo, t.bus.mem)) =
      some ({ cause := .unsupportedInstruction, info := [0x10, 0xCAFEF00D] }, []) := by
  decide +kernel
/-- Rule R97: `ExecPlaceholder` fetches no word. -/
theorem test_insn_placeholder :
    after (exec (.insn 7) (awake .placeholder)) (fun t => (bytes t 12 4, answer t)) =
      some ([0xFF, 0x33, 0x66, 0x99], some (.ok, .count 1)) := by decide +kernel
/-- V90. -/
theorem test_start_idle :
    after (exec .start (small .null)) triple = some (.running, true, true) := by decide +kernel
/-- V95: `haltInfo` is kept. -/
theorem test_start_after_halt :
    after (exec .start (endLoop (stopSignal haltedLive)))
      (fun t => (triple t, t.cpu.halted, t.cpu.haltInfo.info)) =
      some ((.running, true, true), false, [0x10, 0]) := by decide +kernel
/-- V91: the signal phase; the context is still live. -/
theorem test_stop_running :
    after (exec .stop (live .null)) (fun t => (triple t, t.host, answer t)) =
      some ((.stopped, false, true), .joining, none) := by decide +kernel
/-- V90, T12. -/
theorem test_stop_idle :
    after (exec .stop (small .null)) (fun t => (triple t, answer t)) =
      some ((.idle, false, false), some (.ok, .absent)) := by decide +kernel
/-- V91. -/
theorem test_pause_running :
    after (exec .pause (live .null)) triple = some (.paused, true, true) := by decide +kernel
/-- T9. -/
theorem test_pause_idle :
    after (exec .pause (small .null)) triple = some (.idle, false, false) := by decide +kernel
/-- V92. -/
theorem test_resume_paused :
    after (exec .resume ((live .null).setSched .paused)) triple = some (.running, true, true) := by
  decide +kernel
/-- V93. -/
theorem test_resume_stopped :
    after (exec .resume (endLoop (stopSignal (live .null)))) triple =
      some (.stopped, false, false) := by decide +kernel
/-- P3, event 11. -/
theorem test_getRate :
    after (exec .getRate (timed .paused 0 1 1 4)) answer = some (some (.ok, .rate 4)) := by
  decide +kernel
/-- P4, event 5: a halt is visible while `schedState` is Running. -/
theorem test_getIsRunning_halted :
    after (exec .getIsRunning haltedLive) (fun t => (answer t, t.sched.schedState)) =
      some (some (.ok, .flag false), .running) := by decide +kernel
/-- V73: alpha dropped, row-major. -/
theorem test_render_order :
    after (exec .render (wrote (small .null)
      [(0, 0xFF000001), (4, 0xFF000002), (8, 0xFF000003), (12, 0x00FF0000)]))
      (fun t => (shown t, t.video.dirty)) =
      some (some [0x000001, 0x000002, 0x000003, 0xFF0000], false) := by decide +kernel
/-- P2, step 10: bytes from `S` on read 0, and register space is not seen. -/
theorem test_render_clamped :
    after (exec .render ((wrote (small .null) [(0x3B, 0xA1B2C3D4), (0x3C, 0xFFFFFFFF)]).setBase 0x38))
      shown = some (some [0x0000A1, 0xC3D400, 0, 0]) := by decide +kernel
/-- V79. -/
theorem test_setFbBase :
    after (exec (.setFbBase 0x20) (small .null)) (fun t => (t.video.frameBufferBase, t.video.dirty)) =
      some (0x20, true) := by decide +kernel
/-- V101. -/
theorem test_loopIter_full_window :
    after (exec .loopIter (timed .running 59 0 1 0)) (fun t => (timer t, bytes t 0 4)) =
      some (some (0, 1, 60), [0xFF, 0x33, 0x66, 0x99]) := by decide +kernel
/-- V106: a paused iteration counts and does not step. -/
theorem test_loopIter_paused :
    after (exec .loopIter (timed .paused 0 11 (45 / 4) 4)) (fun t => (timer t, t.bus.mem)) =
      some (some (1, 11, 4), []) := by decide +kernel
/-- V109. -/
theorem test_loopExit : after (exec .loopExit stopping) triple = some (.stopped, false, false) := by
  decide +kernel
/-- V130: a render between the byte events of a write shows a mixture. -/
theorem test_render_tears :
    after (exec .render (halfWritten (small .null))) shown = some (some [0x110000, 0, 0, 0]) := by
  decide +kernel
/-- V131: under `rwlock` the pixel is `#000000` or `#112233`, nothing else, and the render does not
wait (rule R194). -/
theorem test_render_whole :
    after (step ((halfWritten locked).queue (.command .refresh 0x300000000000000000)))
      (fun t => (shown t, bytes t 0 4)) =
      some (some [0x112233, 0, 0, 0], [0xFF, 0x11, 0x22, 0x33]) := by decide +kernel
/-- The write whose last bytes the render's turn let through then completes. -/
theorem test_write_completes_after_render :
    after (step ((halfWritten locked).finishWrites.queue (.event .host 0)))
      (fun t => (t.host, bytes t 0 4, answer t)) =
      some (.idle, [0xFF, 0x11, 0x22, 0x33], some (.ok, .absent)) := by decide +kernel
/-- Rules R71, R130. -/
theorem test_toggle :
    after (step ((live .null).queue .toggle)) triple = some (.paused, true, true) := by
  decide +kernel
/-- V16: a reserved command. -/
theorem test_reserved_command :
    after (step ((small .null).queue (.command .host 0x030000000000000000))) answer =
      some (some (.refused, .absent)) := by decide +kernel
theorem test_placed_word_runs :
    after (step (State.reset.withFetchWord 72 0x02007FFFFB11223344)) (fun t => bytes t 0x7FFFFB 4) =
      some [0x11, 0x22, 0x33, 0x44] := by decide +kernel

/-! ### Witnesses: for each statement with hypotheses, a state and operands that meet them all -/

/-- What `after` answers, as a next state. -/
theorem next_of_after {α : Type} {o : Host.Outcome State Fault Refusal} {f : State → α} {x : α}
    (h : after o f = some x) : ∃ t, o = .next t ∧ f t = x := by
  cases o with
  | next t => exact ⟨t, rfl, Option.some.inj h⟩
  | fault r => cases h
  | refused r => cases h

/-- The small session with one turn to take. -/
def due (t : Turn) : State := (small .null).queue t

/-- `EncodeOfDecodeIsCanonical`, `IgnoredFieldsDoNotMatter`: the same `READ32 4` with two data fields. -/
theorem witness_ignored_fields :
    decode (.command 0x01000000040BADF00D) = .ok (.read32 4) ∧
      canonicalWord (Instr.read32 4).format 0x010000000400000000 =
        canonicalWord (Instr.read32 4).format 0x01000000040BADF00D := by decide +kernel

/-- `ReservedCommandRefused`, for a command and for an issue. -/
theorem witness_reserved :
    (due (.command .host 0x260000000000000000)).schedule =
      [.command .host 0x260000000000000000] ∧
    (due (.issue .refresh 0x820000000000000000)).schedule =
      [.issue .refresh 0x820000000000000000] ∧
    (due (.command .host 0x260000000000000000)).busy .host = false ∧
    (due (.issue .refresh 0x820000000000000000)).busy .refresh = false ∧
    opField 0x260000000000000000 ∉
      ([0x01, 0x02, 0x10, 0x20, 0x21, 0x22, 0x23, 0x24, 0x25, 0x30, 0x31, 0x80, 0x81] :
        List Byte) ∧
    opField 0x820000000000000000 ∉
      ([0x01, 0x02, 0x10, 0x20, 0x21, 0x22, 0x23, 0x24, 0x25, 0x30, 0x31, 0x80, 0x81] :
        List Byte) := by decide +kernel

/-- `LoopEventsRefusedAtPort`, for both events. -/
theorem witness_loop_events_at_port :
    (due (.command .host 0x800000000000000000)).schedule =
      [.command .host 0x800000000000000000] ∧
    (due (.issue .refresh 0x810000000000000000)).schedule =
      [.issue .refresh 0x810000000000000000] ∧
    (due (.command .host 0x800000000000000000)).busy .host = false ∧
    (due (.issue .refresh 0x810000000000000000)).busy .refresh = false ∧
    opField 0x800000000000000000 = 0x80 ∧ opField 0x810000000000000000 = 0x81 := by decide +kernel

/-- `UnadmittedCommandRefused`: a `WRITE32` of the refresh agent. -/
theorem witness_unadmitted :
    (due (.command .refresh 0x020000000000000001)).schedule =
      [.command .refresh 0x020000000000000001] ∧
    (due (.command .refresh 0x020000000000000001)).busy .refresh = false ∧
    decode (.command 0x020000000000000001) = .ok (.write32 0 1) ∧
    (Instr.write32 0 1).admitted .refresh = false := by decide +kernel

/-- `StepRunsDecodedCommand`: a `STEP` without a context, and a render with no write half done. -/
theorem witness_decoded_command :
    (due (.command .host stepWord)).schedule = [.command .host stepWord] ∧
    (due (.command .host stepWord)).busy .host = false ∧
    decode (.command stepWord) = .ok .step ∧ Instr.step.admitted .host = true ∧
    (due (.command .host stepWord)).sched.ctxLive = false ∧
    decode (.command 0x300000000000000000) = .ok .render ∧
    Instr.render.admitted .refresh = true ∧
    (due (.command .refresh 0x300000000000000000)).writeHalfDone = false := by decide +kernel

/-- The loop agent has half a `WRITE32` of its `STEP` in flight (V131). -/
def loopWriting (s : State) : State :=
  s.setLoop (.stepping { replies := [], writes := 0, access := some (.memWrite 0 0xFF112233 [2, 3]) })

/-- `StepRunsDecodedCommand`, issued words: an access on either side of `S - 4`, a running `STEP`, a
render of either agent without and with the lock, an enabled iteration, and operations of one event. -/
theorem witness_issued :
    (due (.issue .host 0x010000003B00000000)).schedule = [.issue .host 0x010000003B00000000] ∧
    (due (.issue .host 0x010000003B00000000)).busy .host = false ∧
    decode (.command 0x010000003B00000000) = .ok (.read32 0x3B) ∧
    (Instr.read32 0x3B).admitted .host = true ∧
    decode (.command 0x020000003C00000007) = .ok (.write32 0x3C 7) ∧
    (Instr.write32 0x3C 7).admitted .host = true ∧
    (awake .null).sched.ctxLive = false ∧ (awake .null).cpu.isRunning = true ∧
    (awake .null).busy .host = false ∧ (small .null).cpu.isRunning = false ∧
    Instr.render.admitted .host = true ∧ Instr.render.admitted .refresh = true ∧
    (small .null).session.fbSync = .none ∧ locked.session.fbSync = .rwlock ∧
    Instr.loopIter.admitted .loop = true ∧ (live .null).busy .loop = false ∧
    (live .null).sched.ctx = some { frames := 0, t0 := 0, idleUntil := 0, activity := .idle } ∧
    (live .null).sched.running = true ∧ (small .null).sched.ctxLive = false ∧
    Instr.getRate.admitted .refresh = true := by decide +kernel

/-- `OverlapIsRefused`: a host whose `STOP` waits, and a `STEP` while a context is live. -/
theorem witness_overlap :
    (stopping.queue (.command .host 0x200000000000000000)).busy .host = true ∧
    ((live .null).queue (.command .host stepWord)).busy .host = false ∧
    opField stepWord = 0x10 ∧
    ((live .null).queue (.command .host stepWord)).sched.ctxLive = true := by decide +kernel

/-- `QuiescentMachineStays`, `NoLoopEventWithoutContext`. -/
theorem witness_quiescent :
    (small .null).schedule = [] ∧ (small .null).host = .idle ∧ (small .null).refresh = none ∧
      (small .null).sched.ctx = none := by decide +kernel

/-- `PlacedWordRunsNext`: every row's word with zero operands decodes. -/
theorem witness_placed :
    decode (.command 0x810000000000000000) = .ok .loopExit ∧
      decode (.command stepWord) = .ok .step := by decide +kernel

/-- `Read32Result`, `Write32Result`, `UnwrittenReadsZero`: the last memory address, the first and the
last address of register space. -/
theorem witness_boundary :
    (0x3B : Addr).toNat < (small .null).bus.size - 4 ∧
      (small .null).bus.size - 4 ≤ (0x3C : Addr).toNat ∧
      (small .null).bus.size - 4 ≤ (0xFFFFFFFF : Addr).toNat := by decide +kernel

/-- `RoundTrip`, `UnwrittenReadsZero`: writes apart from the last memory address and from a cell; words
of `Write32Result`, `Read32Result`, `ResumeResult`. -/
theorem witness_apart :
    (∀ w ∈ ([(0x37, 1), (0x3C, 2)] : List (Addr × Word)), (small .null).bus.Apart 0x3B w.1) ∧
    (∀ w ∈ ([(0x3B, 1), (0x3D, 2)] : List (Addr × Word)), (small .null).bus.Apart 0x3C w.1) ∧
    (∀ w ∈ ([(0x7FFFF7, 1), (0x7FFFFC, 2)] : List (Addr × Word)),
      State.reset.bus.Apart 0x7FFFFB w.1) ∧
    opField 0x020000003BFFFFFFFF = 0x02 ∧ addrField 0x020000003BFFFFFFFF = 0x3B ∧
    dataField 0x020000003BFFFFFFFF = trunc32 (-1) ∧ opField 0x010000003B00000000 = 0x01 ∧
    addrField 0x010000003B00000000 = 0x3B ∧ opField 0x230000000000000000 = 0x23 := by
  simp only [AddressSpace.Apart, List.forall_mem_cons, List.not_mem_nil, false_implies, implies_true,
    and_true]
  decide +kernel

/-- `AccessOrderUnobservable`: four picks in memory, one in register space. -/
theorem witness_access :
    Memory.wf (wrote (small .null) [(0x10, 0x11223344)]).bus.mem ∧
      (small .null).bus.toMemory 0x3B = true ∧ ([2, 2, 0, 7] : List Nat).length = 4 ∧
      (small .null).bus.toMemory 0x3C = false ∧ ([5] : List Nat).length = 1 := by decide +kernel

/-- `InFlightHostOperationIsOperation`: a `READ32` of a cell, a `WRITE32` to memory, a `STEP`. -/
theorem witness_host_in_flight :
    Memory.wf (small .null).bus.mem ∧
    ((small .null).setHost (.access (.cellRead 0x3C))).host =
      .access (startRead (small .null).bus 0x3C) ∧
    ((small .null).setHost (.access (.memWrite 0x3B 7 [0, 1, 2, 3]))).host =
      .access (startWrite (small .null).bus 0x3B 7) ∧
    ¬(0x3C : Addr).toNat < (small .null).bus.size - 4 ∧
    (0x3B : Addr).toNat < (small .null).bus.size - 4 ∧
    ((awake .placeholder).setHost (.stepping .fresh)).cpu.isRunning = true := by decide +kernel

/-- `StepNotRunning`, and the first clause of `InsnFollowsExec`. -/
theorem witness_not_running : (small .null).cpu.isRunning = false := by decide +kernel

/-- `StepCommitsOrHalts`: a run that ends in `Done`, and one that ends in `DecodeError`. -/
theorem witness_step_outcomes :
    (ExecProg.run (awake .placeholder).execProg (awake .placeholder).bus).2 =
      .done (awake .placeholder).cpu.x 0x10 1 ∧
    (ExecProg.run (awake .null).execProg (awake .null).bus).2 = .decodeError [0x10, 0] := by
  decide +kernel

/-- `PlaceholderStepWrites`, `PlaceholderFrameIsSolid`, and the premise of `StepCommitsOrHalts`. -/
theorem witness_placeholder :
    (awake .placeholder).cpu.isRunning = true ∧
      (awake .placeholder).session.strategy = .placeholder ∧
      (awake .placeholder).video.fbSize ≤ (awake .placeholder).bus.size - 4 ∧
      (awake .placeholder).bus.size < 2 ^ 32 ∧
      (awake .placeholder).video.frameBufferBase = 0 ∧
      0 < (awake .placeholder).video.width * (awake .placeholder).video.height := by decide +kernel

/-- `NullStepHalts`, and the last clause of `InsnFollowsExec`. -/
theorem witness_null :
    (awake .null).cpu.isRunning = true ∧ (awake .null).session.strategy = .null := by decide +kernel

/-- A run that fetches in its writing part acts on the word (R72), at once or after a write elsewhere;
a write two bytes below `pc` leaves the word only its low half (by hand from R46, R81). -/
theorem test_fetch_in_writing_part :
    (ExecProg.run (ExecProg.fetched (.commit (.read 0x10 fun iw => .done default iw 0))
      (small .plugged).bus 0x10 7) (small .plugged).bus).2 = .done default 7 1 ∧
    (ExecProg.run (ExecProg.fetched
      (.commit (.write 0x14 5 (.read 0x10 fun iw => .done default iw 0)))
      (small .plugged).bus 0x10 7) (small .plugged).bus).2 = .done default 7 1 ∧
    (ExecProg.run (ExecProg.fetched
      (.commit (.write 0x0E 0xAABB (.read 0x10 fun iw => .done default iw 0)))
      (small .plugged).bus 0x10 7) (small .plugged).bus).2 = .done default 0xAABB0007 1 := by
  decide +kernel

/-- `InsnFollowsExec`: a run that ends in `Done`, and one that ends in `DecodeError`. -/
theorem witness_insn :
    (awake .placeholder).cpu.isRunning = true ∧
    (ExecProg.run (ExecProg.fetched (awake .placeholder).execProg (awake .placeholder).bus
      (awake .placeholder).cpu.pc 7)
      (awake .placeholder).bus).2 =
      .done (awake .placeholder).cpu.x (awake .placeholder).cpu.pc 1 ∧
    (awake .null).cpu.isRunning = true ∧
    (ExecProg.run (ExecProg.fetched (awake .null).execProg (awake .null).bus
      (awake .null).cpu.pc 7)
      (awake .null).bus).2 = .decodeError [0x10, 7] := by decide +kernel

/-- `RestingProcessorKeepsRegisters`: a `WRITE32` of the host at rest. -/
theorem witness_resting :
    (∃ t, step (due (.command .host 0x020000000000000001)) = .next t ∧ bytes t 3 1 = [1]) ∧
      (due (.command .host 0x020000000000000001)).cpu.isRunning = false ∧
      (due (.command .host 0x020000000000000001)).host = .idle ∧
      (due (.command .host 0x020000000000000001)).sched.ctx = none :=
  ⟨next_of_after (by decide +kernel), by decide +kernel⟩

/-- `IsRunningHasThreeWriters`: a `START`, a `STOP`, and a halting `STEP`. -/
theorem witness_isRunning_writers :
    (∃ t, step (due (.command .host 0x200000000000000000)) = .next t ∧
      t.cpu.isRunning ≠ (due (.command .host 0x200000000000000000)).cpu.isRunning) ∧
    (∃ t, step ((live .null).queue (.command .host 0x210000000000000000)) = .next t ∧
      t.cpu.isRunning = false) ∧
    (live .null).cpu.isRunning = true ∧
    (∃ t, step ((awake .null).queue (.command .host stepWord)) = .next t ∧
      t.cpu.isRunning = false) ∧
    (awake .null).cpu.isRunning = true := by
  refine ⟨?_, next_of_after (by decide +kernel), by decide +kernel, next_of_after (by decide +kernel),
    by decide +kernel⟩
  obtain ⟨t, h, ht⟩ := next_of_after (o := step (due (.command .host 0x200000000000000000)))
    (f := fun t => t.cpu.isRunning) (x := true) (by decide +kernel)
  refine ⟨t, h, ?_⟩
  rw [ht]
  decide +kernel

/-- `IsRunningHasThreeWriters`: the other turns of a halt entry, an iteration and events of a `STEP` in
flight. -/
theorem witness_halting_turns :
    (∃ t, step ((live .null).queue (.command .loop 0x800000000000000000)) = .next t ∧
      t.cpu.isRunning = false) ∧
    (∃ t, step (((awake .null).setHost
        (.stepping { replies := [7], writes := 0, access := none })).queue (.event .host 0)) =
      .next t ∧ t.cpu.isRunning = false) ∧
    (∃ t, step (((live .null).setLoop
        (.stepping { replies := [7], writes := 0, access := none })).queue (.event .loop 0)) =
      .next t ∧ t.cpu.isRunning = false) :=
  ⟨next_of_after (by decide +kernel), next_of_after (by decide +kernel),
    next_of_after (by decide +kernel)⟩

/-- `RenderResult`: a pixel and a byte of the frame. -/
theorem witness_pixel :
    1 < (small .null).video.width ∧ 1 < (small .null).video.height ∧
      15 < (small .null).video.width * (small .null).video.height * 4 := by decide +kernel

/-- A render of the host that has read nothing yet. -/
def hostRendering : State :=
  let s := wrote (small .placeholder) [(0, 0xFF123456)]
  s.setHost (.rendering (.reading 0 (List.range s.video.fbSize)))

/-- `RenderEventReadsOneByte`: a render of either agent. -/
theorem witness_render_event :
    List.range 16 ≠ [] ∧ rendering.refresh = some (.reading 0 (List.range 16)) ∧
      hostRendering.host = .rendering (.reading 0 (List.range 16)) := by decide +kernel

/-- The storage invariant holds of a session in use, with a write and a render in flight. -/
theorem witness_storage : (halfWritten rendering).StorageInv ∧ rendering.StorageInv := by
  have h1 : (halfWritten rendering).busAccesses = [.memWrite 0 0xFF112233 [2, 3]] := by
    decide +kernel
  have h2 : rendering.busAccesses = [] := by decide +kernel
  have h3 : (halfWritten rendering).renders = [.reading 0 (List.range 16)] := by decide +kernel
  have h4 : rendering.renders = [.reading 0 (List.range 16)] := by decide +kernel
  have h5 : RenderProgress.Inside 16 (.reading 0 (List.range 16)) := fun k hk => List.mem_range.mp hk
  refine ⟨⟨by decide +kernel, by decide +kernel, by decide +kernel, by decide +kernel,
      by decide +kernel, by decide +kernel, by decide +kernel, ?_, ?_⟩,
    ⟨by decide +kernel, by decide +kernel, by decide +kernel, by decide +kernel,
      by decide +kernel, by decide +kernel, by decide +kernel, ?_, ?_⟩⟩
  · intro acc h
    rw [h1] at h
    obtain rfl := List.mem_singleton.mp h
    exact (by decide +kernel : (halfWritten rendering).bus.toMemory 0 = true)
  · intro r h
    rw [h3] at h
    obtain rfl := List.mem_singleton.mp h
    exact h5
  · intro acc h
    rw [h2] at h
    cases h
  · intro r h
    rw [h4] at h
    obtain rfl := List.mem_singleton.mp h
    exact h5

/-- The storage invariant holds with a render of the host in flight. -/
theorem witness_host_storage : hostRendering.StorageInv := by
  have h1 : hostRendering.busAccesses = [] := by decide +kernel
  have h2 : hostRendering.renders = [.reading 0 (List.range 16)] := by decide +kernel
  refine ⟨by decide +kernel, by decide +kernel, by decide +kernel, by decide +kernel,
    by decide +kernel, by decide +kernel, by decide +kernel, ?_, ?_⟩
  · intro acc h
    rw [h1] at h
    cases h
  · intro r h
    rw [h2] at h
    obtain rfl := List.mem_singleton.mp h
    exact fun k hk => List.mem_range.mp hk

/-- `InFlightRenderIsRender`: a render of the host. -/
theorem witness_host_render_in_flight :
    hostRendering.StorageInv ∧
      hostRendering.host = .rendering (.reading hostRendering.video.frameBufferBase
        (List.range hostRendering.video.fbSize)) ∧
      (List.replicate 17 3).length = hostRendering.video.fbSize + 1 :=
  ⟨witness_host_storage, by decide +kernel, by decide +kernel⟩

/-- `InFlightRenderIsRender`: a render of the refresh agent. -/
theorem witness_render_in_flight :
    rendering.StorageInv ∧
      rendering.refresh =
        some (.reading rendering.video.frameBufferBase (List.range rendering.video.fbSize)) ∧
      (List.replicate 17 3).length = rendering.video.fbSize + 1 :=
  ⟨witness_storage.2, by decide +kernel, by decide +kernel⟩

/-- A machine that has rendered, with a render to come. -/
def rendered : State := (renderAll (small .null)).queue (.command .refresh 0x300000000000000000)

/-- `DirtyIsNeverSetAgain`, `RefreshAgentOnlyReads` (a command). -/
theorem witness_dirty :
    (∃ t, step rendered = .next t ∧ t.video.dirty = false) ∧ rendered.video.dirty = false ∧
      rendered.schedule = [.command .refresh 0x300000000000000000] :=
  ⟨next_of_after (by decide +kernel), by decide +kernel⟩

/-- `RefreshAgentOnlyReads`: an issue, and an event. -/
theorem witness_refresh :
    (∃ t, step (due (.issue .refresh 0x300000000000000000)) = .next t ∧
      t.refresh = some (.reading 0 (List.range 16))) ∧
    (∃ t, step (rendering.queue (.event .refresh 5)) = .next t ∧
      t.refresh = some (.reading 0 ((List.range 16).erase 5))) :=
  ⟨next_of_after (by decide +kernel), next_of_after (by decide +kernel)⟩

/-- `FrameBufferBaseHasOneWriter`. -/
theorem witness_base :
    ∃ t, step (due (.command .host 0x310000002000000000)) = .next t ∧
      (t.video.frameBufferBase, (small .null).video.frameBufferBase) = (0x20, 0) :=
  next_of_after (by decide +kernel)

/-- `StartResult`, `StopResult`, `PauseResult`, `ResumeResult`: each lifecycle state. -/
theorem witness_lifecycle :
    (small .null).sched.schedState = .idle ∧ (live .null).sched.schedState = .running ∧
      ((live .null).setSched .paused).sched.schedState = .paused ∧
      stopping.sched.schedState = .stopped := by decide +kernel

/-- `StopResult`: `Running` with and without a context. -/
theorem witness_stop :
    (live .null).sched.schedState = .running ∧ (live .null).sched.ctxLive = true ∧
      (endLoop (live .null)).sched.schedState = .running ∧
      (endLoop (live .null)).sched.ctxLive = false := by decide +kernel

/-- `StopWaitReturns`: the wait with the context live, and with it gone. -/
theorem witness_stop_wait :
    (stopping.queue (.event .host 0)).schedule = [.event .host 0] ∧
      (stopping.queue (.event .host 0)).host = .joining ∧
      (stopping.queue (.event .host 0)).sched.ctxLive = true ∧
      ((endLoop stopping).queue (.event .host 0)).host = .joining ∧
      ((endLoop stopping).queue (.event .host 0)).sched.ctxLive = false := by decide +kernel

/-- `ToggleResult`: each clause. -/
theorem witness_toggle :
    ((live .null).queue .toggle).schedule = [.toggle] ∧ ((live .null).queue .toggle).host = .idle ∧
      ((live .null).queue .toggle).sched.schedState = .running ∧
      (((live .null).setSched .paused).queue .toggle).sched.schedState = .paused ∧
      (due .toggle).sched.schedState = .idle ∧
      (endLoop (stopSignal (live .null))).sched.schedState = .stopped := by decide +kernel

/-- `LoopIterResult`: a window that is just full, one that is not, and a paused iteration. -/
theorem witness_loopIter :
    (timed .running 59 0 1 0).sched.ctx =
      some { frames := 59, t0 := 0, idleUntil := 0, activity := .idle } ∧
    (timed .running 59 0 1 0).sched.running = true ∧
    (timed .running 59 0 1 0).sched.paused = false ∧
    (1 : Rat) ≤ max (timed .running 59 0 1 0).clock 0 - 0 ∧
    max (timed .running 10 5 (5999 / 1000) 7).clock 5 - 5 < (1 : Rat) ∧
    (timed .paused 3 10 11 0).sched.running = true ∧
    (timed .paused 3 10 11 0).sched.paused = true := by decide +kernel

/-- `LoopExitResult`, `LoopExitsAfterStop`. -/
theorem witness_loopExit :
    stopping.sched.ctxLive = true ∧ stopping.sched.running = false := by decide +kernel

/-- `LoopEventsNotEnabled`: each disjunct. -/
theorem witness_not_enabled :
    (small .null).sched.ctxLive = false ∧ stopping.sched.running = false ∧
      (live .null).sched.running = true ∧ refusal (exec .loopIter stopping) =
        some .loopEventNotEnabled := by decide +kernel

/-- `InFlightIterationIsLoopIter`. -/
theorem witness_iteration :
    Memory.wf (wrote (live .placeholder) [(0, 7)]).bus.mem ∧
      (wrote (live .placeholder) [(0, 7)]).sched.ctx =
        some { frames := 0, t0 := 0, idleUntil := 0, activity := .idle } ∧
      (wrote (live .placeholder) [(0, 7)]).sched.running = true := by decide +kernel

/-- `UnscheduledTurnsAreFair`: a `STEP` of the host in flight, with the control invariant, and renders
in flight without and with the lock. -/
theorem witness_in_flight_fair :
    ((small .placeholder).setHost (.stepping .fresh)).ControlInv ∧
      ((small .placeholder).setHost (.stepping .fresh)).schedule = [] ∧
      rendering.schedule = [] ∧ rendering.refresh ≠ none ∧
      ((halfWritten locked).setRefresh (some .whole)).schedule = [] ∧
      ((halfWritten locked).setRefresh (some .whole)).refresh ≠ none :=
  ⟨⟨by decide +kernel, by decide +kernel, by decide +kernel, (fun h => by cases h),
      (fun _ _ => by decide +kernel), by decide +kernel⟩, by decide +kernel⟩

/-- `UnscheduledTurnsAreFair`: a live loop, and a `STOP` in its wait. -/
theorem witness_fair :
    (live .null).schedule = [] ∧ (live .null).sched.ctxLive = true ∧ stopping.schedule = [] ∧
      stopping.host = .joining ∧ stopping.sched.running = false ∧
      stopping.sched.ctxLive = true := by decide +kernel

/-- `PausedLoopLeavesMachineAlone`. -/
theorem witness_paused :
    (timed .paused 3 10 11 0).sched.paused = true ∧
      ∀ c ∈ (timed .paused 3 10 11 0).sched.ctx, c.activity = .idle ∨ c.activity = .counting := by
  decide +kernel

/-- `LoopExitsAfterStop`: a `STEP` in flight when `STOP` signals. -/
theorem witness_exit_after_step :
    (stopping.setLoop (.stepping .fresh)).sched.running = false := by decide +kernel

/-- `SessionIsFixed`, `StorageInvKept`: an event of the write in flight. -/
theorem witness_storage_step :
    (∃ t, step ((halfWritten rendering).queue (.event .host 1)) = .next t ∧
      bytes t 0 4 = [0xFF, 0x11, 0, 0x33]) ∧
      ((halfWritten rendering).queue (.event .host 1)).StorageInv :=
  have h := witness_storage.1
  ⟨next_of_after (by decide +kernel), ⟨h.mem_wf, h.mem_inside, h.reg_wf, h.reg_outside, h.buffer_wf,
    h.buffer_inside, h.sink_size, h.routed, h.inside⟩⟩

/-- `ControlInvKept`: a running machine, and its `STOP`. -/
theorem witness_control :
    ((live .null).queue (.command .host 0x210000000000000000)).ControlInv ∧
      ∃ t, step ((live .null).queue (.command .host 0x210000000000000000)) = .next t ∧
        t.host = .joining :=
  ⟨⟨by decide +kernel, by decide +kernel, by decide +kernel, by decide +kernel,
      (fun u h => by cases h), by decide +kernel⟩,
    next_of_after (by decide +kernel)⟩

/-- `TimerInvKept`: a running machine, and an iteration of it. -/
theorem witness_timer :
    ((timed .running 59 0 1 0).queue (.command .loop 0x800000000000000000)).TimerInv ∧
      ∃ t, step ((timed .running 59 0 1 0).queue (.command .loop 0x800000000000000000)) =
        .next t ∧ t.sched.measuredRate = 60 :=
  ⟨⟨by decide +kernel, by decide +kernel, by decide +kernel, by decide +kernel⟩,
    next_of_after (by decide +kernel)⟩

/-- `TimerInvKept`: a `SLEEP`. -/
theorem witness_sleep :
    ((live .null).queue (.sleep (1 / 20))).schedule = [.sleep (1 / 20)] ∧
      after (step ((live .null).queue (.sleep (1 / 20)))) State.clock = some (1 / 20) := by
  decide +kernel

/-- `LockedRendersAreWhole`: a render of the host that the loop's half done write meets, and `RENDER`
words that arrive in the middle of a write. -/
theorem witness_host_lock :
    let held := loopWriting (spawnLoop locked)
    (held.setHost (.rendering .whole)).host = .rendering .whole ∧
      (held.setHost (.rendering .whole)).writeHalfDone = true ∧
      held.busAccesses = [.memWrite 0 0xFF112233 [2, 3]] ∧
      opField 0x300000000000000000 = 0x30 ∧
      (held.queue (.command .host 0x300000000000000000)).busy .host = false ∧
      ((halfWritten locked).queue (.command .refresh 0x300000000000000000)).busy .refresh =
        false ∧
      (halfWritten locked).writeHalfDone = true ∧ locked.writeHalfDone = false := by
  decide +kernel

/-- `LockedRendersAreWhole`: a render in flight under `rwlock`, in the middle of a write. -/
theorem witness_lock :
    ((halfWritten locked).setRefresh (some .whole)).LockInv ∧
      ((halfWritten locked).setRefresh (some .whole)).session.fbSync = .rwlock ∧
      ((halfWritten locked).setRefresh (some .whole)).writeHalfDone = true ∧
      ∃ t, step (((halfWritten locked).setRefresh (some .whole)).queue (.event .refresh 0)) =
        .next t ∧ t.refresh = none := by
  refine ⟨fun _ => by decide +kernel, by decide +kernel, by decide +kernel,
    next_of_after (by decide +kernel)⟩

/-- `ConstructChecksParameters`: the bounds of `S`, `TARGET_HZ` and `LOOP_DELAY` where the clauses meet. -/
theorem witness_construct_bounds :
    { params .null with size := 2 ^ 32 - 1 }.legal ∧
      2 ^ 32 ≤ { params .null with size := 2 ^ 32 }.size ∧
      ({ (params .null).session with targetHz := 0 } : Session).targetHz ≤ 0 ∧
      ({ (params .null).session with loopDelay := 0 } : Session).loopDelay ≤ 0 := by
  decide +kernel

/-- `ConstructChecksParameters`: legal parameters at `S = 4`, and each broken bound. -/
theorem witness_construct :
    { params .null with size := 4 }.legal ∧ { params .null with size := 3 }.size < 4 ∧
      { params .null with width := 0 }.width = 0 ∧ { params .null with height := 0 }.height = 0 ∧
      { params .null with sinkWidth := 3 }.sinkWidth ≠ { params .null with sinkWidth := 3 }.width ∧
      { params .null with sinkHeight := 3 }.sinkHeight ≠ (params .null).height := by
  decide +kernel

end Sys2Proof.Tests
end

/-! PROOF. Construction of a session (rules R2, R3, R180): which parameters it takes, and the state
that reset leaves. -/

namespace Sys2Proof.Machine

theorem State.construct_of_legal {p : SessionParams} (h : p.legal) :
    State.construct p = some (State.initial p) := if_pos h

theorem State.construct_of_not_legal {p : SessionParams} (h : ¬p.legal) :
    State.construct p = none := if_neg h

/-- Parameters that break one of the bounds are not legal (rules R3, R5, R6, R112). -/
theorem not_legal_of_bound_broken {p : SessionParams}
    (h : p.size < 4 ∨ 2 ^ 32 ≤ p.size ∨ p.width = 0 ∨ p.height = 0 ∨ p.session.targetHz ≤ 0 ∨
      p.session.loopDelay ≤ 0 ∨ p.sinkWidth ≠ p.width ∨ p.sinkHeight ≠ p.height) : ¬p.legal := by
  rintro ⟨hmin, hmax, hw, hh, hhz, hdelay, hsw, hsh⟩
  rcases h with h | h | h | h | h | h | h | h
  · exact absurd h (Nat.not_lt.mpr hmin)
  · exact absurd h (Nat.not_le.mpr hmax)
  · exact absurd h (Nat.ne_of_gt hw)
  · exact absurd h (Nat.ne_of_gt hh)
  · exact absurd h (not_le.mpr hhz)
  · exact absurd h (not_le.mpr hdelay)
  · exact h hsw
  · exact h hsh

/-- Settles O60: the second clause's bounds are the negations of those of `SessionParams.legal`. -/
theorem constructChecksParameters : Obligations.ConstructChecksParameters :=
  fun _ => ⟨State.construct_of_legal, fun h =>
    State.construct_of_not_legal (not_legal_of_bound_broken h)⟩

/-- Every register of a new session is 0 (rule R12). -/
theorem State.initial_x (p : SessionParams) (i : Fin 32) : (State.initial p).cpu.x[i] = 0 :=
  Vector.getElem_replicate i.isLt

/-- Every byte of a new session's memory is 0 (rule R18). -/
theorem State.initial_byteAt (p : SessionParams) (a : Nat) : (State.initial p).bus.byteAt a = 0 :=
  Memory.get_nil

/-- Every cell of a new session's register space is 0 (rule R19). -/
theorem State.initial_cellAt (p : SessionParams) (a : Nat) : (State.initial p).bus.cellAt a = 0 :=
  Memory.get_nil

/-- Every byte of a new session's output buffer is 0 (rule R23). -/
theorem State.initial_outputBuffer (p : SessionParams) (k : Nat) :
    Memory.get (State.initial p).video.outputBuffer k = 0 := Memory.get_nil

/-- Settles O59: the stores by what an empty store reads as, the single fields by evaluation of
`State.initial` at the reference parameters. -/
theorem resetValues : Obligations.ResetValues :=
  ⟨State.initial_x _, rfl, rfl, rfl, rfl, rfl, rfl, State.initial_byteAt _, State.initial_cellAt _,
    rfl, rfl, rfl, State.initial_outputBuffer _, rfl, rfl, rfl, rfl, rfl, rfl, rfl, rfl, rfl, rfl,
    rfl, rfl⟩

end Sys2Proof.Machine

/-! PROOF. What construction fixes stays for the session (rules R2, R18, R21): no operation of the
model changes it, so no meaning, no event, no turn and no step does. -/

namespace Sys2Proof.Machine

theorem State.SameSession.refl (s : State) : s.SameSession s := ⟨rfl, rfl, rfl, rfl⟩

theorem State.SameSession.trans {s t u : State} (h : s.SameSession t) (k : t.SameSession u) :
    s.SameSession u := by
  obtain ⟨hsize, hwidth, hheight, hsession⟩ := h
  obtain ⟨ksize, kwidth, kheight, ksession⟩ := k
  exact ⟨ksize.trans hsize, kwidth.trans hwidth, kheight.trans hheight, ksession.trans hsession⟩

/-! ### The operations on the state -/

theorem State.sameSession_setBus (s : State) {b : AddressSpace} (h : b.size = s.bus.size) :
    s.SameSession (s.setBus b) := ⟨h, rfl, rfl, rfl⟩

theorem sameSession_endWait (s : State) : s.SameSession (endWait s) := by
  simp [State.SameSession]

theorem sameSession_countFrame (s : State) : s.SameSession (countFrame s) := by
  simp [State.SameSession]

theorem sameSession_awaitLoop (s : State) : s.SameSession (awaitLoop s) := by
  unfold awaitLoop
  split <;> exact .refl s

theorem sameSession_runUnit (p : ExecProg) (s : State) : s.SameSession (runUnit p s).1 := by
  rcases runUnit_cases p s with ⟨x, pc, n, h⟩ | ⟨info, h⟩ <;> rw [h]
  · exact ⟨ExecProg.run_size p s.bus, rfl, rfl, rfl⟩
  · exact .refl s

theorem sameSession_iterationStep (s : State) : s.SameSession (iterationStep s) := by
  unfold iterationStep stepUnit
  split_ifs
  · exact .refl s
  · exact sameSession_runUnit s.execProg s
  · exact .refl s

theorem State.sameSession_finishWrites (s : State) : s.SameSession s.finishWrites := by
  refine ⟨s.finishWrites_size_live.1, ?_, ?_, ?_⟩ <;> rw [s.finishWrites_frame]

theorem State.sameSession_readyFor (s : State) (r : RenderProgress) :
    s.SameSession (s.readyFor r) := by
  cases r with
  | whole => exact s.sameSession_finishWrites
  | reading base unread => exact .refl s

theorem State.sameSession_startRender (s : State) (a : Agent) (r : RenderProgress) :
    s.SameSession (s.startRender a r) := by
  cases a <;> exact .refl s

theorem sameSession_beginIteration (s : State) : s.SameSession (beginIteration s) :=
  sameSession_endWait s

/-! ### The meanings -/

/-- No meaning changes the session. -/
theorem exec_sameSession {i : Instr} {s t : State} (h : exec i s = .next t) : s.SameSession t := by
  rcases exec_cases h with ⟨v, rfl⟩ | ⟨addr, data, -, rfl⟩ | ⟨-, -, rfl⟩ | ⟨-, -, p, rfl⟩ |
    ⟨-, -, rfl⟩ | ⟨-, -, rfl⟩ | ⟨-, -, rfl⟩ | ⟨-, -, rfl⟩ | ⟨-, rfl⟩ | ⟨addr, -, rfl⟩ |
    ⟨-, -, -, rfl⟩ | ⟨-, -, -, rfl⟩
  · exact .refl s
  · exact s.sameSession_setBus (AddressSpace.write32_size ..)
  · exact .refl s
  · exact sameSession_runUnit p s
  · exact .refl s
  · exact sameSession_awaitLoop (stopSignal s)
  · exact .refl s
  · exact .refl s
  · exact .refl s
  · exact .refl s
  · exact ((sameSession_endWait s).trans (sameSession_iterationStep _)).trans
      (sameSession_countFrame _)
  · exact .refl s

/-! ### The events of the agents -/

theorem sameSession_accessEvent (acc : Access) (pick : Nat) (s : State) :
    s.SameSession (s.setBus (accessEvent acc pick s.bus).1) :=
  s.sameSession_setBus (accessEvent_size acc pick s.bus)

theorem sameSession_unitEvent (u : UnitProgress) (pick : Nat) (s : State) :
    s.SameSession (unitEvent u pick s).1 := by
  rcases unitEvent_cases u pick s with ⟨acc, -, h⟩ | ⟨a, -, h⟩ | ⟨a, v, -, h⟩ | ⟨x, pc, n, -, h⟩ |
    ⟨info, -, h⟩ <;> rw [h]
  · exact sameSession_accessEvent acc pick s
  · exact .refl s
  · exact .refl s
  · exact .refl s
  · exact .refl s

/-- An event of a render, with the writes finished that its lock keeps whole (rule R58). -/
theorem sameSession_renderEvent (r : RenderProgress) (pick : Nat) (s : State) :
    s.SameSession (renderEvent r pick (s.readyFor r)).1 := by
  refine (s.sameSession_readyFor r).trans ?_
  cases r with
  | whole => exact .refl _
  | reading base unread =>
    simp only [renderEvent]
    split <;> exact .refl _

theorem sameSession_renderAnswer (a : Agent) (r : Option RenderProgress) (s : State) :
    s.SameSession (renderAnswer a r s) := by
  cases r <;> exact .refl s

theorem sameSession_hostEvent (pick : Nat) (s : State) : s.SameSession (hostEvent pick s) := by
  unfold hostEvent
  split
  · exact .refl s
  · next acc _ =>
    refine (sameSession_accessEvent acc pick s).trans ?_
    unfold hostAccessed
    split <;> exact .refl _
  · split <;> exact .refl s
  · next u _ =>
    refine (sameSession_unitEvent u pick s).trans ?_
    unfold hostStepped
    split <;> exact .refl _
  · next r _ => exact (sameSession_renderEvent r pick s).trans (sameSession_renderAnswer _ _ _)

theorem sameSession_refreshEvent (pick : Nat) (s : State) :
    s.SameSession (refreshEvent pick s) := by
  unfold refreshEvent
  split
  · exact .refl s
  · next r _ => exact (sameSession_renderEvent r pick s).trans (sameSession_renderAnswer _ _ _)

theorem sameSession_loopEvent (pick : Nat) (s : State) : s.SameSession (loopEvent pick s) := by
  unfold loopEvent
  split
  · exact .refl s
  · split
    · split
      · exact sameSession_beginIteration s
      · exact .refl s
    · exact .refl s
    · next u _ =>
      refine (sameSession_unitEvent u pick s).trans ?_
      unfold loopStepped
      split <;> exact .refl _
    · exact sameSession_countFrame s

/-- No event of an agent changes the session. -/
theorem sameSession_runEvent (a : Agent) (pick : Nat) (s : State) :
    s.SameSession (runEvent a pick s) := by
  cases a with
  | host => exact sameSession_hostEvent pick s
  | refresh => exact sameSession_refreshEvent pick s
  | loop => exact sameSession_loopEvent pick s

/-! ### Turns and steps -/

theorem runInstr_sameSession {a : Agent} {i : Instr} {s t : State} (h : runInstr a i s = .next t) :
    s.SameSession t := by
  rcases runInstr_cases h with ⟨-, h⟩ | ⟨h, -⟩
  · exact s.sameSession_finishWrites.trans (exec_sameSession h :)
  · exact (exec_sameSession h :)

theorem issueInstr_sameSession {a : Agent} {i : Instr} {s t : State}
    (h : issueInstr a i s = .next t) : s.SameSession t := by
  rcases issueInstr_cases h with ⟨acc, -, rfl⟩ | ⟨-, -, -, rfl⟩ | ⟨-, rfl⟩ | ⟨-, -, -, rfl⟩ | h
  · exact .refl s
  · exact .refl s
  · exact s.sameSession_startRender a _
  · exact sameSession_beginIteration s
  · exact runInstr_sameSession h

/-- No turn changes the session. -/
theorem runTurn_sameSession {u : Turn} {s t : State} (h : runTurn u s = .next t) :
    s.SameSession t := by
  rcases runTurn_cases h with ⟨a, w, -, -, -, rfl⟩ | ⟨a, w, i, -, -, -, h⟩ | ⟨a, w, i, -, -, -, h⟩ |
    ⟨a, pick, -, rfl⟩ | ⟨-, -, rfl | h | h⟩ | ⟨d, -, rfl⟩
  · exact .refl s
  · exact runInstr_sameSession h
  · exact issueInstr_sameSession h
  · exact sameSession_runEvent a pick s
  · exact .refl t
  · exact runInstr_sameSession h
  · exact runInstr_sameSession h
  · exact .refl s

/-- Settles O50, by what a step can do: nothing, an event of an agent, or a turn of the schedule. -/
theorem sessionIsFixed : Obligations.SessionIsFixed := by
  intro s t h
  rcases step_cases h with ⟨-, rfl⟩ | ⟨-, pick, d, rfl⟩ | ⟨u, rest, -, h⟩
  · exact .refl t
  · exact sameSession_runEvent s.unscheduled.mover pick (s.tick d)
  · exact (runTurn_sameSession h :)

end Sys2Proof.Machine

/-! PROOF. What a step makes of a command word at the port (rules R8, R62, R69): a whole command is
its meaning, an issued one starts its operation. -/

namespace Sys2Proof.Machine

/-- The decoder of an issuer gives the decoded operation where it may issue it (rule R69). -/
theorem decodeFor_eq_some {a : Agent} {w : CommandWord} {i : Instr}
    (hd : decode (.command w) = .ok i) (ha : i.admitted a = true) : decodeFor a w = some i := by
  have hc : decodeCommand w = .ok i := hd
  simp [decodeFor, hc, ha]

/-- An idle agent's word that decodes to an operation it may issue is run (rules R53, R62, R69). -/
theorem acceptCommand_eq (run : Agent → Instr → State → Host.Outcome State Fault Refusal)
    {s : State} {a : Agent} {w : CommandWord} {i : Instr} (hb : s.busy a = false)
    (hd : decode (.command w) = .ok i) (ha : i.admitted a = true) :
    acceptCommand run a w s = run a i s := by
  simp [acceptCommand, hb, decodeFor_eq_some hd ha]

/-- The schedule says nothing about who is busy. -/
theorem State.busy_schedule (s : State) (rest : List Turn) (a : Agent) :
    ({ s with schedule := rest } : State).busy a = s.busy a := by
  cases a <;> rfl

/-- A step that takes a whole command of an idle agent runs it. -/
theorem step_command {s : State} {a : Agent} {w : CommandWord} {i : Instr} {rest : List Turn}
    (hs : s.schedule = .command a w :: rest) (hb : s.busy a = false)
    (hd : decode (.command w) = .ok i) (ha : i.admitted a = true) :
    step s = runInstr a i { s with schedule := rest } := by
  rw [step, hs]
  exact acceptCommand_eq runInstr ((s.busy_schedule rest a).trans hb) hd ha

/-- A step that takes an issued command of an idle agent starts it. -/
theorem step_issue {s : State} {a : Agent} {w : CommandWord} {i : Instr} {rest : List Turn}
    (hs : s.schedule = .issue a w :: rest) (hb : s.busy a = false)
    (hd : decode (.command w) = .ok i) (ha : i.admitted a = true) :
    step s = issueInstr a i { s with schedule := rest } := by
  rw [step, hs]
  exact acceptCommand_eq issueInstr ((s.busy_schedule rest a).trans hb) hd ha

/-! ### Operations that run whole -/

theorem State.finishHostWrite_schedule (s : State) (rest : List Turn) :
    ({ s with schedule := rest } : State).finishHostWrite =
      { s.finishHostWrite with schedule := rest } := by
  simp only [State.finishHostWrite]
  split <;> rfl

theorem State.finishLoopWrite_schedule (s : State) (rest : List Turn) :
    ({ s with schedule := rest } : State).finishLoopWrite =
      { s.finishLoopWrite with schedule := rest } := by
  simp only [State.finishLoopWrite]
  split
  · rfl
  · split <;> rfl

/-- Finishing the writes before a render does not look at the schedule. -/
theorem State.finishWrites_schedule (s : State) (rest : List Turn) :
    ({ s with schedule := rest } : State).finishWrites =
      { s.finishWrites with schedule := rest } := by
  have hw : ({ s with schedule := rest } : State).writeHalfDone = s.writeHalfDone := rfl
  simp only [State.finishWrites, hw]
  split
  · rw [State.finishHostWrite_schedule, State.finishLoopWrite_schedule]
  · rfl

/-- An operation that is no render is its meaning, but for a `STEP` while a context is live. -/
theorem runInstr_eq_exec {a : Agent} {i : Instr} {s : State}
    (hl : ¬(i = .step ∧ s.sched.ctxLive = true)) (hr : i ≠ .render) :
    runInstr a i s = exec i { s with issuer := a } := by
  rw [runInstr, if_neg hl, if_neg hr]

/-- A render is its meaning with the writes finished that its lock keeps whole (rule R58). -/
theorem runInstr_render (a : Agent) (s : State) :
    runInstr a .render s = exec .render { s.finishWrites with issuer := a } := by
  simp [runInstr]

/-! ### Operations that start -/

/-- A read starts with its four bytes to come, or with its cell (rules R41, R42, R51). -/
theorem startRead_eq (b : AddressSpace) (addr : Addr) : startRead b addr =
    if addr.toNat < b.size - 4 then .memRead addr [0, 1, 2, 3] 0 else .cellRead addr := by
  simp only [startRead, AddressSpace.toMemory_iff, allBytes]

/-- A write starts with its four bytes to come, or with its cell (rules R41, R42, R51). -/
theorem startWrite_eq (b : AddressSpace) (addr : Addr) (v : Word) : startWrite b addr v =
    if addr.toNat < b.size - 4 then .memWrite addr v [0, 1, 2, 3] else .cellWrite addr v := by
  simp only [startWrite, AddressSpace.toMemory_iff, allBytes]

/-- A running `STEP` starts having done nothing (rules R69, R93). -/
theorem issueInstr_step {a : Agent} {s : State} (hl : s.sched.ctxLive = false)
    (hr : s.cpu.isRunning = true) :
    issueInstr a .step s = .next (s.setHost (.stepping .fresh)) := by
  simp [issueInstr, hl, hr]

/-- The start of a render is fixed by `FB_SYNC` (rules R58, R120). -/
theorem State.startOfRender_eq {s : State} {r : RenderProgress}
    (hnone : s.session.fbSync = .none →
      r = .reading s.video.frameBufferBase (List.range s.video.fbSize))
    (hlock : s.session.fbSync = .rwlock → r = .whole) : s.startOfRender = r := by
  unfold State.startOfRender
  split
  · next h => exact (hnone h).symm
  · next h => exact (hlock h).symm

/-- An enabled iteration starts at the clock's reading or the end of its wait, with `paused` sampled
(rules R140, R144). -/
theorem issueInstr_loopIter {a : Agent} {s : State} {c : LoopContext} (hc : s.sched.ctx = some c)
    (hr : s.sched.running = true) : issueInstr a .loopIter s = .next { s with
      clock := max s.clock c.idleUntil
      sched := { s.sched with
        ctx := some { c with activity := if s.sched.paused then .counting else .sampled } } } := by
  simp [issueInstr, ExecutionScheduler.ctxLive, hc, hr, beginIteration, endWait, State.setLoop]

/-- Every other issued operation is its meaning: one of a single event, a `STEP` that is not
running, an iteration that is not enabled. -/
theorem issueInstr_eq_exec {a : Agent} {i : Instr} {s : State} (hread : ∀ addr, i ≠ .read32 addr)
    (hwrite : ∀ addr data, i ≠ .write32 addr data) (hrender : i ≠ .render)
    (hstep : i = .step → s.sched.ctxLive = false ∧ s.cpu.isRunning = false)
    (hiter : i = .loopIter → s.sched.ctxLive = false ∨ s.sched.running = false) :
    issueInstr a i s = exec i { s with issuer := a } := by
  have hwhole : runInstr a i s = exec i { s with issuer := a } :=
    runInstr_eq_exec (fun ⟨hi, hl⟩ => by simp [(hstep hi).1] at hl) hrender
  cases i with
  | read32 addr => exact absurd rfl (hread addr)
  | write32 addr data => exact absurd rfl (hwrite addr data)
  | render => exact absurd rfl hrender
  | step =>
    obtain ⟨hl, hr⟩ := hstep rfl
    simpa [issueInstr, hl, hr] using hwhole
  | loopIter =>
    have hoff : (s.sched.ctxLive && s.sched.running) = false := by
      rcases hiter rfl with h | h <;> simp [h]
    simp [issueInstr, exec, execLoopIter, hoff]
  | start => exact hwhole
  | stop => exact hwhole
  | pause => exact hwhole
  | resume => exact hwhole
  | getRate => exact hwhole
  | getIsRunning => exact hwhole
  | setFbBase addr => exact hwhole
  | loopExit => exact hwhole
  | insn iw => exact hwhole

/-- Settles O8: the turn is the operation's run or its start, by the decoded operation. -/
theorem stepRunsDecodedCommand : Obligations.StepRunsDecodedCommand := by
  intro s a w i rest hb hd ha
  constructor
  · intro hs hl
    rw [step_command hs hb hd ha]
    refine ⟨fun hi => runInstr_eq_exec hl hi, ?_, State.finishWrites_of_none⟩
    rintro rfl
    rw [runInstr_render, State.finishWrites_schedule]
  · intro hs
    rw [step_issue hs hb hd ha]
    refine ⟨?read, ?write, ?step, ?render, ?iter, fun hread hwrite hrender hstep hiter =>
      issueInstr_eq_exec hread hwrite hrender hstep hiter⟩
    case read =>
      rintro addr rfl
      rw [← startRead_eq]
      rfl
    case write =>
      rintro addr data rfl
      rw [← startWrite_eq]
      rfl
    case step =>
      rintro rfl hl hr
      exact issueInstr_step hl hr
    case render =>
      rintro rfl r hnone hlock
      rw [← State.startOfRender_eq hnone hlock]
      constructor <;> rintro rfl <;> rfl
    case iter =>
      rintro rfl c hc hr
      exact issueInstr_loopIter hc hr

end Sys2Proof.Machine

/-! PROOF. What a step is made of: a chain of moves, each of which writes one part of the state. An
invariant that every move keeps is an invariant of the machine. -/

namespace Sys2Proof.Machine

/-! ### Moves -/

/-- One write on the bus: a byte or a cell of one of the accesses `accs` in flight, or a whole word
(rules R51, R81). -/
inductive AddressSpace.Write (accs : List Access) (b : AddressSpace) : AddressSpace → Prop
  | byte {addr : Addr} {v : Word} {left : List (Fin 4)} (k : Fin 4)
      (h : Access.memWrite addr v left ∈ accs) :
      b.Write accs (b.setByteAt (addr.toNat + k) (byteOf v k))
  | cell {addr : Addr} {v : Word} (h : Access.cellWrite addr v ∈ accs) :
      b.Write accs (b.setCellAt addr.toNat v)
  | word (addr : Addr) (v : Word) : b.Write accs (b.write32 addr v)

/-- The accesses in flight are of the kinds the decoder chose for their addresses. -/
def State.AccessesRouted (s : State) : Prop := ∀ acc ∈ s.busAccesses, acc.Routed s.bus

/-- The renders in flight have only bytes of the output buffer to read. -/
def State.RendersInside (s : State) : Prop := ∀ r ∈ s.renders, r.Inside s.video.fbSize

/-- An activity may go on with this access: it is started in `s`, or one in flight taken further,
and so routed where those in flight are. -/
def State.MayAccess (s : State) (acc : Access) : Prop := s.AccessesRouted → acc.Routed s.bus

/-- An agent may go on with this render: it is started in `s`, or one in flight taken further, and
so inside the output buffer where those in flight are. -/
def State.MayRender (s : State) (r : RenderProgress) : Prop :=
  s.RendersInside → r.Inside s.video.fbSize

/-- What the host may do next when that is no wait for the loop: the wait of a `STOP` ends without a
context (rule R127), and a `STEP` starts without one (rule R93). -/
structure State.HostMay (s : State) (h : HostActivity) : Prop where
  access : ∀ acc ∈ h.busAccess, s.MayAccess acc
  render : ∀ r ∈ h.renderInFlight, s.MayRender r
  not_joining : h ≠ .joining
  joined : s.host = .joining → s.sched.ctxLive = false
  stepping : ∀ u, h = .stepping u → s.sched.ctxLive = false ∨ ∃ v, s.host = .stepping v

theorem State.hostMay_idle {s : State} (hj : s.host = .joining → s.sched.ctxLive = false) :
    s.HostMay .idle :=
  ⟨nofun, nofun, nofun, hj, nofun⟩

theorem State.hostMay_access {s : State} {acc : Access} (ha : s.MayAccess acc)
    (hj : s.host ≠ .joining) : s.HostMay (.access acc) :=
  ⟨by rintro _ ⟨⟩; exact ha, nofun, nofun, fun h => absurd h hj, nofun⟩

theorem State.hostMay_stepping {s : State} {u : UnitProgress}
    (ha : ∀ acc ∈ u.access, s.MayAccess acc) (hj : s.host ≠ .joining)
    (hs : s.sched.ctxLive = false ∨ ∃ v, s.host = .stepping v) : s.HostMay (.stepping u) :=
  ⟨ha, nofun, nofun, fun h => absurd h hj, fun _ _ => hs⟩

theorem State.hostMay_rendering {s : State} {r : RenderProgress} (hr : s.MayRender r)
    (hj : s.host ≠ .joining) : s.HostMay (.rendering r) :=
  ⟨nofun, by rintro _ ⟨⟩; exact hr, nofun, fun h => absurd h hj, nofun⟩

/-- One write of a step to the state, with the guard under which it is made; `o` is the operation
of the step's turn, if it is a command that is admitted. -/
inductive Move (o : Option Instr) (s : State) : State → Prop
  /-- What the model records beside the CORE's own state. -/
  | record (a : Agent) (rs : Responses) (rest : List Turn) (n : UnscheduledTurns) :
      Move o s { s with issuer := a, responses := rs, schedule := rest, unscheduled := n }
  | wait {c : Rat} (h : s.clock ≤ c) : Move o s { s with clock := c }
  | bus {b : AddressSpace} (h : s.bus.Write s.busAccesses b) : Move o s (s.setBus b)
  | commit (x : Regs) (pc : Word) : Move o s (commitUnit x pc s)
  | halt (info : List Word) : Move o s (haltEntry info s)
  | spawn (h : s.host = .idle) : Move o s (spawnLoop s)
  | stop (h : s.host = .idle) (hr : s.sched.running = true) : Move o s (awaitLoop (stopSignal s))
  | lifecycle {st : SchedState} (h : s.host = .idle)
      (hr : (s.setSched st).sched.running = s.sched.running) : Move o s (s.setSched st)
  | count : Move o s (countFrame s)
  | exit (h : s.sched.running = false) : Move o s (endLoop s)
  | readByte {base : Addr} {unread : List Nat} {k : Nat}
      (h : RenderProgress.reading base unread ∈ s.renders) (hk : k ∈ unread) :
      Move o s (renderByte base k s)
  | readFrame : Move o s (renderBytes s)
  | finish : Move o s (finishRender s)
  | base {addr : Addr} (h : o = some (.setFbBase addr)) : Move o s (s.setBase addr)
  | host {h : HostActivity} (hm : s.HostMay h) : Move o s (s.setHost h)
  | loop {act : LoopActivity} (h : ∀ acc ∈ act.busAccess, s.MayAccess acc) :
      Move o s (s.setLoop act)
  | refresh {r : Option RenderProgress} (h : ∀ p ∈ r, s.MayRender p) : Move o s (s.setRefresh r)

/-- Moves one after another. -/
abbrev State.Moves (s : State) (o : Option Instr) (t : State) : Prop :=
  Relation.ReflTransGen (Move o) s t

/-- An invariant that every move keeps is kept by a chain of moves. -/
theorem State.Moves.keeps {o : Option Instr} {P : State → Prop}
    (hP : ∀ u v, Move o u v → P u → P v) {s t : State} (h : s.Moves o t) (hs : P s) : P t := by
  induction h with
  | refl => exact hs
  | tail _ hm ih => exact hP _ _ hm ih

variable {o : Option Instr} {s t : State} {a : Agent} {i : Instr}

theorem Move.respond (s : State) (a : Agent) (st : Status) (v : Value) :
    Move o s (s.respond a st v) := .record s.issuer _ s.schedule s.unscheduled

theorem Move.issuer (s : State) (a : Agent) : Move o s { s with issuer := a } :=
  .record a s.responses s.schedule s.unscheduled

theorem Move.schedule (s : State) (rest : List Turn) : Move o s { s with schedule := rest } :=
  .record s.issuer s.responses rest s.unscheduled

theorem State.moves_advanceClock (s : State) (d : Rat) : s.Moves o (s.advanceClock d) :=
  .single (.wait (le_add_of_nonneg_right (le_max_left 0 d)))

theorem State.moves_tick (s : State) (d : Rat) : s.Moves o (s.tick d) :=
  (s.moves_advanceClock d).tail (.record s.issuer s.responses s.schedule s.unscheduled.next)

theorem moves_endWait (s : State) : s.Moves o (endWait s) := by
  unfold endWait
  split
  · exact .refl
  · exact .single (.wait (le_max_left _ _))

/-- All that the counting part of an iteration does to the scheduler (rules R140 to R144). -/
theorem countFrame_sched_cases (s : State) :
    (s.sched.ctx = none ∧ (countFrame s).sched = s.sched) ∨
      ∃ c, s.sched.ctx = some c ∧
        ((1 ≤ s.clock - c.t0 ∧ (countFrame s).sched = { s.sched with
            measuredRate := ((c.frames + 1 : Nat) : Rat) / (s.clock - c.t0)
            ctx := some
              { frames := 0
                t0 := s.clock
                idleUntil := s.clock + s.session.loopDelay
                activity := .idle } }) ∨
          (countFrame s).sched = { s.sched with
            ctx := some
              { c with
                frames := c.frames + 1
                idleUntil := s.clock + s.session.loopDelay
                activity := .idle } }) := by
  unfold countFrame
  cases hc : s.sched.ctx with
  | none => exact .inl ⟨rfl, rfl⟩
  | some c =>
    refine .inr ⟨c, rfl, ?_⟩
    dsimp only
    split
    · next hfull => exact .inl ⟨hfull, rfl⟩
    · exact .inr rfl

/-- The counting part leaves the lifecycle and the context's presence. -/
theorem countFrame_control (s : State) :
    (countFrame s).sched.schedState = s.sched.schedState ∧
      (countFrame s).sched.ctxLive = s.sched.ctxLive := by
  rcases countFrame_sched_cases s with ⟨-, e⟩ | ⟨c, hc, ⟨-, e⟩ | e⟩ <;>
    simp [ExecutionScheduler.ctxLive, *]

/-! ### Accesses and units of work -/

theorem mem_busAccesses_of_host {acc : Access} (h : s.host.busAccess = some acc) :
    acc ∈ s.busAccesses := by
  simp [State.busAccesses, h]

theorem mem_busAccesses_of_ctx {c : LoopContext} {acc : Access} (hc : s.sched.ctx = some c)
    (h : c.activity.busAccess = some acc) : acc ∈ s.busAccesses := by
  simp [State.busAccesses, hc, h]

/-- Routing depends on the size of main memory alone (rules R41, R42). -/
theorem State.accessesRouted_setBus {b : AddressSpace} (hb : b.size = s.bus.size) :
    (s.setBus b).AccessesRouted ↔ s.AccessesRouted :=
  ⟨fun h acc hacc => (h acc hacc).of_size hb.symm, fun h acc hacc => (h acc hacc).of_size hb⟩

/-- The bytes of a write in flight, one after another. -/
theorem State.moves_setBytes {addr : Addr} {v : Word} {left : List (Fin 4)} (ks : List (Fin 4))
    (s : State) (h : Access.memWrite addr v left ∈ s.busAccesses) :
    s.Moves o (s.setBus (s.bus.setBytes addr v ks)) := by
  induction ks generalizing s with
  | nil => exact .refl
  | cons k ks ih => exact .head (.bus (.byte k h)) (ih (s.setBus _) h)

theorem moves_accessEvent {acc : Access} (h : acc ∈ s.busAccesses) (pick : Nat) :
    s.Moves o (s.setBus (accessEvent acc pick s.bus).1) := by
  rcases accessEvent_bus acc pick s.bus with e | ⟨addr, v, left, k, rfl, e⟩ | ⟨addr, v, rfl, e⟩ <;>
    rw [e]
  · exact .refl
  · exact .single (.bus (.byte k h))
  · exact .single (.bus (.cell h))

/-- An access that goes on may be in flight next. -/
theorem mayAccess_of_going {acc acc' : Access} {pick : Nat} (h : acc ∈ s.busAccesses)
    (he : (accessEvent acc pick s.bus).2 = .going acc') :
    (s.setBus (accessEvent acc pick s.bus).1).MayAccess acc' := by
  intro hr
  have hold : s.AccessesRouted :=
    (State.accessesRouted_setBus (accessEvent_size acc pick s.bus)).mp hr
  exact (accessEvent_routed (hold acc h) he).of_size (accessEvent_size acc pick s.bus)

theorem moves_execRun (p : ExecProg) (s : State) :
    s.Moves o (s.setBus (ExecProg.run p s.bus).1) :=
  ExecProg.run_keeps (P := fun b => s.Moves o (s.setBus b))
    (fun b addr v h => h.tail (.bus (.word (b := b) addr v))) p s.bus .refl

/-- A unit of work with nothing in between: its writes, then the commit or the halt entry. -/
theorem moves_runUnit (p : ExecProg) (s : State) : s.Moves o (runUnit p s).1 := by
  rcases runUnit_cases p s with ⟨x, pc, n, h⟩ | ⟨info, h⟩ <;> rw [h]
  · exact (moves_execRun p s).tail (.commit x pc)
  · exact .single (.halt info)

theorem moves_iterationStep (s : State) : s.Moves o (iterationStep s) := by
  unfold iterationStep stepUnit
  split_ifs
  · exact .refl
  · exact moves_runUnit s.execProg s
  · exact .refl

/-- One event of a unit of work, and the access it goes on with. -/
theorem moves_unitEvent {u : UnitProgress} (h : ∀ acc ∈ u.access, acc ∈ s.busAccesses)
    (pick : Nat) : s.Moves o (unitEvent u pick s).1 ∧
      ∀ u', (unitEvent u pick s).2 = .going u' →
        ∀ acc ∈ u'.access, (unitEvent u pick s).1.MayAccess acc := by
  rcases unitEvent_cases u pick s with ⟨acc, ha, e⟩ | ⟨addr, -, e⟩ | ⟨addr, v, -, e⟩ |
    ⟨x, pc, n, -, e⟩ | ⟨info, -, e⟩ <;> rw [e]
  · refine ⟨moves_accessEvent (h acc ha) pick, ?_⟩
    rintro u' ⟨⟩ acc' hacc'
    cases hst : (accessEvent acc pick s.bus).2 with
    | going next =>
      simp only [hst, UnitProgress.accessed, Option.mem_some_iff] at hacc'
      subst hacc'
      exact mayAccess_of_going (h acc ha) hst
    | read v => simp [hst, UnitProgress.accessed] at hacc'
    | written => simp [hst, UnitProgress.accessed] at hacc'
  · refine ⟨.refl, ?_⟩
    rintro u' ⟨⟩ acc' ⟨⟩
    exact fun _ => startRead_routed s.bus addr
  · refine ⟨.refl, ?_⟩
    rintro u' ⟨⟩ acc' ⟨⟩
    exact fun _ => startWrite_routed s.bus addr v
  · exact ⟨.single (.commit x pc), nofun⟩
  · exact ⟨.single (.halt info), nofun⟩

/-! ### Renders, and the writes finished before them -/

/-- A write with its bytes done is routed as it was before. -/
theorem mayAccess_finished {addr : Addr} {v : Word} {left : List (Fin 4)} {b : AddressSpace}
    (h : Access.memWrite addr v left ∈ s.busAccesses) :
    (s.setBus b).MayAccess (.memWrite addr v []) :=
  fun hr => hr (.memWrite addr v left) h

/-- The activity of the host whose write is finished. -/
theorem hostMay_setAccess {b : AddressSpace} {addr : Addr} {v : Word} {left : List (Fin 4)}
    (h : s.host.busAccess = some (.memWrite addr v left)) :
    (s.setBus b).HostMay (s.host.setAccess (.memWrite addr v [])) := by
  have hfin := mayAccess_finished (b := b) (mem_busAccesses_of_host h)
  cases hh : s.host with
  | access acc => exact State.hostMay_access hfin (by simp [hh])
  | stepping u =>
    exact State.hostMay_stepping (by rintro _ ⟨⟩; exact hfin) (by simp [hh]) (.inr ⟨u, hh⟩)
  | idle => simp [hh, HostActivity.busAccess] at h
  | joining => simp [hh, HostActivity.busAccess] at h
  | rendering r => simp [hh, HostActivity.busAccess] at h

theorem State.moves_finishHostWrite (s : State) : s.Moves o s.finishHostWrite := by
  rcases s.finishHostWrite_cases with e | ⟨addr, v, left, h, e⟩
  · rw [e]
  · rw [e]
    exact (s.moves_setBytes left (mem_busAccesses_of_host h)).tail (.host (hostMay_setAccess h))

theorem State.moves_finishLoopWrite (s : State) : s.Moves o s.finishLoopWrite := by
  rcases s.finishLoopWrite_cases with e | ⟨c, addr, v, left, hc, h, e⟩
  · rw [e]
  · rw [e]
    refine (s.moves_setBytes left (mem_busAccesses_of_ctx hc h)).tail (.loop ?_)
    have hfin := mayAccess_finished (b := s.bus.setBytes addr v left) (mem_busAccesses_of_ctx hc h)
    cases hl : c.activity with
    | stepping u =>
      rintro _ ⟨⟩
      exact hfin
    | idle => exact nofun
    | sampled => exact nofun
    | counting => exact nofun

theorem State.moves_finishWrites (s : State) : s.Moves o s.finishWrites := by
  rcases s.finishWrites_cases with e | ⟨-, e⟩
  · rw [e]
  · rw [e]
    exact s.moves_finishHostWrite.trans s.finishHostWrite.moves_finishLoopWrite

/-- A host that renders has no write to finish. -/
theorem State.readyFor_host {r p : RenderProgress} (h : s.host = .rendering p) :
    (s.readyFor r).host = .rendering p := by
  cases r with
  | reading base unread => exact h
  | whole =>
    have hnone : s.finishHostWrite = s := by
      simp [State.finishHostWrite, h, HostActivity.busAccess]
    simp only [State.readyFor]
    rcases s.finishWrites_cases with e | ⟨-, e⟩ <;> rw [e]
    · exact h
    · rw [hnone]
      rcases s.finishLoopWrite_cases with e | ⟨_, _, _, _, _, _, e⟩ <;> rw [e] <;> exact h

theorem moves_renderAll (s : State) : s.Moves o (renderAll s) :=
  .tail (.single .readFrame) .finish

/-- One event of a render in flight, and what it goes on with. -/
theorem moves_renderEvent {r : RenderProgress} (h : r ∈ s.renders) (pick : Nat) :
    s.Moves o (renderEvent r pick (s.readyFor r)).1 ∧
      ∀ p ∈ (renderEvent r pick (s.readyFor r)).2,
        (renderEvent r pick (s.readyFor r)).1.MayRender p := by
  cases r with
  | whole => exact ⟨s.moves_finishWrites.trans (moves_renderAll _), nofun⟩
  | reading base unread =>
    simp only [renderEvent, State.readyFor]
    split
    · exact ⟨.single .finish, nofun⟩
    · next k hk =>
      refine ⟨.single (.readByte h (pickFrom_mem hk)), ?_⟩
      rintro _ ⟨⟩ hin j hj
      exact hin (.reading base unread) h j (List.mem_of_mem_erase hj)

theorem moves_renderAnswer (a : Agent) (r : Option RenderProgress) (s : State) :
    s.Moves o (renderAnswer a r s) := by
  cases r with
  | none => exact .single (.respond s a _ _)
  | some p => exact .refl

/-! ### The meanings -/

/-- An idle agent that may issue what only the host may issue is the idle host (rules R53, R69). -/
theorem host_idle_of_admitted (hr : i.admitted .refresh = false) (hl : i.admitted .loop = false)
    (ha : i.admitted a = true) (hb : s.busy a = false) : s.host = .idle := by
  cases a with
  | host => simpa [State.busy] using hb
  | refresh => simp [hr] at ha
  | loop => simp [hl] at ha

/-- A meaning is a chain of moves; the framebuffer base is set by its own operation. -/
theorem exec_moves (ho : ∀ addr, i = .setFbBase addr → o = some i) (ha : i.admitted a = true)
    (hb : s.busy a = false) (h : exec i s = .next t) : s.Moves o t := by
  rcases exec_cases h with ⟨v, rfl⟩ | ⟨addr, data, -, rfl⟩ | ⟨-, -, rfl⟩ | ⟨-, -, p, rfl⟩ |
    ⟨rfl, -, rfl⟩ | ⟨rfl, hr, rfl⟩ | ⟨rfl, hs, rfl⟩ | ⟨rfl, hs, rfl⟩ | ⟨-, rfl⟩ | ⟨addr, rfl, rfl⟩ |
    ⟨-, -, -, rfl⟩ | ⟨-, -, hr, rfl⟩
  · exact .single (.respond ..)
  · exact .tail (.single (.bus (.word addr data))) (.respond ..)
  · exact .single (.respond ..)
  · exact (moves_runUnit p s).tail (.respond ..)
  · exact .tail (.single (.spawn (host_idle_of_admitted rfl rfl ha hb))) (.respond ..)
  · exact .single (.stop (host_idle_of_admitted rfl rfl ha hb) hr)
  · refine .tail (.single (.lifecycle (host_idle_of_admitted rfl rfl ha hb) ?_)) (.respond ..)
    simp [ExecutionScheduler.running, hs]
  · refine .tail (.single (.lifecycle (host_idle_of_admitted rfl rfl ha hb) ?_)) (.respond ..)
    simp [ExecutionScheduler.running, hs]
  · exact (moves_renderAll s).tail (.respond ..)
  · exact .tail (.single (.base (ho addr rfl))) (.respond ..)
  · exact (((moves_endWait s).trans (moves_iterationStep _)).tail .count).tail (.respond ..)
  · exact .tail (.single (.exit hr)) (.respond ..)

/-! ### The events of the agents -/

theorem moves_beginIteration (s : State) : s.Moves o (beginIteration s) := by
  refine (moves_endWait s).tail (.loop ?_)
  split <;> nofun

theorem moves_hostEvent (pick : Nat) (s : State) : s.Moves o (hostEvent pick s) := by
  unfold hostEvent
  split
  · exact .refl
  · next acc hh =>
    have hmem : acc ∈ s.busAccesses :=
      mem_busAccesses_of_host (by simp [hh, HostActivity.busAccess])
    have hidle : (s.setBus (accessEvent acc pick s.bus).1).HostMay .idle :=
      State.hostMay_idle (by simp [hh])
    refine (moves_accessEvent hmem pick).trans ?_
    cases hst : (accessEvent acc pick s.bus).2 with
    | going next =>
      exact .single (.host (State.hostMay_access (mayAccess_of_going hmem hst) (by simp [hh])))
    | read v => exact .tail (.single (.host hidle)) (.respond ..)
    | written => exact .tail (.single (.host hidle)) (.respond ..)
  · split
    · exact .refl
    · next hl =>
      exact .tail (.single (.host (State.hostMay_idle fun _ => by simpa using hl))) (.respond ..)
  · next u hh =>
    have hmem : ∀ acc ∈ u.access, acc ∈ s.busAccesses := fun acc hacc =>
      mem_busAccesses_of_host (by simpa [hh, HostActivity.busAccess] using hacc)
    obtain ⟨hmoves, hgoing⟩ := moves_unitEvent (o := o) hmem pick
    have hstep : (unitEvent u pick s).1.host = .stepping u := by rw [unitEvent_frame]; exact hh
    refine hmoves.trans ?_
    cases hst : (unitEvent u pick s).2 with
    | going u' =>
      exact .single (.host (State.hostMay_stepping (hgoing u' hst) (by simp [hstep])
        (.inr ⟨u, hstep⟩)))
    | ended r =>
      exact .tail (.single (.host (State.hostMay_idle (by simp [hstep])))) (.respond ..)
  · next r hh =>
    have hmem : r ∈ s.renders := by simp [State.renders, hh, HostActivity.renderInFlight]
    obtain ⟨hmoves, hgoing⟩ := moves_renderEvent (o := o) hmem pick
    have hrender : (renderEvent r pick (s.readyFor r)).1.host = .rendering r := by
      rw [renderEvent_frame]
      exact State.readyFor_host hh
    refine (hmoves.tail (.host ?_)).trans (moves_renderAnswer ..)
    cases hst : (renderEvent r pick (s.readyFor r)).2 with
    | none => exact State.hostMay_idle (by simp [hrender])
    | some p => exact State.hostMay_rendering (hgoing p hst) (by simp [hrender])

theorem moves_refreshEvent (pick : Nat) (s : State) : s.Moves o (refreshEvent pick s) := by
  unfold refreshEvent
  split
  · exact .refl
  · next r hr =>
    have hmem : r ∈ s.renders := by simp [State.renders, hr]
    obtain ⟨hmoves, hgoing⟩ := moves_renderEvent (o := o) hmem pick
    exact (hmoves.tail (.refresh hgoing)).trans (moves_renderAnswer ..)

theorem moves_loopEvent (pick : Nat) (s : State) : s.Moves o (loopEvent pick s) := by
  unfold loopEvent
  split
  · exact .refl
  · next c hc =>
    split
    · split
      · exact moves_beginIteration s
      · next hr => exact .tail (.single (.exit (by simpa using hr))) (.respond ..)
    · refine .single (.loop ?_)
      split <;> nofun
    · next u hact =>
      have hmem : ∀ acc ∈ u.access, acc ∈ s.busAccesses := fun acc hacc =>
        mem_busAccesses_of_ctx hc (by simpa [hact, LoopActivity.busAccess] using hacc)
      obtain ⟨hmoves, hgoing⟩ := moves_unitEvent (o := o) hmem pick
      refine hmoves.trans ?_
      cases hst : (unitEvent u pick s).2 with
      | going u' => exact .single (.loop (hgoing u' hst))
      | ended r => exact .single (.loop nofun)
    · exact .tail (.single .count) (.respond ..)

/-- An event of an agent is a chain of moves. -/
theorem moves_runEvent (a : Agent) (pick : Nat) (s : State) : s.Moves o (runEvent a pick s) := by
  cases a with
  | host => exact moves_hostEvent pick s
  | refresh => exact moves_refreshEvent pick s
  | loop => exact moves_loopEvent pick s

/-! ### Turns and steps -/

theorem runInstr_moves (ho : ∀ addr, i = .setFbBase addr → o = some i)
    (ha : i.admitted a = true) (hb : s.busy a = false) (h : runInstr a i s = .next t) :
    s.Moves o t := by
  rcases runInstr_cases h with ⟨rfl, h⟩ | ⟨h, -⟩
  · cases h
    exact ((s.moves_finishWrites.tail (.issuer _ a)).trans (moves_renderAll _)).tail (.respond ..)
  · exact .head (.issuer s a) (exec_moves ho (s := { s with issuer := a }) ha hb h)

/-- The start of a render has the bytes of the output buffer to read. -/
theorem State.mayRender_startOfRender (s : State) : s.MayRender s.startOfRender := by
  intro _
  unfold State.startOfRender
  split
  · exact fun k hk => List.mem_range.mp hk
  · trivial

theorem issueInstr_moves (ha : i.admitted a = true) (hb : s.busy a = false)
    (h : issueInstr a i s = .next t) : s.Moves (some i) t := by
  rcases issueInstr_cases h with ⟨acc, hacc, rfl⟩ | ⟨rfl, hl, -, rfl⟩ | ⟨rfl, rfl⟩ |
    ⟨-, -, -, rfl⟩ | h
  · have hidle : s.host = .idle := by
      rcases hacc with ⟨addr, rfl, -⟩ | ⟨addr, data, rfl, -⟩ <;>
        exact host_idle_of_admitted rfl rfl ha hb
    have hrouted : acc.Routed s.bus := by
      rcases hacc with ⟨addr, -, rfl⟩ | ⟨addr, data, -, rfl⟩
      · exact startRead_routed s.bus addr
      · exact startWrite_routed s.bus addr data
    exact .single (.host (State.hostMay_access (fun _ => hrouted) (by simp [hidle])))
  · have hidle : s.host = .idle := host_idle_of_admitted rfl rfl ha hb
    exact .single (.host (State.hostMay_stepping nofun (by simp [hidle]) (.inl hl)))
  · cases a with
    | host =>
      have hidle : s.host = .idle := by simpa [State.busy] using hb
      exact .single (.host (State.hostMay_rendering s.mayRender_startOfRender (by simp [hidle])))
    | refresh => exact .single (.refresh (by rintro _ ⟨⟩; exact s.mayRender_startOfRender))
    | loop => exact .refl
  · exact moves_beginIteration s
  · exact runInstr_moves (fun _ _ => rfl) ha hb h

/-- A command word at the head of the schedule, decoded for an agent that may issue it. -/
theorem State.nextIs_of_turn {u : Turn} {rest : List Turn} {w : CommandWord}
    (hs : s.schedule = u :: rest) (hu : u = .command a w ∨ u = .issue a w)
    (hd : decodeFor a w = some i) : s.NextIs a i ∧ i.admitted a = true := by
  obtain ⟨hdec, hadm⟩ := decodeFor_admitted hd
  exact ⟨⟨w, rest, by rcases hu with rfl | rfl <;> simp [hs], hdec⟩, hadm⟩

/-- What a step's turn is for its moves: a command of an agent that may issue it, or no command. -/
def State.TurnOf (s : State) (o : Option Instr) : Prop :=
  ∀ i, o = some i → ∃ a, s.NextIs a i ∧ i.admitted a = true

/-- A step is a chain of moves, of the operation that its turn commands, if any. -/
theorem step_moves (h : step s = .next t) : ∃ o, s.TurnOf o ∧ s.Moves o t := by
  rcases step_cases h with ⟨-, rfl⟩ | ⟨-, pick, d, rfl⟩ | ⟨u, rest, hs, h⟩
  · exact ⟨none, nofun, .refl⟩
  · exact ⟨none, nofun, (s.moves_tick d).trans (moves_runEvent _ pick _)⟩
  · have hcommand : ∀ {a w i}, (u = .command a w ∨ u = .issue a w) → decodeFor a w = some i →
        s.TurnOf (some i) := by
      rintro a w i hu hd _ ⟨⟩
      exact ⟨a, State.nextIs_of_turn hs hu hd⟩
    rcases runTurn_cases h with ⟨a, w, -, -, -, rfl⟩ | ⟨a, w, i, hu, hb, hd, h⟩ |
      ⟨a, w, i, hu, hb, hd, h⟩ | ⟨a, pick, -, rfl⟩ | ⟨-, hb, rfl | h | h⟩ | ⟨d, -, rfl⟩
    · exact ⟨none, nofun, .tail (.single (.schedule s rest)) (.respond ..)⟩
    · exact ⟨some i, hcommand hu hd,
        .head (.schedule s rest) (runInstr_moves (fun _ _ => rfl) (decodeFor_admitted hd).2 hb h)⟩
    · exact ⟨some i, hcommand (.inr hu) hd,
        .head (.schedule s rest) (issueInstr_moves (decodeFor_admitted hd).2 hb h)⟩
    · exact ⟨none, nofun, .head (.schedule s rest) (moves_runEvent a pick _)⟩
    · exact ⟨none, nofun, .single (.schedule s rest)⟩
    · exact ⟨none, nofun, .head (.schedule s rest) (runInstr_moves (by rintro _ ⟨⟩) rfl hb h)⟩
    · exact ⟨none, nofun, .head (.schedule s rest) (runInstr_moves (by rintro _ ⟨⟩) rfl hb h)⟩
    · exact ⟨none, nofun, .head (.schedule s rest) (State.moves_advanceClock _ d)⟩

/-- An invariant that every move keeps is kept by every step. -/
theorem step_keeps {P : State → Prop} (hP : ∀ o u v, Move o u v → P u → P v)
    (h : step s = .next t) (hs : P s) : P t := by
  obtain ⟨o, -, hmoves⟩ := step_moves h
  exact hmoves.keeps (hP o) hs

end Sys2Proof.Machine

/-! PROOF. The stores keep their canonical form and their bounds (rules R19, R20, R23, R41, R42,
R44, R112). -/

namespace Sys2Proof.Machine

variable {o : Option Instr} {s t : State} {b c : AddressSpace}

/-! ### The bus -/

/-- The part of the storage invariant that speaks of the bus alone. -/
structure AddressSpace.Canonical (b : AddressSpace) : Prop where
  mem_wf : Memory.wf b.mem
  mem_inside : ∀ c ∈ b.mem, c.1 + 1 < b.size
  reg_wf : Memory.wf b.reg
  reg_outside : ∀ c ∈ b.reg, b.bound ≤ c.1 ∧ c.1 < 2 ^ 32

/-- A byte below the last one of main memory is written (rule R44). -/
theorem AddressSpace.Canonical.setByteAt (h : b.Canonical) {a : Nat} (ha : a + 1 < b.size)
    (v : Byte) : (b.setByteAt a v).Canonical where
  mem_wf := Memory.wf_set h.mem_wf
  mem_inside := by
    intro c hc
    rcases Memory.mem_set hc with ⟨rfl, -⟩ | hc
    · exact ha
    · exact h.mem_inside c hc
  reg_wf := h.reg_wf
  reg_outside := h.reg_outside

/-- A cell of register space is written (rules R19, R42). -/
theorem AddressSpace.Canonical.setCellAt (h : b.Canonical) {a : Addr}
    (ha : b.toMemory a = false) (v : Word) : (b.setCellAt a.toNat v).Canonical where
  mem_wf := h.mem_wf
  mem_inside := h.mem_inside
  reg_wf := Memory.wf_set h.reg_wf
  reg_outside := by
    intro c hc
    rcases Memory.mem_set hc with ⟨rfl, -⟩ | hc
    · exact ⟨AddressSpace.toMemory_false_iff.mp ha, a.isLt⟩
    · exact h.reg_outside c hc

/-- The bytes of an access to main memory are below the last one (rules R41, R44). -/
theorem AddressSpace.byte_inside {a : Addr} (ha : b.toMemory a = true) {k : Nat} (hk : k < 4) :
    a.toNat + k + 1 < b.size := by
  have := AddressSpace.toMemory_iff.mp ha
  omega

theorem AddressSpace.Canonical.write32 (h : b.Canonical) (a : Addr) (v : Word) :
    (b.write32 a v).Canonical := by
  unfold AddressSpace.write32
  split
  · next ha =>
    have hin : ∀ k < 4, a.toNat + k + 1 < b.size := fun k hk => AddressSpace.byte_inside ha hk
    exact (((h.setByteAt (hin 0 (by decide)) _).setByteAt (hin 1 (by decide)) _).setByteAt
      (hin 2 (by decide)) _).setByteAt (hin 3 (by decide)) _
  · next ha => exact h.setCellAt (by simpa using ha) v

theorem AddressSpace.Write.size {accs : List Access} (h : b.Write accs c) : c.size = b.size := by
  cases h with
  | byte => rfl
  | cell => rfl
  | word addr v => exact AddressSpace.write32_size b addr v

/-- A write of an access routed by the decoder keeps the stores. -/
theorem AddressSpace.Write.canonical {accs : List Access} (h : b.Write accs c)
    (hr : ∀ acc ∈ accs, acc.Routed b) (hb : b.Canonical) : c.Canonical := by
  cases h with
  | byte k hmem => exact hb.setByteAt (AddressSpace.byte_inside (hr _ hmem) k.isLt) _
  | cell hmem => exact hb.setCellAt (hr _ hmem) _
  | word addr v => exact hb.write32 addr v

/-! ### The video unit -/

/-- The part of the storage invariant that speaks of the output buffer alone. -/
structure VideoUnit.Canonical (v : VideoUnit) : Prop where
  buffer_wf : Memory.wf v.outputBuffer
  buffer_inside : ∀ c ∈ v.outputBuffer, c.1 < v.fbSize

theorem VideoUnit.length_raster (v : VideoUnit) : v.raster.length = v.width * v.height := by
  simp [VideoUnit.raster]

theorem renderByte_canonical (hv : s.video.Canonical) (base : Addr) {k : Nat}
    (hk : k < s.video.fbSize) : (renderByte base k s).video.Canonical where
  buffer_wf := Memory.wf_set hv.buffer_wf
  buffer_inside := by
    intro c hc
    rcases Memory.mem_set hc with ⟨rfl, -⟩ | hc
    · exact hk
    · exact hv.buffer_inside c hc

theorem renderBytes_canonical (hb : s.bus.Canonical) : (renderBytes s).video.Canonical where
  buffer_wf := Memory.wf_window hb.mem_wf
  buffer_inside := fun _ hc => Memory.mem_window hc

/-! ### The whole -/

theorem State.storageInv_iff : s.StorageInv ↔ s.bus.Canonical ∧ s.video.Canonical ∧
    (∀ px ∈ s.sink, px.length = s.video.width * s.video.height) ∧ s.AccessesRouted ∧
    s.RendersInside :=
  ⟨fun h => ⟨⟨h.mem_wf, h.mem_inside, h.reg_wf, h.reg_outside⟩, ⟨h.buffer_wf, h.buffer_inside⟩,
      h.sink_size, h.routed, h.inside⟩,
    fun ⟨hb, hv, hsink, hacc, hren⟩ => ⟨hb.mem_wf, hb.mem_inside, hb.reg_wf, hb.reg_outside,
      hv.buffer_wf, hv.buffer_inside, hsink, hacc, hren⟩⟩

theorem State.accessesRouted_iff : s.AccessesRouted ↔
    (∀ acc ∈ s.host.busAccess, acc.Routed s.bus) ∧
      ∀ c ∈ s.sched.ctx, ∀ acc ∈ c.activity.busAccess, acc.Routed s.bus := by
  simp only [State.AccessesRouted, State.busAccesses, List.forall_mem_append, Option.mem_toList]
  refine and_congr_right fun _ => ?_
  cases s.sched.ctx <;> simp

theorem State.rendersInside_iff : s.RendersInside ↔
    (∀ r ∈ s.host.renderInFlight, r.Inside s.video.fbSize) ∧
      ∀ r ∈ s.refresh, r.Inside s.video.fbSize := by
  simp only [State.RendersInside, State.renders, List.forall_mem_append, Option.mem_toList,
    Option.mem_def]

/-- Beside a loop agent between two iterations only the host has an access in flight. -/
theorem State.AccessesRouted.of_loop_idle (h : s.AccessesRouted) (hb : t.bus = s.bus)
    (hh : t.host = s.host) (hc : ∀ c ∈ t.sched.ctx, c.activity = .idle) : t.AccessesRouted := by
  refine State.accessesRouted_iff.mpr ⟨?_, fun c hmem => ?_⟩
  · rw [hb, hh]
    exact (State.accessesRouted_iff.mp h).1
  · rw [hc c hmem]
    exact nofun

theorem countFrame_loop_idle (s : State) : ∀ c ∈ (countFrame s).sched.ctx, c.activity = .idle := by
  rcases countFrame_sched_cases s with ⟨hc, e⟩ | ⟨c, -, ⟨-, e⟩ | e⟩ <;> rw [e]
  · rw [hc]
    exact nofun
  · rintro _ ⟨⟩
    rfl
  · rintro _ ⟨⟩
    rfl

/-- Every move keeps the storage invariant. -/
theorem Move.storageInv (h : Move o s t) (hs : s.StorageInv) : t.StorageInv := by
  obtain ⟨hb, hv, hsink, hacc, hren⟩ := State.storageInv_iff.mp hs
  refine State.storageInv_iff.mpr ?_
  cases h with
  | record | wait | commit | halt | lifecycle => exact ⟨hb, hv, hsink, hacc, hren⟩
  | bus hw =>
    exact ⟨hw.canonical hacc hb, hv, hsink, (State.accessesRouted_setBus hw.size).mpr hacc, hren⟩
  | spawn =>
    exact ⟨hb, hv, hsink, hacc.of_loop_idle rfl rfl (by rintro _ ⟨⟩; rfl), hren⟩
  | stop =>
    unfold awaitLoop
    split
    · exact ⟨hb, hv, hsink,
        State.accessesRouted_iff.mpr ⟨nofun, (State.accessesRouted_iff.mp hacc).2⟩,
        State.rendersInside_iff.mpr ⟨nofun, (State.rendersInside_iff.mp hren).2⟩⟩
    · exact ⟨hb, hv, hsink, hacc, hren⟩
  | count =>
    exact ⟨by simpa using hb, by simpa using hv, by simpa using hsink,
      hacc.of_loop_idle (countFrame_bus s) (countFrame_host s) (countFrame_loop_idle s),
      by simpa [State.RendersInside, State.renders] using hren⟩
  | exit => exact ⟨hb, hv, hsink, hacc.of_loop_idle rfl rfl nofun, hren⟩
  | readByte hmem hk =>
    exact ⟨hb, renderByte_canonical hv _ (hren _ hmem _ hk), hsink, hacc, hren⟩
  | readFrame => exact ⟨hb, renderBytes_canonical hb, hsink, hacc, hren⟩
  | finish =>
    refine ⟨hb, ⟨hv.buffer_wf, hv.buffer_inside⟩, ?_, hacc, hren⟩
    rintro _ ⟨⟩
    exact s.video.length_raster
  | base => exact ⟨hb, ⟨hv.buffer_wf, hv.buffer_inside⟩, hsink, hacc, hren⟩
  | host hm =>
    refine ⟨hb, hv, hsink, State.accessesRouted_iff.mpr ⟨fun acc h => hm.access acc h hacc, ?_⟩,
      State.rendersInside_iff.mpr ⟨fun r h => hm.render r h hren, ?_⟩⟩
    · exact (State.accessesRouted_iff.mp hacc).2
    · exact (State.rendersInside_iff.mp hren).2
  | loop hm =>
    refine ⟨hb, hv, hsink,
      State.accessesRouted_iff.mpr ⟨(State.accessesRouted_iff.mp hacc).1, ?_⟩, hren⟩
    rintro _ hc acc h
    obtain ⟨c, -, rfl⟩ := Option.map_eq_some_iff.mp hc
    exact hm acc h hacc
  | refresh hm =>
    exact ⟨hb, hv, hsink, hacc, State.rendersInside_iff.mpr
      ⟨(State.rendersInside_iff.mp hren).1, fun r h => hm r h hren⟩⟩

/-- Settles O52: every move of a step keeps the invariant. -/
theorem storageInvKept : Obligations.StorageInvKept := by
  intro s t hs h
  exact step_keeps (fun _ _ _ hm => hm.storageInv) h hs

/-- Settles O53: a new session's stores are empty and nothing is in flight. -/
theorem storageInvAtReset : Obligations.StorageInvAtReset :=
  State.storageInv_iff.mpr ⟨⟨Memory.wf_nil, nofun, Memory.wf_nil, nofun⟩,
    ⟨Memory.wf_nil, nofun⟩, nofun, nofun, nofun⟩

end Sys2Proof.Machine

/-! PROOF. Flags, lifecycle and activities agree (rules R15, R29, R93, R127, R132, R162, R170). -/

namespace Sys2Proof.Machine

variable {o : Option Instr} {s t : State}

/-- The control invariant speaks of the processor's flags, of the lifecycle and the presence of a
context, and of the host. -/
theorem State.ControlInv.of_eq (hs : s.ControlInv) (hcpu : t.cpu = s.cpu)
    (hstate : t.sched.schedState = s.sched.schedState) (hlive : t.sched.ctxLive = s.sched.ctxLive)
    (hhost : t.host = s.host) : t.ControlInv := by
  have hrun : t.sched.running = s.sched.running := by simp [ExecutionScheduler.running, hstate]
  exact ⟨by rw [hcpu, hrun]; exact hs.isRunning_eq, by rw [hrun, hlive]; exact hs.running_live,
    by rw [hrun, hlive, hhost]; exact hs.leaving_joins,
    by rw [hhost, hstate]; exact hs.joining_stopped,
    by rw [hhost, hlive]; exact hs.stepping_alone, by rw [hcpu]; exact hs.halted_cause⟩

/-- The halt entry clears `isRunning` and sets `halted`, whatever the lifecycle (rule R162). -/
theorem State.ControlInv.haltEntry (hs : s.ControlInv) (info : List Word) :
    (haltEntry info s).ControlInv :=
  { hs with
    isRunning_eq := by simp [ProcessorUnit.haltedWith]
    halted_cause := fun _ => rfl }

/-- A fresh context of an idle host (rule R126). -/
theorem State.ControlInv.spawnLoop (h : s.host = .idle) : (spawnLoop s).ControlInv where
  isRunning_eq := rfl
  running_live _ := rfl
  leaving_joins _ := nofun
  joining_stopped := by simp [h]
  stepping_alone := by simp [h]
  halted_cause := nofun

/-- The signal of a `STOP` finds a context, for which the host then waits (rule R127). -/
theorem State.ControlInv.stop (hs : s.ControlInv) (hr : s.sched.running = true) :
    (awaitLoop (stopSignal s)).ControlInv := by
  have hlive : (stopSignal s).sched.ctxLive = true := hs.running_live hr
  rw [awaitLoop, if_pos hlive]
  exact ⟨rfl, nofun, fun _ _ => rfl, fun _ => rfl, nofun, hs.halted_cause⟩

/-- A `PAUSE` or `RESUME` of an idle host (rules R128, R129). -/
theorem State.ControlInv.setSched (hs : s.ControlInv) {st : SchedState} (h : s.host = .idle)
    (hr : (s.setSched st).sched.running = s.sched.running) : (s.setSched st).ControlInv where
  isRunning_eq := by rw [hr]; exact hs.isRunning_eq
  running_live := by rw [hr]; exact hs.running_live
  leaving_joins := by rw [hr]; exact hs.leaving_joins
  joining_stopped := by simp [h]
  stepping_alone := hs.stepping_alone
  halted_cause := hs.halted_cause

/-- The loop agent leaves after `running` has become false (rule R145). -/
theorem State.ControlInv.endLoop (hs : s.ControlInv) (hr : s.sched.running = false) :
    (endLoop s).ControlInv where
  isRunning_eq := hs.isRunning_eq
  running_live h := absurd (hr.symm.trans h) nofun
  leaving_joins := nofun
  joining_stopped := hs.joining_stopped
  stepping_alone _ _ := rfl
  halted_cause := hs.halted_cause

/-- What the host may do next agrees with the flags and the lifecycle. -/
theorem State.ControlInv.setHost (hs : s.ControlInv) {h : HostActivity} (hm : s.HostMay h) :
    (s.setHost h).ControlInv where
  isRunning_eq := hs.isRunning_eq
  running_live := hs.running_live
  leaving_joins hl hr := by
    have hdead : s.sched.ctxLive = false := hm.joined (hs.leaving_joins hl hr)
    exact absurd hl (by simp [hdead])
  joining_stopped hj := absurd hj hm.not_joining
  stepping_alone u hu := by
    rcases hm.stepping u hu with hdead | ⟨v, hv⟩
    · exact hdead
    · exact hs.stepping_alone v hv
  halted_cause := hs.halted_cause

/-- Every move keeps the control invariant. -/
theorem Move.controlInv (h : Move o s t) (hs : s.ControlInv) : t.ControlInv := by
  cases h with
  | halt info => exact hs.haltEntry info
  | spawn hidle => exact .spawnLoop hidle
  | stop _ hr => exact hs.stop hr
  | lifecycle hidle hr => exact hs.setSched hidle hr
  | exit hr => exact hs.endLoop hr
  | host hm => exact hs.setHost hm
  | count =>
    obtain ⟨hstate, hlive⟩ := countFrame_control s
    exact hs.of_eq (countFrame_cpu s) hstate hlive (countFrame_host s)
  | loop => exact hs.of_eq rfl rfl (by simp [ExecutionScheduler.ctxLive]) rfl
  | commit => exact { hs with }
  | record | wait | bus | readByte | readFrame | finish | base | refresh =>
    exact hs.of_eq rfl rfl rfl rfl

/-- Settles O54: every move of a step keeps the invariant. -/
theorem controlInvKept : Obligations.ControlInvKept := by
  intro s t hs h
  exact step_keeps (fun _ _ _ hm => hm.controlInv) h hs

/-- Settles O55: a new session is `Idle`, not running, and has no context. -/
theorem controlInvAtReset : Obligations.ControlInvAtReset :=
  ⟨rfl, nofun, nofun, nofun, nofun, nofun⟩

end Sys2Proof.Machine

/-! PROOF. The frame timer and the wall clock (rules R30, R71, R141, R143, R144). -/

namespace Sys2Proof.Machine

variable {o : Option Instr} {s t : State}

/-- The timer invariant speaks of the rate, the delay, the clock and the two readings in the
context; a later clock keeps it. -/
theorem State.TimerInv.of_later (hs : s.TimerInv)
    (hrate : t.sched.measuredRate = s.sched.measuredRate) (hsession : t.session = s.session)
    (hclock : s.clock ≤ t.clock)
    (hctx : ∀ d ∈ t.sched.ctx, ∃ c ∈ s.sched.ctx, d.t0 = c.t0 ∧ d.idleUntil = c.idleUntil) :
    t.TimerInv where
  rate_nonneg := hrate ▸ hs.rate_nonneg
  delay_pos := hsession ▸ hs.delay_pos
  window_started d hd := by
    obtain ⟨c, hc, ht0, -⟩ := hctx d hd
    exact ht0 ▸ (hs.window_started c hc).trans hclock
  wait_bounded d hd := by
    obtain ⟨c, hc, -, hidle⟩ := hctx d hd
    rw [hsession, hidle]
    exact (hs.wait_bounded c hc).trans (by gcongr)

/-- A fresh context's window starts now (rule R126). -/
theorem State.TimerInv.spawnLoop (hs : s.TimerInv) : (spawnLoop s).TimerInv where
  rate_nonneg := hs.rate_nonneg
  delay_pos := hs.delay_pos
  window_started := by rintro _ ⟨⟩; exact le_rfl
  wait_bounded := by rintro _ ⟨⟩; exact le_add_of_nonneg_right hs.delay_pos.le

/-- A full window is at least a second long, so its rate is not negative, and the next one starts
now (rules R142 to R144). -/
theorem State.TimerInv.countFrame (hs : s.TimerInv) : (countFrame s).TimerInv := by
  rcases countFrame_sched_cases s with ⟨hc, e⟩ | ⟨c, hc, ⟨hfull, e⟩ | e⟩
  · exact hs.of_later (by simp [e]) (by simp) (by simp) (by simp [e, hc])
  · refine ⟨?_, by simpa using hs.delay_pos, ?_, ?_⟩ <;> simp only [e]
    · exact div_nonneg (Nat.cast_nonneg _) (zero_le_one.trans hfull)
    · rintro _ ⟨⟩
      simp
    · rintro _ ⟨⟩
      simp
  · refine ⟨?_, by simpa using hs.delay_pos, ?_, ?_⟩ <;> simp only [e]
    · exact hs.rate_nonneg
    · rintro _ ⟨⟩
      simpa using hs.window_started c hc
    · rintro _ ⟨⟩
      simp

/-- Every move keeps the timer invariant and sets no clock back. -/
theorem Move.timerInv (h : Move o s t) (hs : s.TimerInv) : t.TimerInv ∧ s.clock ≤ t.clock := by
  cases h with
  | wait hc => exact ⟨hs.of_later rfl rfl hc fun d hd => ⟨d, hd, rfl, rfl⟩, hc⟩
  | spawn => exact ⟨hs.spawnLoop, le_rfl⟩
  | count => exact ⟨hs.countFrame, by simp⟩
  | exit => exact ⟨hs.of_later rfl rfl le_rfl nofun, le_rfl⟩
  | loop =>
    refine ⟨hs.of_later rfl rfl le_rfl ?_, le_rfl⟩
    intro d hd
    obtain ⟨c, hc, rfl⟩ := Option.map_eq_some_iff.mp hd
    exact ⟨c, hc, rfl, rfl⟩
  | stop =>
    unfold awaitLoop
    split <;> exact ⟨hs.of_later rfl rfl le_rfl fun d hd => ⟨d, hd, rfl, rfl⟩, le_rfl⟩
  | record | bus | commit | halt | lifecycle | readByte | readFrame | finish | base | host
  | refresh =>
    exact ⟨hs.of_later rfl rfl le_rfl fun d hd => ⟨d, hd, rfl, rfl⟩, le_rfl⟩

/-- Settles O56: every move of a step keeps the invariant and the clock, and a `SLEEP` is the
advance of the clock alone. -/
theorem timerInvKept : Obligations.TimerInvKept := by
  constructor
  · intro s t hs h
    refine step_keeps (P := fun u => u.TimerInv ∧ s.clock ≤ u.clock) ?_ h ⟨hs, le_rfl⟩
    rintro o u v hm ⟨hu, hle⟩
    obtain ⟨hv, hstep⟩ := hm.timerInv hu
    exact ⟨hv, hle.trans hstep⟩
  · intro s d rest hs
    rw [step, hs]
    rfl

/-- `LOOP_DELAY` is positive by its form (rule R6). -/
theorem loopDelay_pos : 0 < Config.loopDelay := by
  unfold Config.loopDelay
  positivity

/-- Settles O57: a new session has no context, the rate 0, and the delay of the configuration. -/
theorem timerInvAtReset : Obligations.TimerInvAtReset :=
  ⟨le_rfl, loopDelay_pos, nofun, nofun⟩

end Sys2Proof.Machine

/-! PROOF. The writers of the processor's registers and of `isRunning` (rules R11, R15, R16, R91,
R96, R162): all that a step can do to the processor, with the turn that does it. -/

namespace Sys2Proof.Machine

variable {s t : State} {a : Agent} {i : Instr}

/-! ### What a step can do to the processor -/

/-- A unit of work ends: the commit of registers and `pc` (rule R96), or the halt entry with the bus
and the lifecycle as they were (rules R162, R163). -/
def State.UnitEnds (s t : State) : Prop :=
  (∃ x pc, t.cpu = { s.cpu with x := x, pc := pc }) ∨
    ∃ info, t.cpu = s.cpu.haltedWith info ∧ t.bus = s.bus ∧
      t.sched.schedState = s.sched.schedState

/-- Agent `a` has a `STEP` in flight. -/
def State.StepInFlight (s : State) (a : Agent) : Prop :=
  (a = .host ∧ ∃ u, s.host = .stepping u) ∨
    (a = .loop ∧ ∃ c ∈ s.sched.ctx, ∃ u, c.activity = .stepping u)

theorem State.UnitEnds.runUnit (p : ExecProg) (s : State) : s.UnitEnds (runUnit p s).1 := by
  rcases runUnit_cases p s with ⟨x, pc, n, h⟩ | ⟨info, h⟩ <;> rw [h]
  · exact .inl ⟨x, pc, rfl⟩
  · exact .inr ⟨info, rfl, rfl, rfl⟩

/-- The `STEP` of an iteration ends a unit of work, or leaves the processor alone. -/
theorem iterationStep_cpu (s : State) : (iterationStep s).cpu = s.cpu ∨
    (s.cpu.isRunning = true ∧ s.UnitEnds (iterationStep s)) := by
  unfold iterationStep stepUnit
  split_ifs with hp hr
  · exact .inl rfl
  · exact .inr ⟨hr, .runUnit s.execProg s⟩
  · exact .inl rfl

/-- The processor, the bus and the lifecycle are all that the end of a unit of work speaks of. -/
theorem State.UnitEnds.of_eq {s' t' : State} (h : s.UnitEnds t) (hscpu : s'.cpu = s.cpu)
    (hsbus : s'.bus = s.bus) (hsstate : s'.sched.schedState = s.sched.schedState)
    (htcpu : t'.cpu = t.cpu) (htbus : t'.bus = t.bus)
    (htstate : t'.sched.schedState = t.sched.schedState) : s'.UnitEnds t' := by
  unfold State.UnitEnds
  rw [hscpu, hsbus, hsstate, htcpu, htbus, htstate]
  exact h

/-- What a command `i` does to the processor: nothing, the flags of a `START` or a `STOP`, or the
end of a unit of work. -/
inductive CommandOnCpu (s t : State) (i : Instr) : Prop
  | kept (h : t.cpu = s.cpu)
  | start (hi : i = .start) (hs : s.sched.schedState = .idle ∨ s.sched.schedState = .stopped)
      (hcpu : t.cpu = s.cpu.started) (ht : t.sched.schedState = .running)
  | stop (hi : i = .stop) (hs : s.sched.running = true) (hcpu : t.cpu = s.cpu.stopped)
      (ht : t.sched.schedState = .stopped)
  | unit (hi : i = .step ∨ i = .loopIter ∨ ∃ iw, i = .insn iw) (hr : s.cpu.isRunning = true)
      (hu : s.UnitEnds t)

/-- Processor, bus and scheduler are all of the state before that it speaks of. -/
theorem CommandOnCpu.of_eq {s' : State} (h : CommandOnCpu s t i) (hcpu : s'.cpu = s.cpu)
    (hbus : s'.bus = s.bus) (hsched : s'.sched = s.sched) : CommandOnCpu s' t i := by
  cases h with
  | kept h => exact .kept (h.trans hcpu.symm)
  | start hi hs hc ht => exact .start hi (hsched ▸ hs) (hcpu ▸ hc) ht
  | stop hi hs hc ht => exact .stop hi (hsched ▸ hs) (hcpu ▸ hc) ht
  | unit hi hr hu =>
    exact .unit hi (hcpu ▸ hr) (hu.of_eq hcpu hbus (congrArg _ hsched) rfl rfl rfl)

/-- All that a meaning can do to the processor. -/
theorem exec_cpu (h : exec i s = .next t) : CommandOnCpu s t i := by
  rcases exec_cases h with ⟨v, rfl⟩ | ⟨addr, data, -, rfl⟩ | ⟨-, -, rfl⟩ | ⟨hi, hr, p, rfl⟩ |
    ⟨rfl, hs, rfl⟩ | ⟨rfl, hr, rfl⟩ | ⟨-, -, rfl⟩ | ⟨-, -, rfl⟩ | ⟨-, rfl⟩ | ⟨addr, -, rfl⟩ |
    ⟨rfl, -, -, rfl⟩ | ⟨-, -, -, rfl⟩
  · exact .kept rfl
  · exact .kept rfl
  · exact .kept rfl
  · exact .unit (hi.imp_right .inr) hr (.runUnit p s)
  · exact .start rfl hs rfl rfl
  · unfold awaitLoop
    split <;> exact .stop rfl hr rfl rfl
  · exact .kept rfl
  · exact .kept rfl
  · exact .kept rfl
  · exact .kept rfl
  · rcases iterationStep_cpu (endWait s) with hc | ⟨hr, hu⟩
    · exact .kept (by simpa using hc)
    · exact .unit (.inr (.inl rfl)) (by simpa using hr)
        (hu.of_eq (by simp) (by simp) (by simp) (by simp) (by simp)
          (countFrame_control (iterationStep (endWait s))).1)
  · exact .kept rfl

theorem unitEvent_cpu (u : UnitProgress) (pick : Nat) (s : State) :
    (unitEvent u pick s).1.cpu = s.cpu ∨ s.UnitEnds (unitEvent u pick s).1 := by
  rcases unitEvent_cases u pick s with ⟨acc, -, e⟩ | ⟨addr, -, e⟩ | ⟨addr, v, -, e⟩ |
    ⟨x, pc, n, -, e⟩ | ⟨info, -, e⟩ <;> rw [e]
  · exact .inl rfl
  · exact .inl rfl
  · exact .inl rfl
  · exact .inr (.inl ⟨x, pc, rfl⟩)
  · exact .inr (.inr ⟨info, rfl, rfl, rfl⟩)

theorem renderEvent_readyFor_cpu (r : RenderProgress) (pick : Nat) (s : State) :
    (renderEvent r pick (s.readyFor r)).1.cpu = s.cpu := by
  rw [renderEvent_frame, State.readyFor_frame]

theorem renderAnswer_cpu (a : Agent) (r : Option RenderProgress) (s : State) :
    (renderAnswer a r s).cpu = s.cpu := by
  cases r <;> rfl

theorem hostEvent_cpu (pick : Nat) (s : State) : (hostEvent pick s).cpu = s.cpu ∨
    (s.StepInFlight .host ∧ s.UnitEnds (hostEvent pick s)) := by
  unfold hostEvent
  split
  · exact .inl rfl
  · left
    unfold hostAccessed
    split <;> rfl
  · left
    split <;> rfl
  · next u hh =>
    have hfly : s.StepInFlight .host := .inl ⟨rfl, u, hh⟩
    unfold hostStepped
    rcases unitEvent_cpu u pick s with hc | hu
    · left
      split <;> exact hc
    · right
      split <;> exact ⟨hfly, hu.of_eq rfl rfl rfl rfl rfl rfl⟩
  · next r _ =>
    exact .inl ((renderAnswer_cpu ..).trans (renderEvent_readyFor_cpu r pick s))

theorem loopEvent_cpu (pick : Nat) (s : State) : (loopEvent pick s).cpu = s.cpu ∨
    (s.StepInFlight .loop ∧ s.UnitEnds (loopEvent pick s)) := by
  unfold loopEvent
  split
  · exact .inl rfl
  · next c hc =>
    split
    · left
      split
      · exact endWait_cpu s
      · rfl
    · exact .inl rfl
    · next u hact =>
      have hfly : s.StepInFlight .loop := .inr ⟨rfl, c, hc, u, hact⟩
      unfold loopStepped
      rcases unitEvent_cpu u pick s with hcpu | hu
      · left
        split <;> exact hcpu
      · right
        split <;> exact ⟨hfly, hu.of_eq rfl rfl rfl rfl rfl rfl⟩
    · exact .inl (countFrame_cpu s)

/-- All that an event can do to the processor. -/
theorem runEvent_cpu (a : Agent) (pick : Nat) (s : State) : (runEvent a pick s).cpu = s.cpu ∨
    (s.StepInFlight a ∧ s.UnitEnds (runEvent a pick s)) := by
  cases a with
  | host => exact hostEvent_cpu pick s
  | loop => exact loopEvent_cpu pick s
  | refresh =>
    left
    simp only [runEvent]
    rw [refreshEvent_frame]

theorem runInstr_cpu (h : runInstr a i s = .next t) : CommandOnCpu s t i := by
  rcases runInstr_cases h with ⟨rfl, h⟩ | ⟨h, -⟩
  · cases h
    refine .kept ?_
    rw [s.finishWrites_frame]
    rfl
  · exact (exec_cpu h).of_eq rfl rfl rfl

/-- The start of an operation that is not run at once leaves the processor alone. -/
theorem issueInstr_cpu (h : issueInstr a i s = .next t) : CommandOnCpu s t i := by
  rcases issueInstr_cases h with ⟨acc, -, rfl⟩ | ⟨-, -, -, rfl⟩ | ⟨-, rfl⟩ | ⟨-, -, -, rfl⟩ | h
  · exact .kept rfl
  · exact .kept rfl
  · cases a <;> exact .kept rfl
  · exact .kept (endWait_cpu s)
  · exact runInstr_cpu h

/-- A `PAUSE` or `RESUME` leaves the processor alone, so a `TOGGLE` does. -/
theorem CommandOnCpu.of_pause_or_resume (h : CommandOnCpu s t i) (hi : i = .pause ∨ i = .resume) :
    t.cpu = s.cpu := by
  cases h with
  | kept h => exact h
  | start h => simp [h] at hi
  | stop h => simp [h] at hi
  | unit h => rcases hi with rfl | rfl <;> simp at h

/-- What one turn does to the processor, with the command or the event that does it. -/
theorem runTurn_cpu {u : Turn} (h : runTurn u s = .next t) : t.cpu = s.cpu ∨
    (∃ a w i, (u = .command a w ∨ u = .issue a w) ∧ decodeFor a w = some i ∧
      CommandOnCpu s t i) ∨
    ∃ a pick, u = .event a pick ∧ s.StepInFlight a ∧ s.UnitEnds t := by
  rcases runTurn_cases h with ⟨a, w, -, -, -, rfl⟩ | ⟨a, w, i, hu, -, hd, h⟩ |
    ⟨a, w, i, hu, -, hd, h⟩ | ⟨a, pick, rfl, rfl⟩ | ⟨-, -, rfl | h | h⟩ | ⟨d, -, rfl⟩
  · exact .inl rfl
  · exact .inr (.inl ⟨a, w, i, hu, hd, runInstr_cpu h⟩)
  · exact .inr (.inl ⟨a, w, i, .inr hu, hd, issueInstr_cpu h⟩)
  · rcases runEvent_cpu a pick s with hc | ⟨hfly, hu⟩
    · exact .inl hc
    · exact .inr (.inr ⟨a, pick, rfl, hfly, hu⟩)
  · exact .inl rfl
  · exact .inl ((runInstr_cpu h).of_pause_or_resume (.inl rfl))
  · exact .inl ((runInstr_cpu h).of_pause_or_resume (.inr rfl))
  · exact .inl rfl

/-- All that a step can do to the processor, with the turn that does it. -/
theorem step_cpu (h : step s = .next t) : t.cpu = s.cpu ∨
    (∃ a i, s.NextIs a i ∧ i.admitted a = true ∧ CommandOnCpu s t i) ∨
    ∃ a, s.NextIsEvent a ∧ s.StepInFlight a ∧ s.UnitEnds t := by
  rcases step_cases h with ⟨-, rfl⟩ | ⟨hs, pick, d, rfl⟩ | ⟨u, rest, hs, h⟩
  · exact .inl rfl
  · rcases runEvent_cpu s.unscheduled.mover pick (s.tick d) with hc | ⟨hfly, hu⟩
    · exact .inl hc
    · exact .inr (.inr ⟨_, .inl ⟨hs, rfl⟩, hfly, hu⟩)
  · rcases runTurn_cpu h with hc | ⟨a, w, i, hu, hd, hc⟩ | ⟨a, pick, rfl, hfly, hu⟩
    · exact .inl hc
    · obtain ⟨hnext, hadm⟩ := State.nextIs_of_turn hs hu hd
      exact .inr (.inl ⟨a, i, hnext, hadm, hc.of_eq rfl rfl rfl⟩)
    · exact .inr (.inr ⟨a, .inr ⟨pick, rest, hs⟩, hfly, hu⟩)

/-! ### The statements -/

/-- Settles O26: without a `STEP` in flight only a running processor ends a unit of work, and a
`START` or a `STOP` writes flags alone. -/
theorem restingProcessorKeepsRegisters : Obligations.RestingProcessorKeepsRegisters := by
  intro s t h hrest hhost hloop
  rcases step_cpu h with hc | ⟨a, i, -, -, hc⟩ | ⟨a, -, hfly, -⟩
  · simp [hc]
  · cases hc with
    | kept hc => simp [hc]
    | start _ _ hc => simp [hc, ProcessorUnit.started]
    | stop _ _ hc => simp [hc, ProcessorUnit.stopped]
    | unit _ hr => simp [hrest] at hr
  · rcases hfly with ⟨-, u, hu⟩ | ⟨-, c, hc, u, hu⟩
    · exact absurd hu (hhost u)
    · exact absurd hu (hloop c hc u)

/-- The end of a unit of work that changes `isRunning` is the halt entry (rules R96, R162). -/
theorem State.UnitEnds.halts (h : s.UnitEnds t) (hne : t.cpu.isRunning ≠ s.cpu.isRunning) :
    t.cpu.isRunning = false ∧ t.cpu.halted = true ∧
      t.cpu.haltInfo.cause = .unsupportedInstruction ∧ t.cpu.x = s.cpu.x ∧ t.cpu.pc = s.cpu.pc ∧
      t.bus = s.bus ∧ t.sched.schedState = s.sched.schedState := by
  rcases h with ⟨x, pc, hc⟩ | ⟨info, hc, hbus, hstate⟩
  · exact absurd (by rw [hc]) hne
  · rw [hc]
    exact ⟨rfl, rfl, rfl, rfl, rfl, hbus, hstate⟩

/-- Settles O27: a command writes `isRunning` as a `START`, as a `STOP`, or by a unit of work of a
`STEP` or an iteration; an event only where a `STEP` is in flight. -/
theorem isRunningHasThreeWriters : Obligations.IsRunningHasThreeWriters := by
  intro s t h hne
  rcases step_cpu h with hc | ⟨a, i, hnext, hadm, hc⟩ | ⟨a, hnext, hfly, hu⟩
  · exact absurd (by rw [hc]) hne
  · cases hc with
    | kept hc => exact absurd (by rw [hc]) hne
    | start hi hs hcpu ht =>
      subst hi
      obtain rfl : a = .host := by simpa [Instr.admitted] using hadm
      rw [hcpu]
      exact .inl ⟨hnext, rfl, rfl, ht, hs⟩
    | stop hi hs hcpu ht =>
      subst hi
      obtain rfl : a = .host := by simpa [Instr.admitted] using hadm
      rw [hcpu]
      exact .inr (.inl ⟨hnext, rfl, ht, by simpa [ExecutionScheduler.running] using hs⟩)
    | unit hi hr hu =>
      refine .inr (.inr ⟨?_, hu.halts hne⟩)
      rcases hi with rfl | rfl | ⟨iw, rfl⟩
      · obtain rfl : a = .host := by simpa [Instr.admitted] using hadm
        exact .inl hnext
      · obtain rfl : a = .loop := by simpa [Instr.admitted] using hadm
        exact .inr (.inl hnext)
      · simp [Instr.admitted] at hadm
  · refine .inr (.inr ⟨?_, hu.halts hne⟩)
    rcases hfly with ⟨rfl, hstep⟩ | ⟨rfl, hstep⟩
    · exact .inr (.inr (.inl ⟨hnext, hstep⟩))
    · exact .inr (.inr (.inr ⟨hnext, hstep⟩))

end Sys2Proof.Machine

/-! PROOF. The video unit's flag and base over a step (rules R22, R24, R120). -/

namespace Sys2Proof.Machine

variable {o : Option Instr} {s t : State}

/-- `dirty` and `frameBufferBase` are as they were. -/
def State.SameVideoFlags (s t : State) : Prop :=
  t.video.dirty = s.video.dirty ∧ t.video.frameBufferBase = s.video.frameBufferBase

/-- All that a move can do to `dirty` and `frameBufferBase`: nothing, the end of a render, or the
base of a `SET_FB_BASE`. -/
theorem Move.videoFlags (h : Move o s t) : s.SameVideoFlags t ∨ t = finishRender s ∨
    ∃ addr, o = some (.setFbBase addr) ∧ t = s.setBase addr := by
  cases h with
  | finish => exact .inr (.inl rfl)
  | base ho => exact .inr (.inr ⟨_, ho, rfl⟩)
  | stop => exact .inl (by unfold awaitLoop; split <;> exact ⟨rfl, rfl⟩)
  | count => exact .inl (by simp [State.SameVideoFlags])
  | record | wait | bus | commit | halt | spawn | lifecycle | exit | readByte | readFrame | host
  | loop | refresh => exact .inl ⟨rfl, rfl⟩

theorem Move.dirty (h : Move o s t) (hs : s.video.dirty = false) : t.video.dirty = false := by
  rcases h.videoFlags with ⟨hd, -⟩ | rfl | ⟨addr, -, rfl⟩
  · exact hd.trans hs
  · rfl
  · exact hs

/-- The base is the one before the step or that of the step's `SET_FB_BASE`. -/
theorem Move.frameBufferBase (h : Move o s t) :
    t.video.frameBufferBase = s.video.frameBufferBase ∨
      o = some (.setFbBase t.video.frameBufferBase) := by
  rcases h.videoFlags with ⟨-, hb⟩ | rfl | ⟨addr, ho, rfl⟩
  · exact .inl hb
  · exact .inl rfl
  · exact .inr ho

/-- Settles O33: no move sets `dirty`. -/
theorem dirtyIsNeverSetAgain : Obligations.DirtyIsNeverSetAgain := by
  intro s t h hs
  exact step_keeps (P := fun u => u.video.dirty = false) (fun _ _ _ hm => hm.dirty) h hs

/-- Settles O34: the one move that sets the base is that of a `SET_FB_BASE`, which the host alone
may issue. -/
theorem frameBufferBaseHasOneWriter : Obligations.FrameBufferBaseHasOneWriter := by
  intro s t h hne
  obtain ⟨o, hturn, hmoves⟩ := step_moves h
  have hbase : t.video.frameBufferBase = s.video.frameBufferBase ∨
      o = some (.setFbBase t.video.frameBufferBase) := by
    refine hmoves.keeps (P := fun u => u.video.frameBufferBase = s.video.frameBufferBase ∨
      o = some (.setFbBase u.video.frameBufferBase)) (fun u v hm hu => ?_) (.inl rfl)
    rcases hm.frameBufferBase with hv | hv
    · exact hv ▸ hu
    · exact .inr hv
  obtain ⟨a, ⟨w, rest, hw, hdec⟩, hadm⟩ := hturn _ (hbase.resolve_left hne)
  have ha : a = .host := by simpa [Instr.admitted] using hadm
  subst ha
  exact ⟨w, rest, hw, hdec⟩

end Sys2Proof.Machine

/-! PROOF. Turns to which the machine gives no meaning, and events without effect (rules R53, R57,
R93, R134, R189, R190). -/

namespace Sys2Proof.Machine

/-- A command word of a busy agent is refused by name, whole or issued (rules R53, R134). -/
theorem step_of_busy {s : State} {a : Agent} {w : CommandWord} {rest : List Turn}
    (hs : s.schedule = .command a w :: rest ∨ s.schedule = .issue a w :: rest)
    (hb : s.busy a = true) : step s = .refused (.agentBusy a) := by
  have hb' : ({ s with schedule := rest } : State).busy a = true :=
    (s.busy_schedule rest a).trans hb
  rcases hs with hs | hs <;> simp [step, hs, runTurn, acceptCommand, hb']

/-- The opcode of `STEP` (rule R66). -/
theorem decode_step {w : CommandWord} (h : opField w = 0x10) : decode (.command w) = .ok .step := by
  simp [decode, decodeCommand, h]

theorem runInstr_step_of_live {s : State} (a : Agent) (hl : s.sched.ctxLive = true) :
    runInstr a .step s = .refused .stepWhileLive := by
  simp [runInstr, hl]

theorem issueInstr_step_of_live {s : State} (a : Agent) (hl : s.sched.ctxLive = true) :
    issueInstr a .step s = .refused .stepWhileLive := by
  simp [issueInstr, hl]

/-- Settles O9: the port looks at the agent first, and then at the context for a `STEP`. -/
theorem overlapIsRefused : Obligations.OverlapIsRefused := by
  refine ⟨fun s a w rest => step_of_busy, fun s w rest hs hb hop hl => ?_⟩
  have hd := decode_step hop
  rcases hs with hs | hs
  · rw [step_command hs hb hd rfl]
    exact runInstr_step_of_live .host hl
  · rw [step_issue hs hb hd rfl]
    exact issueInstr_step_of_live .host hl

theorem runEvents_cons (a : Agent) (pick : Nat) (picks : List Nat) (s : State) :
    runEvents a (pick :: picks) s = runEvents a picks (runEvent a pick s) := rfl

/-- Without a context the loop agent has no event (rule R145). -/
theorem loopEvent_of_no_context {s : State} (h : s.sched.ctx = none) (pick : Nat) :
    loopEvent pick s = s := by
  simp [loopEvent, h]

/-- Settles O48, by induction on the number of events. -/
theorem noLoopEventWithoutContext : Obligations.NoLoopEventWithoutContext := by
  intro s picks h
  induction picks with
  | nil => rfl
  | cons pick picks ih =>
    rw [runEvents_cons]
    exact (congrArg _ (loopEvent_of_no_context h pick)).trans ih

end Sys2Proof.Machine

/-! PROOF. One access taken event by event (rules R51, R53): whatever the order of its byte events,
it is the whole `READ32` or `WRITE32`. -/

namespace Sys2Proof.Machine

variable {b c : AddressSpace} {addr : Addr} {v : Word} {acc : Access} {picks : List Nat}
  {st : AccessStatus}

/-! ### Canonical memories -/

/-- Buses of one size with canonical memories that hold the same bytes and cells are equal. -/
theorem AddressSpace.eq_of_byteAt_eq (hb : Memory.wf b.mem) (hc : Memory.wf c.mem)
    (hsize : b.size = c.size) (hreg : b.reg = c.reg) (hbyte : ∀ a, b.byteAt a = c.byteAt a) :
    b = c := by
  have hmem : b.mem = c.mem := Memory.ext hb hc hbyte
  cases b
  cases c
  simp_all

theorem AddressSpace.setBytes_wf (h : Memory.wf b.mem) (addr : Addr) (v : Word)
    (left : List (Fin 4)) : Memory.wf (b.setBytes addr v left).mem := by
  induction left generalizing b with
  | nil => exact h
  | cons k left ih => exact ih (b := b.setByteAt (addr.toNat + k) (byteOf v k)) (Memory.wf_set h)

theorem AddressSpace.setBytes_allBytes (b : AddressSpace) (addr : Addr) (v : Word) :
    b.setBytes addr v allBytes = b.memWrite32 addr.toNat v := rfl

theorem AddressSpace.write32_wf (h : Memory.wf b.mem) (addr : Addr) (v : Word) :
    Memory.wf (b.write32 addr v).mem := by
  unfold AddressSpace.write32
  split
  · exact AddressSpace.setBytes_wf h addr v allBytes
  · exact h

/-- The order in which the bytes of a word are written does not matter. -/
theorem AddressSpace.setBytes_congr (h : Memory.wf b.mem) {left left' : List (Fin 4)}
    (hl : ∀ k, k ∈ left ↔ k ∈ left') : b.setBytes addr v left = b.setBytes addr v left' := by
  refine AddressSpace.eq_of_byteAt_eq (AddressSpace.setBytes_wf h ..)
    (AddressSpace.setBytes_wf h ..) (by simp) (by simp) fun a => ?_
  simp only [AddressSpace.byteAt_setBytes, hl]

/-! ### The events of an access -/

/-- The events of an access on the bus `b`, one per pick, end it with the last of them, on the bus
`c` and in the status `st`. -/
inductive Access.Completes : Access → AddressSpace → List Nat → AddressSpace → AccessStatus → Prop
  | last {acc : Access} {pick : Nat} {b c : AddressSpace} {st : AccessStatus}
      (h : accessEvent acc pick b = (c, st)) (hst : ∀ next, st ≠ .going next) :
      acc.Completes b [pick] c st
  | more {acc next : Access} {pick : Nat} {picks : List Nat} {b b' c : AddressSpace}
      {st : AccessStatus} (h : accessEvent acc pick b = (b', .going next))
      (hnext : next.Completes b' picks c st) : acc.Completes b (pick :: picks) c st

theorem pickFrom_of_ne_nil {α : Type} {l : List α} (h : l ≠ []) (n : Nat) :
    ∃ x ∈ l, pickFrom l n = some x := by
  cases hx : pickFrom l n with
  | none => exact absurd (pickFrom_eq_none.mp hx) h
  | some x => exact ⟨x, pickFrom_mem hx, rfl⟩

/-- A write with the bytes `left` to come leaves exactly these bytes written (rule R51). -/
theorem memWrite_completes {left : List (Fin 4)} (hb : Memory.wf b.mem) (hne : left ≠ [])
    (hlen : picks.length = left.length) :
    (Access.memWrite addr v left).Completes b picks (b.setBytes addr v left) .written := by
  induction picks generalizing b left with
  | nil => exact absurd (List.length_eq_zero_iff.mp hlen.symm) hne
  | cons pick picks ih =>
    obtain ⟨k, hk, hpick⟩ := pickFrom_of_ne_nil hne pick
    have hlen' : picks.length = (left.erase k).length := by
      simp [List.length_erase_of_mem hk, ← hlen]
    have hevent : accessEvent (.memWrite addr v left) pick b =
        (b.setByteAt (addr.toNat + k) (byteOf v k), memWriteStatus addr v (left.erase k)) := by
      simp [accessEvent, hpick]
    have hbytes : b.setBytes addr v left =
        (b.setByteAt (addr.toNat + k) (byteOf v k)).setBytes addr v (left.erase k) :=
      AddressSpace.setBytes_congr hb fun j => (List.perm_cons_erase hk).mem_iff
    rw [hbytes]
    by_cases hnil : left.erase k = []
    · obtain rfl : picks = [] := List.length_eq_zero_iff.mp (by rw [hlen', hnil]; rfl)
      rw [memWriteStatus, if_pos hnil] at hevent
      rw [hnil]
      exact .last hevent nofun
    · rw [memWriteStatus, if_neg hnil] at hevent
      exact .more hevent (ih (Memory.wf_set hb) hnil hlen')

/-- A read that has the bytes not in `left` in place returns the big-endian word (rules R46, R51). -/
theorem memRead_completes {left : List (Fin 4)} {got : Word} (hne : left ≠ [])
    (hgot : ∀ k : Fin 4, k ∉ left → byteOf got k = b.byteAt (addr.toNat + k))
    (hlen : picks.length = left.length) :
    (Access.memRead addr left got).Completes b picks b (.read (b.memRead32 addr.toNat)) := by
  induction picks generalizing left got with
  | nil => exact absurd (List.length_eq_zero_iff.mp hlen.symm) hne
  | cons pick picks ih =>
    obtain ⟨k, hk, hpick⟩ := pickFrom_of_ne_nil hne pick
    have hlen' : picks.length = (left.erase k).length := by
      simp [List.length_erase_of_mem hk, ← hlen]
    have hevent : accessEvent (.memRead addr left got) pick b =
        (b, memReadStatus addr (left.erase k) (setByte got k (b.byteAt (addr.toNat + k)))) := by
      simp [accessEvent, hpick]
    have hgot' : ∀ j : Fin 4, j ∉ left.erase k →
        byteOf (setByte got k (b.byteAt (addr.toNat + k))) j = b.byteAt (addr.toNat + j) := by
      intro j hj
      rw [byteOf_setByte _ _ _ _ j.isLt]
      split
      · next hjk => rw [hjk]
      · next hjk =>
        refine hgot j fun hmem => hj ((List.mem_erase_of_ne ?_).mpr hmem)
        exact fun e => hjk (congrArg _ e)
    by_cases hnil : left.erase k = []
    · obtain rfl : picks = [] := List.length_eq_zero_iff.mp (by rw [hlen', hnil]; rfl)
      have hword : setByte got k (b.byteAt (addr.toNat + k)) = b.memRead32 addr.toNat := by
        refine word_ext fun j hj => ?_
        rw [AddressSpace.byteOf_memRead32 _ _ hj]
        exact hgot' ⟨j, hj⟩ (by simp [hnil])
      rw [memReadStatus, if_pos hnil, hword] at hevent
      exact .last hevent nofun
    · rw [memReadStatus, if_neg hnil] at hevent
      exact .more hevent (ih hnil hgot' hlen')

/-- A started write of four byte events, or of one cell event, is `WRITE32` (rules R51, R81). -/
theorem startWrite_completes (hb : Memory.wf b.mem) (addr : Addr) (v : Word)
    (hlen : picks.length = if b.toMemory addr then 4 else 1) :
    (startWrite b addr v).Completes b picks (b.write32 addr v) .written := by
  unfold startWrite AddressSpace.write32
  split_ifs at hlen ⊢
  · rw [← AddressSpace.setBytes_allBytes]
    exact memWrite_completes hb (by decide) hlen
  · obtain ⟨pick, rfl⟩ := List.length_eq_one_iff.mp hlen
    exact .last rfl nofun

/-- A started read of four byte events, or of one cell event, is `READ32` (rules R51, R80). -/
theorem startRead_completes (b : AddressSpace) (addr : Addr)
    (hlen : picks.length = if b.toMemory addr then 4 else 1) :
    (startRead b addr).Completes b picks b (.read (b.read32 addr)) := by
  unfold startRead AddressSpace.read32
  split_ifs at hlen ⊢
  · exact memRead_completes (by decide) (fun k hk => absurd hk (by revert k; decide)) hlen
  · obtain ⟨pick, rfl⟩ := List.length_eq_one_iff.mp hlen
    exact .last rfl nofun

theorem Access.Completes.runAccess_eq (h : acc.Completes b picks c st) :
    runAccess acc picks b = (c, st) := by
  induction h with
  | last h hst =>
    simp only [runAccess, h]
    split
    · next hgoing => exact absurd (congrArg Prod.snd hgoing) (hst _)
    · next hread => exact hread.symm
    · next hwritten => exact hwritten.symm
  | more h _ ih => simpa only [runAccess, h] using ih

/-- Settles O17: the events of either access complete it, on the whole access's bus. -/
theorem accessOrderUnobservable : Obligations.AccessOrderUnobservable :=
  fun b a v _ hb hlen =>
    ⟨(startWrite_completes hb a v hlen).runAccess_eq, (startRead_completes b a hlen).runAccess_eq⟩

end Sys2Proof.Machine

/-! PROOF. Operations in flight that no other agent interrupts (rules R51, R53, R69, R90, R140): the
accesses of the host, and the units of work of the host and of the loop agent. -/

namespace Sys2Proof.Machine

variable {a : Agent} {s t : State} {b c : AddressSpace} {acc : Access} {picks : List Nat}
  {st : AccessStatus}

/-! ### Uninterrupted events -/

/-- From `s` some number of events of agent `a` lead to `t`, whatever they pick. -/
def State.Reaches (a : Agent) (s t : State) : Prop :=
  ∀ f : Nat → Nat, ∃ n, runEvents a ((List.range n).map f) s = t

theorem State.Reaches.trans {u : State} (h : s.Reaches a t) (k : t.Reaches a u) :
    s.Reaches a u := by
  intro f
  obtain ⟨n, hn⟩ := h f
  obtain ⟨m, hm⟩ := k fun i => f (n + i)
  refine ⟨n + m, ?_⟩
  rw [List.range_add, List.map_append, List.map_map, runEvents, List.foldl_append]
  exact (congrArg (runEvents a _) hn).trans hm

theorem State.Reaches.of_picks {n : Nat}
    (h : ∀ picks : List Nat, picks.length = n → runEvents a picks s = t) : s.Reaches a t :=
  fun f => ⟨n, h _ (by simp)⟩

theorem State.Reaches.of_event (h : ∀ pick, runEvent a pick s = t) : s.Reaches a t :=
  .of_picks (n := 1) fun picks hlen => by
    obtain ⟨pick, rfl⟩ := List.length_eq_one_iff.mp hlen
    exact h pick

/-! ### Accesses -/

/-- Agent `a` takes the events of a bus access; `put st` is the agent after an access of status
`st`, beside what else `s` holds. -/
def CarriesAccess (a : Agent) (s : State) (put : AccessStatus → State → State) : Prop :=
  ∀ acc pick b, runEvent a pick (put (.going acc) (s.setBus b)) =
    put (accessEvent acc pick b).2 (s.setBus (accessEvent acc pick b).1)

/-- The events that complete an access take the agent and the bus with them. -/
theorem Access.Completes.runEvents_eq (h : acc.Completes b picks c st)
    {put : AccessStatus → State → State} (hput : CarriesAccess a s put) :
    runEvents a picks (put (.going acc) (s.setBus b)) = put st (s.setBus c) := by
  induction h with
  | last h _ =>
    refine (hput _ _ _).trans ?_
    rw [h]
  | more h _ ih => rw [runEvents_cons, hput, h, ih]

theorem hostAccessed_setHost (st : AccessStatus) (h : HostActivity) (s : State) :
    hostAccessed st (s.setHost h) = hostAccessed st s := by
  cases st <;> rfl

theorem hostAccessed_carries (s : State) : CarriesAccess .host s hostAccessed :=
  fun acc pick b => hostAccessed_setHost (accessEvent acc pick b).2 (.access acc)
    (s.setBus (accessEvent acc pick b).1)

/-- The host with an access in flight that some events complete. -/
theorem runEvents_host_access (hs : s.host = .access acc) (h : acc.Completes s.bus picks c st) :
    runEvents .host picks s = hostAccessed st (s.setBus c) := by
  have he : s = hostAccessed (.going acc) (s.setBus s.bus) := by
    rw [hostAccessed, ← hs]
    rfl
  rw [he]
  exact h.runEvents_eq (hostAccessed_carries s)

/-! ### Units of work -/

/-- What is left of the run `p` after the unit of work so far is `q`, and that stays so of whatever
the unit of work does next. -/
def UnitProgress.At (u : UnitProgress) (p q : ExecProg) : Prop :=
  ∀ replies writes, ExecProg.after p (u.replies ++ replies) (u.writes + writes) =
    ExecProg.after q replies writes

theorem UnitProgress.at_fresh (p : ExecProg) : UnitProgress.fresh.At p p := by
  intro replies writes
  simp [UnitProgress.fresh]

theorem ExecTail.after_nil (t : ExecTail) : ExecTail.after t [] 0 = t := by
  cases t <;> rfl

theorem ExecProg.after_nil (p : ExecProg) : ExecProg.after p [] 0 = p := by
  cases p with
  | read a next => rfl
  | decodeError info => rfl
  | commit t => exact congrArg ExecProg.commit (ExecTail.after_nil t)

variable {u : UnitProgress} {p : ExecProg}

theorem UnitProgress.At.after_eq {q : ExecProg} (h : u.At p q) :
    ExecProg.after p u.replies u.writes = q := by
  simpa [ExecProg.after_nil] using h [] 0

/-- The reply to a read leaves the rest of the run (rule R95 (c)). -/
theorem UnitProgress.At.read {addr : Addr} {next : Word → ExecProg} (h : u.At p (.read addr next))
    (v : Word) : (u.accessed (.read v)).At p (next v) := by
  intro replies writes
  simpa [UnitProgress.accessed, ExecProg.after] using h (v :: replies) writes

theorem UnitProgress.At.commit_read {addr : Addr} {next : Word → ExecTail}
    (h : u.At p (.commit (.read addr next))) (v : Word) :
    (u.accessed (.read v)).At p (.commit (next v)) := by
  intro replies writes
  simpa [UnitProgress.accessed, ExecProg.after, ExecTail.after] using h (v :: replies) writes

theorem UnitProgress.At.commit_write {addr : Addr} {v : Word} {next : ExecTail}
    (h : u.At p (.commit (.write addr v next))) : (u.accessed .written).At p (.commit next) := by
  intro replies writes
  rw [← show _ = ExecProg.after (.commit next) replies writes from h replies (writes + 1)]
  congr 1
  exact Nat.add_right_comm ..

/-- Agent `a` takes the events of a unit of work; `put st` is the agent after a unit of work of
status `st`, beside what else `s` holds. -/
def CarriesUnit (a : Agent) (s : State) (put : UnitStatus → State → State) : Prop :=
  ∀ u pick b, runEvent a pick (put (.going u) (s.setBus b)) =
    put (unitEvent u pick (s.setBus b)).2 (unitEvent u pick (s.setBus b)).1

variable {put : UnitStatus → State → State}

theorem UnitProgress.accessed_access (u : UnitProgress) (o : Option Access) (st : AccessStatus) :
    ({ u with access := o } : UnitProgress).accessed st = u.accessed st := by
  cases st <;> rfl

/-- Who takes the events of a unit of work takes those of its accesses. -/
theorem CarriesUnit.carriesAccess (h : CarriesUnit a s put) (u : UnitProgress) :
    CarriesAccess a s fun st => put (.going (u.accessed st)) := by
  intro acc pick b
  beta_reduce
  rw [← u.accessed_access (some acc) (accessEvent acc pick b).2]
  exact h { u with access := some acc } pick b

/-- Between two accesses the run says what comes next. -/
theorem CarriesUnit.reaches_next (h : CarriesUnit a s put) (hu : u.access = none) {q : ExecProg}
    (hq : u.At s.execProg q) (b : AddressSpace) :
    (put (.going u) (s.setBus b)).Reaches a
      (put (unitNext q u (s.setBus b)).2 (unitNext q u (s.setBus b)).1) := by
  refine .of_event fun pick => (h u pick b).trans ?_
  have he : unitEvent u pick (s.setBus b) = unitNext q u (s.setBus b) := by
    rw [← hq.after_eq]
    simp only [unitEvent, hu]
    rfl
  rw [he]

/-- A read of the run takes its events and leaves its reply (rule R80). -/
theorem CarriesUnit.reaches_read (h : CarriesUnit a s put) (u : UnitProgress) (b : AddressSpace)
    (addr : Addr) :
    (put (.going { u with access := some (startRead b addr) }) (s.setBus b)).Reaches a
      (put (.going (u.accessed (.read (b.read32 addr)))) (s.setBus b)) :=
  .of_picks fun _ hlen => (startRead_completes b addr hlen).runEvents_eq (h.carriesAccess u)

/-- A write of the run takes its events and is on the bus (rules R81, R96). -/
theorem CarriesUnit.reaches_write (h : CarriesUnit a s put) (u : UnitProgress)
    (hb : Memory.wf b.mem) (addr : Addr) (v : Word) :
    (put (.going { u with access := some (startWrite b addr v) }) (s.setBus b)).Reaches a
      (put (.going (u.accessed .written)) (s.setBus (b.write32 addr v))) :=
  .of_picks fun _ hlen => (startWrite_completes hb addr v hlen).runEvents_eq (h.carriesAccess u)

/-- The agent at the end of the whole run `q` from the bus `b`. -/
def unitResult (put : UnitStatus → State → State) (q : ExecProg) (b : AddressSpace) (s : State) :
    State :=
  put (.ended (runUnit q (s.setBus b)).2) (runUnit q (s.setBus b)).1

/-- The writing part of a run taken event by event is that part with nothing in between. -/
theorem CarriesUnit.reaches_commit (h : CarriesUnit a s put) (t : ExecTail) (hb : Memory.wf b.mem)
    (hu : u.access = none) (hq : u.At s.execProg (.commit t)) :
    (put (.going u) (s.setBus b)).Reaches a (unitResult put (.commit t) b s) := by
  induction t generalizing u b with
  | read addr next ih =>
    exact ((h.reaches_next hu hq b).trans (h.reaches_read u b addr)).trans
      (ih _ hb rfl (hq.commit_read _))
  | write addr v next ih =>
    exact ((h.reaches_next hu hq b).trans (h.reaches_write u hb addr v)).trans
      (ih (AddressSpace.write32_wf hb addr v) rfl hq.commit_write)
  | done x pc extra => exact h.reaches_next hu hq b

/-- A run taken event by event is the run with nothing in between (rules R90, R95, R96). -/
theorem CarriesUnit.reaches_run (h : CarriesUnit a s put) (q : ExecProg) (hb : Memory.wf b.mem)
    (hu : u.access = none) (hq : u.At s.execProg q) :
    (put (.going u) (s.setBus b)).Reaches a (unitResult put q b s) := by
  induction q generalizing u with
  | read addr next ih =>
    exact ((h.reaches_next hu hq b).trans (h.reaches_read u b addr)).trans
      (ih _ rfl (hq.read _))
  | decodeError info => exact h.reaches_next hu hq b
  | commit t => exact h.reaches_commit t hb hu hq

/-- A fresh unit of work reaches the end of the strategy's run. -/
theorem CarriesUnit.reaches_runUnit (h : CarriesUnit a s put) (hb : Memory.wf s.bus.mem) :
    (put (.going .fresh) s).Reaches a
      (put (.ended (runUnit s.execProg s).2) (runUnit s.execProg s).1) :=
  h.reaches_run s.execProg hb rfl (UnitProgress.at_fresh _)

/-- An event of a unit of work looks neither at the host nor at the scheduler. -/
theorem unitEvent_activities (u : UnitProgress) (pick : Nat) (s : State) (h : HostActivity)
    (d : ExecutionScheduler) : unitEvent u pick { s with host := h, sched := d } =
      ({ (unitEvent u pick s).1 with host := h, sched := d }, (unitEvent u pick s).2) := by
  have hp : ({ s with host := h, sched := d } : State).execProg = s.execProg := rfl
  simp only [unitEvent, hp]
  cases u.access with
  | some acc => rfl
  | none =>
    simp only
    generalize ExecProg.after s.execProg u.replies u.writes = q
    cases q with
    | read addr next => rfl
    | decodeError info => rfl
    | commit t => cases t <;> rfl

theorem unitEvent_setHost (u : UnitProgress) (pick : Nat) (s : State) (h : HostActivity) :
    unitEvent u pick (s.setHost h) =
      ((unitEvent u pick s).1.setHost h, (unitEvent u pick s).2) := by
  refine (unitEvent_activities u pick s h s.sched).trans ?_
  rw [unitEvent_frame]
  rfl

theorem unitEvent_setLoop (u : UnitProgress) (pick : Nat) (s : State) (act : LoopActivity) :
    unitEvent u pick (s.setLoop act) =
      ((unitEvent u pick s).1.setLoop act, (unitEvent u pick s).2) := by
  refine (unitEvent_activities u pick s s.host (s.setLoop act).sched).trans ?_
  rw [unitEvent_frame]
  rfl

/-! ### Operations of the host -/

theorem hostStepped_setHost (st : UnitStatus) (h : HostActivity) (s : State) :
    hostStepped st (s.setHost h) = hostStepped st s := by
  cases st <;> rfl

theorem hostStepped_carries (s : State) : CarriesUnit .host s hostStepped := by
  intro u pick b
  have he := unitEvent_setHost u pick (s.setBus b) (.stepping u)
  calc hostEvent pick ((s.setBus b).setHost (.stepping u))
    _ = hostStepped (unitEvent u pick ((s.setBus b).setHost (.stepping u))).2
        (unitEvent u pick ((s.setBus b).setHost (.stepping u))).1 := rfl
    _ = _ := by rw [he, hostStepped_setHost]

/-- A unit of work looks neither at the host nor at the issuer. -/
theorem runUnit_activities (p : ExecProg) (s : State) (h : HostActivity) (a : Agent) :
    runUnit p { s with host := h, issuer := a } =
      ({ (runUnit p s).1 with host := h, issuer := a }, (runUnit p s).2) := by
  simp only [runUnit]
  cases (ExecProg.run p s.bus).2 <;> rfl

/-- `STEP` of a running processor is a unit of work of its strategy (rule R90). -/
theorem exec_step_of_running (hr : s.cpu.isRunning = true) (h : HostActivity) (a : Agent) :
    exec .step { s with host := h, issuer := a } =
      .next (({ (runUnit s.execProg s).1 with host := h, issuer := a } : State).stepDone a
        (runUnit s.execProg s).2) := by
  simp only [exec, execStep, stepUnit, hr, if_true]
  exact congrArg (fun r : State × StepResult => Host.Outcome.next (r.1.stepDone a r.2))
    (runUnit_activities s.execProg s h a)

/-- Settles O18: an access in flight is completed by its events, a `STEP` by those of its run. -/
theorem inFlightHostOperationIsOperation : Obligations.InFlightHostOperationIsOperation := by
  intro s hmem
  refine ⟨fun addr picks hs hlen => ?_, fun addr data picks hs hlen => ?_, fun f hs hrun => ?_⟩
  · have hend := startRead_completes s.bus addr (picks := picks)
      (by simpa only [AddressSpace.toMemory_iff] using hlen)
    rw [runEvents_host_access hs hend]
    rfl
  · have hend := startWrite_completes hmem addr data (picks := picks)
      (by simpa only [AddressSpace.toMemory_iff] using hlen)
    rw [runEvents_host_access hs hend]
    rfl
  · obtain ⟨n, hn⟩ := (hostStepped_carries s).reaches_runUnit hmem f
    have he : hostStepped (.going .fresh) s = s := by
      rw [hostStepped, ← hs]
      rfl
    refine ⟨n, ?_⟩
    rw [he] at hn
    rw [exec_step_of_running hrun, hn]
    rfl

/-! ### Iterations of the loop -/

theorem loopStepped_setLoop (st : UnitStatus) (act : LoopActivity) (s : State) :
    loopStepped st (s.setLoop act) = loopStepped st s := by
  cases st <;> simp [loopStepped, State.setLoop, Function.comp_def]

/-- The loop agent of a live context takes the events of its `STEP`. -/
theorem loopStepped_carries (hl : s.sched.ctxLive = true) : CarriesUnit .loop s loopStepped := by
  intro u pick b
  obtain ⟨c, hc⟩ := Option.isSome_iff_exists.mp hl
  have he := unitEvent_setLoop u pick (s.setBus b) (.stepping u)
  calc loopEvent pick ((s.setBus b).setLoop (.stepping u))
    _ = loopStepped (unitEvent u pick ((s.setBus b).setLoop (.stepping u))).2
        (unitEvent u pick ((s.setBus b).setLoop (.stepping u))).1 := by
      simp [loopEvent, State.setLoop, hc]
    _ = _ := by rw [he, loopStepped_setLoop]

/-- The counting part puts an end to whatever the agent did before it. -/
theorem countFrame_setLoop {d : LoopContext} (hd : s.sched.ctx = some d) (act : LoopActivity) :
    countFrame (s.setLoop act) = countFrame s := by
  simp [countFrame, State.setLoop, hd]

/-- The counting part is one event. -/
theorem reaches_of_counting (hl : s.sched.ctxLive = true) :
    (s.setLoop .counting).Reaches .loop ((countFrame s).respond .loop .ok .absent) := by
  obtain ⟨c, hc⟩ := Option.isSome_iff_exists.mp hl
  refine .of_event fun pick => ?_
  rw [← countFrame_setLoop hc .counting]
  simp [runEvent, loopEvent, State.setLoop, hc]

/-- An iteration that sampled `paused` false ends with its `STEP` done and the frame counted. -/
theorem reaches_of_sampled (hl : s.sched.ctxLive = true) (hb : Memory.wf s.bus.mem) :
    (s.setLoop .sampled).Reaches .loop
      ((countFrame (stepUnit s).1).respond .loop .ok .absent) := by
  obtain ⟨c, hc⟩ := Option.isSome_iff_exists.mp hl
  have hbegin : (s.setLoop .sampled).Reaches .loop
      (s.setLoop (if s.cpu.isRunning then .stepping .fresh else .counting)) :=
    .of_event fun pick => by simp [runEvent, loopEvent, beginLoopStep, State.setLoop, hc]
  refine hbegin.trans ?_
  unfold stepUnit
  split
  · have hlive : (runUnit s.execProg s).1.sched.ctxLive = true := by
      rw [runUnit_frame]
      exact hl
    exact ((loopStepped_carries hl).reaches_runUnit hb).trans (reaches_of_counting hlive)
  · exact reaches_of_counting hl

/-- Settles O45: the iteration starts, does its `STEP` unless it sampled `paused`, and counts. -/
theorem inFlightIterationIsLoopIter : Obligations.InFlightIterationIsLoopIter := by
  intro s c f hb hc hact hrun
  have hlive : s.sched.ctxLive = true := by simp [ExecutionScheduler.ctxLive, hc]
  have hwait : (endWait s).sched.ctxLive = true := by simpa using hlive
  have hbegin : s.Reaches .loop (beginIteration s) :=
    .of_event fun pick => by simp [runEvent, loopEvent, hc, hact, hrun]
  have hend : (beginIteration s).Reaches .loop
      ((countFrame (iterationStep (endWait s))).respond .loop .ok .absent) := by
    simp only [beginIteration, iterationStep, endWait_sched]
    split
    · exact reaches_of_counting hwait
    · exact reaches_of_sampled hwait (by simpa using hb)
  obtain ⟨n, hn⟩ := (hbegin.trans hend) f
  refine ⟨n, ?_⟩
  rw [hn]
  simp [exec, execLoopIter, hlive, hrun]

end Sys2Proof.Machine

/-! PROOF. A render taken byte by byte (rules R52, R69, R113, R115, R118, R120): what one event reads,
and that all of them in any order are `RENDER`. -/

namespace Sys2Proof.Machine

variable {a : Agent} {s : State} {base : Addr} {unread picks : List Nat} {k pick : Nat}

/-! ### The output buffer -/

theorem Memory.get_of_forall_ne {w : Nat} {m : List (Nat × BitVec w)} {i : Nat}
    (h : ∀ c ∈ m, c.1 ≠ i) : Memory.get m i = 0 := by
  induction m with
  | nil => rfl
  | cons c m ih =>
    rw [Memory.get_cons, if_neg (h c List.mem_cons_self)]
    exact ih fun d hd => h d (List.mem_cons_of_mem c hd)

theorem outputBuffer_renderByte_same (base : Addr) (k : Nat) (s : State) :
    Memory.get (renderByte base k s).video.outputBuffer k = s.bus.vread (base.toNat + k) :=
  Memory.get_set_same

theorem outputBuffer_renderByte_other {j : Nat} (hj : j ≠ k) (base : Addr) (s : State) :
    Memory.get (renderByte base k s).video.outputBuffer j = Memory.get s.video.outputBuffer j :=
  Memory.get_set_other hj

/-- What a whole render leaves in the buffer (rules R110, R113, R118). -/
theorem outputBuffer_renderBytes (s : State) (k : Nat) :
    Memory.get (renderBytes s).video.outputBuffer k =
      if k < s.video.fbSize then s.bus.vread (s.video.frameBufferBase.toNat + k) else 0 := by
  refine Memory.get_window.trans ?_
  rw [ite_and]
  rfl

/-- A buffer that holds the framebuffer's bytes is as a whole render leaves it. -/
theorem renderBytes_eq_self (hb : s.bus.Canonical) (hv : s.video.Canonical)
    (h : ∀ k < s.video.fbSize,
      Memory.get s.video.outputBuffer k = s.bus.vread (s.video.frameBufferBase.toNat + k)) :
    renderBytes s = s := by
  have hbuf : (renderBytes s).video.outputBuffer = s.video.outputBuffer := by
    refine Memory.ext (renderBytes_canonical hb).buffer_wf hv.buffer_wf fun k => ?_
    rw [outputBuffer_renderBytes]
    split
    · next hk => exact (h k hk).symm
    · next hk =>
      refine (Memory.get_of_forall_ne fun c hc hck => hk ?_).symm
      exact hck ▸ hv.buffer_inside c hc
  calc renderBytes s
    _ = { s with video := { s.video with
          outputBuffer := (renderBytes s).video.outputBuffer } } := rfl
    _ = s := by rw [hbuf]

/-! ### The events of a render -/

/-- Agent `a` takes the events of a render; `put r` is the agent with what is left of it. -/
structure CarriesRender (a : Agent) (put : Option RenderProgress → State → State) : Prop where
  byte : ∀ {base unread pick k} (s : State), pickFrom unread pick = some k →
    runEvent a pick (put (some (.reading base unread)) s) =
      put (some (.reading base (unread.erase k))) (renderByte base k s)
  finish : ∀ (base : Addr) (pick : Nat) (s : State),
    runEvent a pick (put (some (.reading base [])) s) = put none (finishRender s)

/-- The refresh agent after an event of its render. -/
def refreshRender (r : Option RenderProgress) (s : State) : State :=
  renderAnswer .refresh r (s.setRefresh r)

/-- The host after an event of its render. -/
def hostRender (r : Option RenderProgress) (s : State) : State :=
  renderAnswer .host r (s.setHost (.ofRender r))

theorem refreshRender_carries : CarriesRender .refresh refreshRender where
  byte s hk := by
    simp only [runEvent, refreshRender, renderAnswer, refreshEvent, State.setRefresh, renderEvent,
      State.readyFor, hk]
    rfl
  finish base pick s := rfl

theorem hostRender_carries : CarriesRender .host hostRender where
  byte s hk := by
    simp only [runEvent, hostRender, renderAnswer, hostEvent, State.setHost, HostActivity.ofRender,
      renderEvent, State.readyFor, hk]
    rfl
  finish base pick s := rfl

theorem refreshRender_self {r : RenderProgress} (hs : s.refresh = some r) :
    refreshRender (some r) s = s := by
  show s.setRefresh (some r) = s
  rw [← hs]
  rfl

theorem hostRender_self {r : RenderProgress} (hs : s.host = .rendering r) :
    hostRender (some r) s = s := by
  show s.setHost (.rendering r) = s
  rw [← hs]
  rfl

/-- An event of a render with bytes to read reads the picked one of them (rules R52, R113). -/
theorem CarriesRender.event_reads_byte {put : Option RenderProgress → State → State}
    (h : CarriesRender a put) (hs : put (some (.reading base unread)) s = s) (hne : unread ≠ [])
    (pick : Nat) : ∃ k ∈ unread, runEvent a pick s =
      put (some (.reading base (unread.erase k))) (renderByte base k s) := by
  obtain ⟨k, hk, hpick⟩ := pickFrom_of_ne_nil hne pick
  exact ⟨k, hk, by simpa only [hs] using h.byte (base := base) s hpick⟩

/-- Settles O31, for either agent by the byte that its render's event reads. -/
theorem renderEventReadsOneByte : Obligations.RenderEventReadsOneByte := by
  intro s base unread pick hne
  refine ⟨fun hs => ?_, fun hs => ?_⟩
  · obtain ⟨k, hk, he⟩ := refreshRender_carries.event_reads_byte (refreshRender_self hs) hne pick
    exact ⟨k, hk, _, he, outputBuffer_renderByte_same base k s,
      fun j hj => outputBuffer_renderByte_other hj base s, rfl⟩
  · obtain ⟨k, hk, he⟩ := hostRender_carries.event_reads_byte (hostRender_self hs) hne pick
    exact ⟨k, hk, _, he, outputBuffer_renderByte_same base k s,
      fun j hj => outputBuffer_renderByte_other hj base s, rfl⟩

/-- The events of a render that has the bytes not in `unread` in the buffer are those of a whole
render, in any order (rules R52, R53). -/
theorem CarriesRender.runEvents_eq {put : Option RenderProgress → State → State}
    (h : CarriesRender a put) (hb : s.bus.Canonical) (hv : s.video.Canonical)
    (hin : ∀ k ∈ unread, k < s.video.fbSize)
    (hread : ∀ k < s.video.fbSize, k ∉ unread →
      Memory.get s.video.outputBuffer k = s.bus.vread (s.video.frameBufferBase.toNat + k))
    (hlen : picks.length = unread.length + 1) :
    runEvents a picks (put (some (.reading s.video.frameBufferBase unread)) s) =
      put none (renderAll s) := by
  induction picks generalizing unread s with
  | nil => simp at hlen
  | cons pick picks ih =>
    rw [runEvents_cons]
    by_cases hnil : unread = []
    · subst hnil
      obtain rfl : picks = [] := by simpa using hlen
      rw [h.finish, renderAll, renderBytes_eq_self hb hv fun k hk => hread k hk (by simp)]
      rfl
    · obtain ⟨k, hk, hpick⟩ := pickFrom_of_ne_nil hnil pick
      rw [h.byte s hpick]
      refine (ih (s := renderByte s.video.frameBufferBase k s) hb
        (renderByte_canonical hv _ (hin k hk)) ?inside ?read ?length).trans rfl
      case inside => exact fun j hj => hin j (List.mem_of_mem_erase hj)
      case read =>
        intro j hj hmem
        by_cases hjk : j = k
        · subst hjk
          exact outputBuffer_renderByte_same ..
        · rw [outputBuffer_renderByte_other hjk]
          exact hread j hj fun hju => hmem ((List.mem_erase_of_ne hjk).mpr hju)
      case length =>
        have := List.length_pos_of_mem hk
        simp [List.length_erase_of_mem hk] at hlen ⊢
        omega

/-- A render that has just begun, all its events uninterrupted, is a whole render. -/
theorem CarriesRender.runEvents_start {put : Option RenderProgress → State → State}
    (h : CarriesRender a put) (hs : s.StorageInv) (hlen : picks.length = s.video.fbSize + 1) :
    runEvents a picks
        (put (some (.reading s.video.frameBufferBase (List.range s.video.fbSize))) s) =
      put none (renderAll s) := by
  obtain ⟨hb, hv, -⟩ := State.storageInv_iff.mp hs
  exact h.runEvents_eq hb hv (fun k hk => List.mem_range.mp hk)
    (fun k hk hmem => absurd (List.mem_range.mpr hk) hmem) (by simpa using hlen)

/-- Settles O32, for either agent by what its render's events are. -/
theorem inFlightRenderIsRender : Obligations.InFlightRenderIsRender := by
  intro s picks hinv hlen
  refine ⟨fun hs => ?_, fun hs => ?_⟩
  · have he := refreshRender_carries.runEvents_start hinv hlen
    rw [refreshRender_self hs] at he
    rw [he]
    rfl
  · have he := hostRender_carries.runEvents_start hinv hlen
    rw [hostRender_self hs] at he
    rw [he]
    rfl

end Sys2Proof.Machine

/-! PROOF. The writes that are finished before a render under `FB_SYNC = rwlock` (rule R58): none of
them is half done afterwards, and nothing but their own bytes changes. -/

namespace Sys2Proof.Machine

variable {s : State} {acc : Access}

/-! ### The accesses in flight -/

theorem HostActivity.busAccess_setAccess {h : HostActivity} (ha : h.busAccess = some acc)
    (new : Access) : (h.setAccess new).busAccess = some new := by
  cases h with
  | access | stepping => rfl
  | idle | joining | rendering => cases ha

theorem LoopActivity.busAccess_setAccess {l : LoopActivity} (ha : l.busAccess = some acc)
    (new : Access) : (l.setAccess new).busAccess = some new := by
  cases l with
  | stepping => rfl
  | idle | sampled | counting => cases ha

/-- The bus operation the loop agent has in flight. -/
def State.loopAccess (s : State) : Option Access :=
  s.sched.ctx.bind fun c => c.activity.busAccess

theorem State.busAccesses_eq (s : State) :
    s.busAccesses = s.host.busAccess.toList ++ s.loopAccess.toList := rfl

/-- The one access in flight is the host's or the loop agent's. -/
theorem State.busAccesses_eq_singleton (h : s.busAccesses = [acc]) :
    (s.host.busAccess = some acc ∧ s.loopAccess = none) ∨
      (s.host.busAccess = none ∧ s.loopAccess = some acc) := by
  rw [State.busAccesses_eq] at h
  cases hh : s.host.busAccess with
  | none => cases hl : s.loopAccess <;> simp_all
  | some x => cases hl : s.loopAccess <;> simp_all

/-! ### The frames of the two writers -/

theorem State.finishHostWrite_frame (s : State) : s.finishHostWrite =
    { s with bus := s.finishHostWrite.bus, host := s.finishHostWrite.host } := by
  rcases s.finishHostWrite_cases with e | ⟨_, _, _, _, e⟩
  · rw [e]
  · rw [e]
    rfl

theorem State.finishLoopWrite_frame (s : State) : s.finishLoopWrite =
    { s with
      bus := s.finishLoopWrite.bus
      sched := { s.sched with ctx := s.finishLoopWrite.sched.ctx } } := by
  rcases s.finishLoopWrite_cases with e | ⟨_, _, _, _, _, _, e⟩
  · rw [e]
  · rw [e]
    rfl

theorem State.finishHostWrite_loopAccess (s : State) :
    s.finishHostWrite.loopAccess = s.loopAccess := by
  rw [s.finishHostWrite_frame]
  rfl

theorem State.finishHostWrite_video (s : State) : s.finishHostWrite.video = s.video := by
  rw [s.finishHostWrite_frame]

theorem State.finishLoopWrite_video (s : State) : s.finishLoopWrite.video = s.video := by
  rw [s.finishLoopWrite_frame]

theorem State.finishLoopWrite_host (s : State) : s.finishLoopWrite.host = s.host := by
  rw [s.finishLoopWrite_frame]

theorem State.finishWrites_cpu (s : State) : s.finishWrites.cpu = s.cpu := by
  rw [s.finishWrites_frame]

theorem State.finishWrites_video (s : State) : s.finishWrites.video = s.video := by
  rw [s.finishWrites_frame]

theorem State.finishWrites_session (s : State) : s.finishWrites.session = s.session := by
  rw [s.finishWrites_frame]

theorem State.finishWrites_refresh (s : State) : s.finishWrites.refresh = s.refresh := by
  rw [s.finishWrites_frame]

theorem State.finishWrites_sched (s : State) :
    s.finishWrites.sched = { s.sched with ctx := s.finishWrites.sched.ctx } := by
  rw [s.finishWrites_frame]

/-! ### What finishing does -/

/-- The host's access afterwards is its access finished. -/
theorem State.finishHostWrite_busAccess (s : State) : s.finishHostWrite.host.busAccess =
    s.host.busAccess.map fun acc => (s.finishAccess acc).2 := by
  unfold State.finishHostWrite
  split
  · next hnone => simp [hnone]
  · next acc hsome =>
    rw [hsome]
    exact HostActivity.busAccess_setAccess hsome _

/-- The loop agent's access afterwards is its access finished. -/
theorem State.finishLoopWrite_loopAccess (s : State) : s.finishLoopWrite.loopAccess =
    s.loopAccess.map fun acc => (s.finishAccess acc).2 := by
  unfold State.finishLoopWrite State.loopAccess
  split
  · next hctx => simp [hctx]
  · next c hctx =>
    split
    · next hnone => simp [hctx, hnone]
    · next acc hsome =>
      simp [State.setLoop, State.setBus, hctx, hsome, LoopActivity.busAccess_setAccess hsome]

theorem State.finishHostWrite_of_none (h : s.host.busAccess = none) : s.finishHostWrite = s := by
  rw [State.finishHostWrite, h]

theorem State.finishHostWrite_bus (h : s.host.busAccess = some acc) :
    s.finishHostWrite.bus = (s.finishAccess acc).1 := by
  rw [State.finishHostWrite, h]
  rfl

theorem State.finishLoopWrite_of_none (h : s.loopAccess = none) : s.finishLoopWrite = s := by
  rcases s.finishLoopWrite_cases with e | ⟨c, addr, v, left, hc, ha, -⟩
  · exact e
  · simp [State.loopAccess, hc, ha] at h

theorem State.finishLoopWrite_bus (h : s.loopAccess = some acc) :
    s.finishLoopWrite.bus = (s.finishAccess acc).1 := by
  obtain ⟨c, hc, ha⟩ := Option.bind_eq_some_iff.mp h
  simp only [State.finishLoopWrite, hc, ha]
  rfl

/-- An access that was finished is no half done write to the framebuffer. -/
theorem State.finishAccess_not_halfWritten (s : State) (acc : Access) :
    (s.finishAccess acc).2.halfWritten s.video.frameBufferBase.toNat s.video.fbSize = false := by
  unfold State.finishAccess
  split
  · cases acc <;> simp [Access.halfWritten]
  · next h => simpa using h

/-- A half done write to the framebuffer has its last bytes written (rule R58). -/
theorem State.finishAccess_of_halfWritten {addr : Addr} {v : Word} {left : List (Fin 4)}
    (h : (Access.memWrite addr v left).halfWritten s.video.frameBufferBase.toNat s.video.fbSize =
      true) :
    s.finishAccess (.memWrite addr v left) = (s.bus.setBytes addr v left, .memWrite addr v []) := by
  rw [State.finishAccess, if_pos h]

theorem State.writeHalfDone_iff : s.writeHalfDone = true ↔ s.session.fbSync = .rwlock ∧
    ∃ acc ∈ s.busAccesses,
      acc.halfWritten s.video.frameBufferBase.toNat s.video.fbSize = true := by
  simp [State.writeHalfDone]

/-- After both writers no write to the framebuffer is half done. -/
theorem State.finishWrites_not_halfDone (s : State) : s.finishWrites.writeHalfDone = false := by
  unfold State.finishWrites
  split
  · rw [← Bool.not_eq_true, State.writeHalfDone_iff, State.finishLoopWrite_video]
    rintro ⟨-, acc, hacc, hhalf⟩
    rw [State.busAccesses_eq, List.mem_append, State.finishLoopWrite_host,
      State.finishHostWrite_busAccess, State.finishLoopWrite_loopAccess] at hacc
    simp only [Option.mem_toList, Option.map_eq_some_iff] at hacc
    rcases hacc with ⟨old, -, rfl⟩ | ⟨old, -, rfl⟩
    · rw [State.finishHostWrite_video, State.finishAccess_not_halfWritten] at hhalf
      cases hhalf
    · rw [State.finishAccess_not_halfWritten] at hhalf
      cases hhalf
  · next h => simpa using h

/-- The one write in flight, half done, has its last bytes written, and no byte to come. -/
theorem State.finishWrites_of_one {addr : Addr} {v : Word} {left : List (Fin 4)}
    (hhalf : s.writeHalfDone = true) (hone : s.busAccesses = [.memWrite addr v left]) :
    s.finishWrites.bus = s.bus.setBytes addr v left ∧
      s.finishWrites.busAccesses = [.memWrite addr v []] := by
  have hfin : s.finishAccess (.memWrite addr v left) =
      (s.bus.setBytes addr v left, .memWrite addr v []) := by
    obtain ⟨-, acc, hacc, h⟩ := State.writeHalfDone_iff.mp hhalf
    obtain rfl : acc = .memWrite addr v left := by simpa [hone] using hacc
    exact State.finishAccess_of_halfWritten h
  rw [State.finishWrites, if_pos hhalf]
  rw [State.busAccesses_eq, State.finishLoopWrite_host, State.finishLoopWrite_loopAccess,
    State.finishHostWrite_busAccess, State.finishHostWrite_loopAccess]
  rcases State.busAccesses_eq_singleton hone with ⟨hhost, hloop⟩ | ⟨hhost, hloop⟩
  · rw [State.finishLoopWrite_of_none ((State.finishHostWrite_loopAccess s).trans hloop),
      State.finishHostWrite_bus hhost]
    simp [hhost, hloop, hfin]
  · rw [State.finishHostWrite_of_none hhost, State.finishLoopWrite_bus hloop]
    simp [hhost, hloop, hfin]

end Sys2Proof.Machine

/-! PROOF. Renders under `FB_SYNC = rwlock` are one event (rules R58, R194): none is ever read byte by
byte, and where one takes place no write to the framebuffer is half done. -/

namespace Sys2Proof.Machine

variable {s t : State} {a : Agent} {i : Instr}

/-! ### Renders in flight stay whole -/

/-- No render in flight is read byte by byte. -/
def State.WholeRenders (s : State) : Prop := ∀ r ∈ s.renders, r = .whole

theorem State.wholeRenders_iff : s.WholeRenders ↔
    (∀ r ∈ s.host.renderInFlight, r = .whole) ∧ ∀ r ∈ s.refresh, r = .whole := by
  simp only [State.WholeRenders, State.renders, List.forall_mem_append, Option.mem_toList,
    Option.mem_def]

/-- A host without a new render, and a refresh agent as it was. -/
theorem State.WholeRenders.of_host (h : s.WholeRenders)
    (hh : t.host.renderInFlight = s.host.renderInFlight ∨ t.host.renderInFlight = none)
    (hr : t.refresh = s.refresh) : t.WholeRenders := by
  obtain ⟨hhost, hrefresh⟩ := State.wholeRenders_iff.mp h
  rw [State.wholeRenders_iff, hr]
  rcases hh with hh | hh <;> rw [hh]
  · exact ⟨hhost, hrefresh⟩
  · exact ⟨nofun, hrefresh⟩

/-- A meaning leaves both agents' renders, but for a `STOP` after which the host waits. -/
theorem exec_renders (h : exec i s = .next t) :
    (t.host = s.host ∨ t.host = .joining) ∧ t.refresh = s.refresh := by
  rcases exec_cases h with ⟨v, rfl⟩ | ⟨addr, data, -, rfl⟩ | ⟨-, -, rfl⟩ | ⟨-, -, p, rfl⟩ |
    ⟨-, -, rfl⟩ | ⟨-, -, rfl⟩ | ⟨-, -, rfl⟩ | ⟨-, -, rfl⟩ | ⟨-, rfl⟩ | ⟨addr, -, rfl⟩ |
    ⟨-, -, -, rfl⟩ | ⟨-, -, -, rfl⟩
  · exact ⟨.inl rfl, rfl⟩
  · exact ⟨.inl rfl, rfl⟩
  · exact ⟨.inl rfl, rfl⟩
  · rw [runUnit_frame]
    exact ⟨.inl rfl, rfl⟩
  · exact ⟨.inl rfl, rfl⟩
  · unfold awaitLoop
    split
    · exact ⟨.inr rfl, rfl⟩
    · exact ⟨.inl rfl, rfl⟩
  · exact ⟨.inl rfl, rfl⟩
  · exact ⟨.inl rfl, rfl⟩
  · exact ⟨.inl rfl, rfl⟩
  · exact ⟨.inl rfl, rfl⟩
  · have hiter : (iterationStep (endWait s)).host = s.host ∧
        (iterationStep (endWait s)).refresh = s.refresh := by
      unfold iterationStep
      rw [stepUnit_frame]
      split <;> simp
    exact ⟨.inl (by simpa using hiter.1), by simpa using hiter.2⟩
  · exact ⟨.inl rfl, rfl⟩

theorem exec_wholeRenders (hs : s.WholeRenders) (h : exec i s = .next t) : t.WholeRenders := by
  obtain ⟨hhost | hhost, hrefresh⟩ := exec_renders h
  · exact hs.of_host (.inl (by rw [hhost])) hrefresh
  · exact hs.of_host (.inr (by rw [hhost]; rfl)) hrefresh

theorem HostActivity.renderInFlight_setAccess (h : HostActivity) (acc : Access) :
    (h.setAccess acc).renderInFlight = h.renderInFlight := by
  cases h <;> rfl

theorem State.WholeRenders.finishWrites (hs : s.WholeRenders) : s.finishWrites.WholeRenders := by
  refine hs.of_host (.inl ?_) s.finishWrites_refresh
  rcases s.finishWrites_cases with e | ⟨-, e⟩ <;> rw [e]
  rw [State.finishLoopWrite_host]
  rcases s.finishHostWrite_cases with e | ⟨addr, v, left, -, e⟩ <;> rw [e]
  exact HostActivity.renderInFlight_setAccess ..

/-- The one event of a locked render of the refresh agent (rules R58, R194). -/
theorem refreshEvent_whole (hs : s.refresh = some .whole) (pick : Nat) : refreshEvent pick s =
    { renderAll s.finishWrites with refresh := none }.respond .refresh .ok .absent := by
  simp only [refreshEvent, hs]
  rfl

/-- The one event of a locked render of the host (rules R58, R69, R194). -/
theorem hostEvent_whole (hs : s.host = .rendering .whole) (pick : Nat) : hostEvent pick s =
    { renderAll s.finishWrites with host := .idle }.respond .host .ok .absent := by
  simp only [hostEvent, hs]
  rfl

theorem hostEvent_wholeRenders (hs : s.WholeRenders) (pick : Nat) :
    (hostEvent pick s).WholeRenders := by
  cases hh : s.host with
  | idle => simpa [hostEvent, hh] using hs
  | access acc =>
    refine hs.of_host (.inr ?_) (hostEvent_frame pick s).1
    simp only [hostEvent, hh, hostAccessed]
    split <;> rfl
  | joining =>
    refine hs.of_host (.inr ?_) (hostEvent_frame pick s).1
    simp only [hostEvent, hh]
    split
    · rw [hh]
      rfl
    · rfl
  | stepping u =>
    refine hs.of_host (.inr ?_) (hostEvent_frame pick s).1
    simp only [hostEvent, hh, hostStepped]
    split <;> rfl
  | rendering r =>
    obtain rfl : r = .whole := (State.wholeRenders_iff.mp hs).1 r (by rw [hh]; rfl)
    rw [hostEvent_whole hh]
    exact hs.of_host (.inr rfl) s.finishWrites_refresh

theorem refreshEvent_wholeRenders (hs : s.WholeRenders) (pick : Nat) :
    (refreshEvent pick s).WholeRenders := by
  cases hr : s.refresh with
  | none => simpa [refreshEvent, hr] using hs
  | some r =>
    obtain rfl : r = .whole := (State.wholeRenders_iff.mp hs).2 r hr
    rw [refreshEvent_whole hr]
    exact State.wholeRenders_iff.mpr ⟨(State.wholeRenders_iff.mp hs.finishWrites).1, nofun⟩

/-- An event of the loop agent leaves the other two agents. -/
theorem loopEvent_agents (pick : Nat) (s : State) :
    (loopEvent pick s).host = s.host ∧ (loopEvent pick s).refresh = s.refresh := by
  unfold loopEvent
  split
  · exact ⟨rfl, rfl⟩
  · split
    · split
      · simp [beginIteration]
      · exact ⟨rfl, rfl⟩
    · exact ⟨rfl, rfl⟩
    · unfold loopStepped
      rw [unitEvent_frame]
      split <;> exact ⟨rfl, rfl⟩
    · simp

theorem runEvent_wholeRenders (hs : s.WholeRenders) (a : Agent) (pick : Nat) :
    (runEvent a pick s).WholeRenders := by
  cases a with
  | host => exact hostEvent_wholeRenders hs pick
  | refresh => exact refreshEvent_wholeRenders hs pick
  | loop =>
    obtain ⟨hhost, hrefresh⟩ := loopEvent_agents pick s
    exact hs.of_host (.inl (congrArg _ hhost)) hrefresh

theorem runInstr_wholeRenders (hs : s.WholeRenders) (h : runInstr a i s = .next t) :
    t.WholeRenders := by
  rcases runInstr_cases h with ⟨-, h⟩ | ⟨h, -⟩
  · exact exec_wholeRenders (s := { s.finishWrites with issuer := a }) hs.finishWrites h
  · exact exec_wholeRenders (s := { s with issuer := a }) hs h

/-- Under `rwlock` a render starts as one event to come. -/
theorem State.WholeRenders.startRender (hs : s.WholeRenders) (hlock : s.session.fbSync = .rwlock)
    (a : Agent) : (s.startRender a s.startOfRender).WholeRenders := by
  obtain ⟨hhost, hrefresh⟩ := State.wholeRenders_iff.mp hs
  have hwhole : ∀ r ∈ some s.startOfRender, r = .whole := by
    rintro _ ⟨⟩
    exact State.startOfRender_eq (by simp [hlock]) fun _ => rfl
  cases a with
  | host => exact State.wholeRenders_iff.mpr ⟨hwhole, hrefresh⟩
  | refresh => exact State.wholeRenders_iff.mpr ⟨hhost, hwhole⟩
  | loop => exact hs

theorem issueInstr_wholeRenders (hs : s.WholeRenders) (hlock : s.session.fbSync = .rwlock)
    (h : issueInstr a i s = .next t) : t.WholeRenders := by
  rcases issueInstr_cases h with ⟨acc, -, rfl⟩ | ⟨-, -, -, rfl⟩ | ⟨-, rfl⟩ | ⟨-, -, -, rfl⟩ | h
  · exact hs.of_host (.inr rfl) rfl
  · exact hs.of_host (.inr rfl) rfl
  · exact hs.startRender hlock a
  · exact hs.of_host (.inl (by simp [beginIteration])) (by simp [beginIteration])
  · exact runInstr_wholeRenders hs h

/-- Under `rwlock` no turn starts a render byte by byte. -/
theorem runTurn_wholeRenders {u : Turn} (hs : s.WholeRenders) (hlock : s.session.fbSync = .rwlock)
    (h : runTurn u s = .next t) : t.WholeRenders := by
  rcases runTurn_cases h with ⟨a, w, -, -, -, rfl⟩ | ⟨a, w, i, -, -, -, h⟩ | ⟨a, w, i, -, -, -, h⟩ |
    ⟨a, pick, -, rfl⟩ | ⟨-, -, rfl | h | h⟩ | ⟨d, -, rfl⟩
  · exact hs
  · exact runInstr_wholeRenders hs h
  · exact issueInstr_wholeRenders hs hlock h
  · exact runEvent_wholeRenders hs a pick
  · exact hs
  · exact runInstr_wholeRenders hs h
  · exact runInstr_wholeRenders hs h
  · exact hs

/-- No step starts a render byte by byte under `rwlock` (rule R58). -/
theorem step_lockInv (hs : s.LockInv) (h : step s = .next t) : t.LockInv := by
  intro hlock
  obtain ⟨-, -, -, hsession⟩ := sessionIsFixed s t h
  rw [hsession] at hlock
  have hwhole : s.WholeRenders := hs hlock
  rcases step_cases h with ⟨-, rfl⟩ | ⟨-, pick, d, rfl⟩ | ⟨u, rest, -, h⟩
  · exact hwhole
  · exact runEvent_wholeRenders (s := s.tick d) hwhole _ pick
  · exact runTurn_wholeRenders (s := { s with schedule := rest }) hwhole hlock h

/-! ### The statement -/

/-- The opcode of `RENDER` (rule R66). -/
theorem decode_render {w : CommandWord} (h : opField w = 0x30) :
    decode (.command w) = .ok .render := by
  simp [decode, decodeCommand, h]

/-- A `RENDER` word of the host or the refresh agent is a whole render at once (rules R58, R194). -/
theorem step_render {w : CommandWord} {rest : List Turn} (hop : opField w = 0x30)
    (hs : s.schedule = .command a w :: rest) (hb : s.busy a = false) (ha : a ≠ .loop) :
    step s = .next (({ renderAll s.finishWrites with
      schedule := rest, issuer := a } : State).respond a .ok .absent) := by
  have hadm : Instr.render.admitted a = true := by simpa [Instr.admitted] using ha
  rw [step_command hs hb (decode_render hop) hadm, runInstr_render, State.finishWrites_schedule]
  rfl

/-- Settles O58, clause by clause: the invariant, the three forms of a locked render, and what
finishing the writes before it leaves. -/
theorem lockedRendersAreWhole : Obligations.LockedRendersAreWhole := by
  refine ⟨fun s t => step_lockInv, fun s pick hs => refreshEvent_whole hs pick,
    fun s pick hs => hostEvent_whole hs pick, fun s a w rest => step_render,
    State.finishWrites_not_halfDone, fun s addr v left hhalf hone => ?_⟩
  obtain ⟨hbus, haccs⟩ := State.finishWrites_of_one hhalf hone
  rw [hbus]
  refine ⟨haccs, fun k hk => ?_, fun c hc => ?_, fun c => ?_⟩
  · rw [AddressSpace.byteAt_setBytes, if_pos ⟨k, hk, rfl⟩, Nat.add_sub_cancel_left]
    rfl
  · rw [AddressSpace.byteAt_setBytes, if_neg]
    rintro ⟨k, hk, rfl⟩
    exact hc k hk rfl
  · simp [AddressSpace.cellAt]

end Sys2Proof.Machine

/-! PROOF. The refresh agent only reads (rules R58, R61, R69, R117). -/

namespace Sys2Proof.Machine

variable {s t : State}

/-- `t` differs from `s` at most in what a render writes, the refresh agent and the model's records:
bus, processor, scheduler, session, host and framebuffer base are those of `s`. -/
structure State.SameButRender (s t : State) : Prop where
  bus : t.bus = s.bus
  cpu : t.cpu = s.cpu
  sched : t.sched = s.sched
  session : t.session = s.session
  host : t.host = s.host
  base : t.video.frameBufferBase = s.video.frameBufferBase

theorem renderEvent_sameButRender (r : RenderProgress) (pick : Nat) (s : State) :
    s.SameButRender (renderEvent r pick s).1 := by
  cases r with
  | whole => exact ⟨rfl, rfl, rfl, rfl, rfl, rfl⟩
  | reading base unread =>
    simp only [renderEvent]
    split <;> exact ⟨rfl, rfl, rfl, rfl, rfl, rfl⟩

/-- `t` differs at most in that from `s` itself or, where a write to the framebuffer is half done,
from `s` with that write finished before the render (rule R58). -/
def State.OnlyReads (s t : State) : Prop :=
  s.SameButRender t ∨ (s.writeHalfDone = true ∧ s.finishWrites.SameButRender t)

theorem State.OnlyReads.of_finishWrites (h : s.finishWrites.SameButRender t) : s.OnlyReads t := by
  rcases s.finishWrites_cases with e | ⟨hhalf, -⟩
  · exact .inl (e ▸ h)
  · exact .inr ⟨hhalf, h⟩

theorem State.SameButRender.refl (s : State) : s.SameButRender s := ⟨rfl, rfl, rfl, rfl, rfl, rfl⟩

theorem State.SameButRender.of_eq {t' : State} (h : s.SameButRender t) (hbus : t'.bus = t.bus)
    (hcpu : t'.cpu = t.cpu) (hsched : t'.sched = t.sched) (hsession : t'.session = t.session)
    (hhost : t'.host = t.host) (hvideo : t'.video = t.video) : s.SameButRender t' where
  bus := hbus.trans h.bus
  cpu := hcpu.trans h.cpu
  sched := hsched.trans h.sched
  session := hsession.trans h.session
  host := hhost.trans h.host
  base := hvideo ▸ h.base

theorem refreshEvent_onlyReads (pick : Nat) (s : State) : s.OnlyReads (refreshEvent pick s) := by
  unfold refreshEvent
  split
  · exact .inl (.refl s)
  · next r _ =>
    have hsame : (s.readyFor r).SameButRender (renderAnswer .refresh
        (renderEvent r pick (s.readyFor r)).2
        ((renderEvent r pick (s.readyFor r)).1.setRefresh
          (renderEvent r pick (s.readyFor r)).2)) := by
      unfold renderAnswer
      split <;> exact (renderEvent_sameButRender r pick _).of_eq rfl rfl rfl rfl rfl rfl
    cases r with
    | whole => exact .of_finishWrites hsame
    | reading base unread => exact .inl hsame

theorem runInstr_refresh_onlyReads {i : Instr} (ha : i.admitted .refresh = true)
    (h : runInstr .refresh i s = .next t) : s.OnlyReads t := by
  cases i with
  | render =>
    rw [runInstr_render] at h
    cases h
    exact .of_finishWrites ⟨rfl, rfl, rfl, rfl, rfl, rfl⟩
  | getRate =>
    cases h
    exact .inl ⟨rfl, rfl, rfl, rfl, rfl, rfl⟩
  | getIsRunning =>
    cases h
    exact .inl ⟨rfl, rfl, rfl, rfl, rfl, rfl⟩
  | read32 | write32 | step | start | stop | pause | resume | setFbBase | loopIter | loopExit
  | insn => simp [Instr.admitted] at ha

theorem issueInstr_refresh_onlyReads {i : Instr} (ha : i.admitted .refresh = true)
    (h : issueInstr .refresh i s = .next t) : s.OnlyReads t := by
  cases i with
  | render =>
    cases h
    exact .inl ⟨rfl, rfl, rfl, rfl, rfl, rfl⟩
  | getRate => exact runInstr_refresh_onlyReads ha h
  | getIsRunning => exact runInstr_refresh_onlyReads ha h
  | read32 | write32 | step | start | stop | pause | resume | setFbBase | loopIter | loopExit
  | insn => simp [Instr.admitted] at ha

/-- A command word of the refresh agent reads, or is refused (rules R67, R69). -/
theorem acceptCommand_onlyReads {run : Agent → Instr → State → Host.Outcome State Fault Refusal}
    {w : CommandWord} (hrun : ∀ i : Instr, i.admitted .refresh = true →
      run .refresh i s = .next t → s.OnlyReads t)
    (h : acceptCommand run .refresh w s = .next t) : s.OnlyReads t := by
  obtain ⟨-, ⟨-, rfl⟩ | ⟨i, hd, h⟩⟩ := acceptCommand_cases h
  · exact .inl ⟨rfl, rfl, rfl, rfl, rfl, rfl⟩
  · exact hrun i (decodeFor_admitted hd).2 h

theorem State.OnlyReads.of_schedule {rest : List Turn}
    (h : ({ s with schedule := rest } : State).OnlyReads t) : s.OnlyReads t := by
  rcases h with ⟨hbus, hcpu, hsched, hsession, hhost, hbase⟩ | ⟨hhalf, h⟩
  · exact .inl ⟨hbus, hcpu, hsched, hsession, hhost, hbase⟩
  · rw [State.finishWrites_schedule] at h
    obtain ⟨hbus, hcpu, hsched, hsession, hhost, hbase⟩ := h
    exact .inr ⟨hhalf, hbus, hcpu, hsched, hsession, hhost, hbase⟩

/-- Settles O51: the refresh agent's turn reads, after the writes that its lock has finished. -/
theorem refreshAgentOnlyReads : Obligations.RefreshAgentOnlyReads := by
  intro s t rest hs h
  have hread : s.OnlyReads t := by
    refine State.OnlyReads.of_schedule (rest := rest) ?_
    rcases hs with ⟨w, hs⟩ | ⟨w, hs⟩ | ⟨pick, hs⟩ <;> rw [step, hs] at h
    · exact acceptCommand_onlyReads (fun i => runInstr_refresh_onlyReads) h
    · exact acceptCommand_onlyReads (fun i => issueInstr_refresh_onlyReads) h
    · cases h
      exact refreshEvent_onlyReads pick _
  rcases hread with hsame | ⟨hhalf, hsame⟩
  · refine ⟨hsame.cpu, hsame.session, hsame.base, ?_, .inl ⟨hsame.bus, hsame.sched, hsame.host⟩⟩
    rw [hsame.sched]
  · refine ⟨hsame.cpu.trans s.finishWrites_cpu, hsame.session.trans s.finishWrites_session,
      hsame.base.trans (by rw [s.finishWrites_video]), ?_,
      .inr ⟨(State.writeHalfDone_iff.mp hhalf).1, hhalf, hsame.bus, hsame.sched, hsame.host⟩⟩
    rw [hsame.sched]
    exact s.finishWrites_sched

end Sys2Proof.Machine

/-! PROOF. The decoder and the encoder (rules R62, R63, R66, R67, R72): what each opcode
decodes to, and that the two agree on every used field. -/

namespace Sys2Proof.Machine

/-! ### What each opcode of the map decodes to (rules R63, R66) -/

section
variable {w : CommandWord}

theorem decode_read32 (h : opField w = 0x01) :
    decode (.command w) = .ok (.read32 (addrField w)) := by
  simp [decode, decodeCommand, h]

theorem decode_write32 (h : opField w = 0x02) :
    decode (.command w) = .ok (.write32 (addrField w) (dataField w)) := by
  simp [decode, decodeCommand, h]

theorem decode_start (h : opField w = 0x20) : decode (.command w) = .ok .start := by
  simp [decode, decodeCommand, h]

theorem decode_stop (h : opField w = 0x21) : decode (.command w) = .ok .stop := by
  simp [decode, decodeCommand, h]

theorem decode_pause (h : opField w = 0x22) : decode (.command w) = .ok .pause := by
  simp [decode, decodeCommand, h]

theorem decode_resume (h : opField w = 0x23) : decode (.command w) = .ok .resume := by
  simp [decode, decodeCommand, h]

theorem decode_getRate (h : opField w = 0x24) : decode (.command w) = .ok .getRate := by
  simp [decode, decodeCommand, h]

theorem decode_getIsRunning (h : opField w = 0x25) :
    decode (.command w) = .ok .getIsRunning := by
  simp [decode, decodeCommand, h]

theorem decode_setFbBase (h : opField w = 0x31) :
    decode (.command w) = .ok (.setFbBase (addrField w)) := by
  simp [decode, decodeCommand, h]

theorem decode_loopIter (h : opField w = 0x80) : decode (.command w) = .ok .loopIter := by
  simp [decode, decodeCommand, h]

theorem decode_loopExit (h : opField w = 0x81) : decode (.command w) = .ok .loopExit := by
  simp [decode, decodeCommand, h]

/-- Every opcode outside the map is reserved (rule R67). -/
theorem decode_reserved (h : opField w ∉ ([0x01, 0x02, 0x10, 0x20, 0x21, 0x22, 0x23, 0x24, 0x25,
      0x30, 0x31, 0x80, 0x81] : List Byte)) :
    decode (.command w) = .error (.reservedOpcode (opField w)) := by
  simp only [List.mem_cons, List.not_mem_nil, or_false, not_or] at h
  simp only [decode, decodeCommand, h, if_false]

end

/-! ### Decoding and encoding -/

/-- Settles O1, operation by operation: the opcode of the encoding selects the operation, whose
operands are the fields put there. -/
theorem decodeOfEncode : Obligations.DecodeOfEncode := by
  intro i
  cases i with
  | read32 addr =>
    rw [encode, decode_read32 (opField_commandWord ..), addrField_commandWord]
  | write32 addr data =>
    rw [encode, decode_write32 (opField_commandWord ..), addrField_commandWord,
      dataField_commandWord]
  | step => exact decode_step (opField_commandWord ..)
  | start => exact decode_start (opField_commandWord ..)
  | stop => exact decode_stop (opField_commandWord ..)
  | pause => exact decode_pause (opField_commandWord ..)
  | resume => exact decode_resume (opField_commandWord ..)
  | getRate => exact decode_getRate (opField_commandWord ..)
  | getIsRunning => exact decode_getIsRunning (opField_commandWord ..)
  | render => exact decode_render (opField_commandWord ..)
  | setFbBase addr =>
    rw [encode, decode_setFbBase (opField_commandWord ..), addrField_commandWord]
  | loopIter => exact decode_loopIter (opField_commandWord ..)
  | loopExit => exact decode_loopExit (opField_commandWord ..)
  | insn iw => rfl

/-- Settles O2: the decoder keeps the opcode and the used fields, and the encoder puts zeros into
the others. -/
theorem encodeOfDecodeIsCanonical : Obligations.EncodeOfDecodeIsCanonical := by
  intro w i h
  rcases decodeCommand_cases h with ⟨hop, rfl⟩ | ⟨hop, rfl⟩ | ⟨hop, rfl⟩ | ⟨hop, rfl⟩ | ⟨hop, rfl⟩ |
      ⟨hop, rfl⟩ | ⟨hop, rfl⟩ | ⟨hop, rfl⟩ | ⟨hop, rfl⟩ | ⟨hop, rfl⟩ | ⟨hop, rfl⟩ | ⟨hop, rfl⟩ |
      ⟨hop, rfl⟩
  -- `WRITE32` alone uses every field, so its word is kept as it is
  case inr.inl =>
    have hw : commandWord 0x02 (addrField w) (dataField w) = w := hop ▸ commandWord_fields w
    simp only [encode, Instr.format, canonicalWord, hw]
  all_goals simp only [encode, Instr.format, canonicalWord, hop]

/-- Zeroing the ignored fields keeps the opcode (rule R63). -/
theorem opField_canonicalWord (f : Format) (w : CommandWord) :
    opField (canonicalWord f w) = opField w := by
  cases f with
  | n => exact opField_commandWord ..
  | a => exact opField_commandWord ..
  | ad => rfl
  | i32 => rfl

/-- The address is a used field of the format `A` (rule R63). -/
theorem addrField_canonicalWord (w : CommandWord) :
    addrField (canonicalWord .a w) = addrField w := addrField_commandWord ..

/-- Words with the same canonical word have the same opcode. -/
theorem opField_eq_of_canonicalWord {f : Format} {w w' : CommandWord}
    (h : canonicalWord f w' = canonicalWord f w) : opField w' = opField w := by
  rw [← opField_canonicalWord f w', h, opField_canonicalWord]

/-- Words of the format `A` with the same canonical word have the same address. -/
theorem addrField_eq_of_canonicalWord {w w' : CommandWord}
    (h : canonicalWord .a w' = canonicalWord .a w) : addrField w' = addrField w := by
  rw [← addrField_canonicalWord w', h, addrField_canonicalWord]

/-- Settles O3: the equal canonical words give the opcode and the used operands of `w'`. -/
theorem ignoredFieldsDoNotMatter : Obligations.IgnoredFieldsDoNotMatter := by
  intro w w' i hd hc
  have hop : opField w' = opField w := opField_eq_of_canonicalWord hc
  rcases decodeCommand_cases hd with ⟨h, rfl⟩ | ⟨h, rfl⟩ | ⟨h, rfl⟩ | ⟨h, rfl⟩ | ⟨h, rfl⟩ |
      ⟨h, rfl⟩ | ⟨h, rfl⟩ | ⟨h, rfl⟩ | ⟨h, rfl⟩ | ⟨h, rfl⟩ | ⟨h, rfl⟩ | ⟨h, rfl⟩ | ⟨h, rfl⟩ <;>
    rw [← hop] at h
  · rw [decode_read32 h, addrField_eq_of_canonicalWord hc]
  · have hw : w' = w := hc
    rw [hw, hd]
  · exact decode_step h
  · exact decode_start h
  · exact decode_stop h
  · exact decode_pause h
  · exact decode_resume h
  · exact decode_getRate h
  · exact decode_getIsRunning h
  · exact decode_render h
  · rw [decode_setFbBase h, addrField_eq_of_canonicalWord hc]
  · exact decode_loopIter h
  · exact decode_loopExit h

/-- Settles O7: each word's opcode is one of the map, or reserved, and its fields are read off. -/
theorem wordsOfTheSpecDecode : Obligations.WordsOfTheSpecDecode :=
  ⟨decode_write32 rfl, decode_write32 rfl, decode_read32 rfl, decode_step rfl, decode_setFbBase rfl,
    decode_reserved (by decide), rfl⟩

end Sys2Proof.Machine

/-! PROOF. Command words that the port refuses (rules R67, R68, R69): the turn is taken, the agent
is answered, and nothing else changes. -/

namespace Sys2Proof.Machine

/-- A word that its idle issuer's decoder does not take is refused: the turn is taken and the agent
has its response (rules R64, R67). -/
theorem step_of_decodeFor_none {s : State} {a : Agent} {w : CommandWord} {rest : List Turn}
    (hs : s.schedule = .command a w :: rest ∨ s.schedule = .issue a w :: rest)
    (hb : s.busy a = false) (hd : decodeFor a w = none) :
    step s = .next { s with
      schedule := rest
      responses := s.responses.deliver a { status := .refused, value := .absent } } := by
  have hb' : ({ s with schedule := rest } : State).busy a = false :=
    (s.busy_schedule rest a).trans hb
  rcases hs with hs | hs <;>
    simp [step, hs, runTurn, acceptCommand, hb', hd, refuseCommand, State.respond]

/-- No decoder takes a word that decodes to nothing (rule R67). -/
theorem decodeFor_of_error {w : CommandWord} {r : Reject} (a : Agent)
    (h : decode (.command w) = .error r) : decodeFor a w = none := by
  have hc : decodeCommand w = .error r := h
  simp [decodeFor, hc]

/-- The decoder of an issuer does not take what it may not issue (rule R69). -/
theorem decodeFor_of_not_admitted {a : Agent} {w : CommandWord} {i : Instr}
    (hd : decode (.command w) = .ok i) (ha : i.admitted a = false) : decodeFor a w = none := by
  have hc : decodeCommand w = .ok i := hd
  simp [decodeFor, hc, ha]

/-- Settles O4: a word with a reserved opcode decodes to nothing. -/
theorem reservedCommandRefused : Obligations.ReservedCommandRefused :=
  fun _ a _ _ hs hb hop => step_of_decodeFor_none hs hb (decodeFor_of_error a (decode_reserved hop))

/-- Settles O6: the issuer restrictions are part of the port's decoder. -/
theorem unadmittedCommandRefused : Obligations.UnadmittedCommandRefused :=
  fun _ _ _ _ _ hs hb hd ha => step_of_decodeFor_none hs hb (decodeFor_of_not_admitted hd ha)

/-- Settles O5 by O6: only the loop agent may issue the two events (rule R68). -/
theorem loopEventsRefusedAtPort : Obligations.LoopEventsRefusedAtPort := by
  intro s a w rest hs hb ha hop
  rcases hop with hop | hop
  · exact unadmittedCommandRefused s a w .loopIter rest hs hb (decode_loopIter hop)
      (beq_eq_false_iff_ne.mpr ha)
  · exact unadmittedCommandRefused s a w .loopExit rest hs hb (decode_loopExit hop)
      (beq_eq_false_iff_ne.mpr ha)

end Sys2Proof.Machine

/-! PROOF. `INSN` and `STEP` (rules R72, R90, R91, R96, R99, R100): both are the strategy's run, on
the word that is given or the one that is fetched. -/

namespace Sys2Proof.Machine

/-- Without a running processor an `INSN` is a no-op (rule R91). -/
theorem exec_insn_of_not_running {s : State} (iw : Word) (h : s.cpu.isRunning = false) :
    exec (.insn iw) s = .next (s.stepDone s.issuer (.ok 0)) := by
  simp [exec, execInsn, h]

/-- On a running processor an `INSN` is the unit of work whose fetch finds the word (rule R72). -/
theorem exec_insn_of_running {s : State} (iw : Word) (h : s.cpu.isRunning = true) :
    exec (.insn iw) s = .next
      ((runUnit (ExecProg.fetched s.execProg s.bus s.cpu.pc iw) s).1.stepDone s.issuer
        (runUnit (ExecProg.fetched s.execProg s.bus s.cpu.pc iw) s).2) := by
  simp [exec, execInsn, h]

/-- The unit of work whose fetch finds what the bus holds at `pc` is the unit of work (rule R99). -/
theorem runUnit_fetched (p : ExecProg) (s : State) :
    runUnit (ExecProg.fetched p s.bus s.cpu.pc (s.bus.read32 (truncAddr s.cpu.pc))) s =
      runUnit p s := by
  rw [runUnit, ExecProg.run_fetched, runUnit]

/-- Settles O11: the fetch of the word that stands at `pc` changes nothing in the run. -/
theorem stepIsInsnOfFetchedWord : Obligations.StepIsInsnOfFetchedWord := by
  intro s
  cases h : s.cpu.isRunning with
  | false =>
    rw [exec_insn_of_not_running _ h]
    simp [exec, execStep, stepUnit, h]
  | true =>
    rw [exec_insn_of_running _ h, runUnit_fetched]
    simp [exec, execStep, stepUnit, h]

/-- A run that ends in `Done` commits with a count of at least 1 (rules R92, R95, R96). -/
theorem runUnit_of_done {p : ExecProg} {s : State} {x : Regs} {pc : Word} {n : Nat}
    (h : (ExecProg.run p s.bus).2 = .done x pc n) : 1 ≤ n ∧
      runUnit p s = (commitUnit x pc { s with bus := (ExecProg.run p s.bus).1 }, .ok n) := by
  constructor
  · rcases ExecProg.run_outcome p s.bus with ⟨x', pc', m, hd⟩ | ⟨info, hd, -⟩ <;> rw [h] at hd
    · cases hd
      exact Nat.le_add_left 1 m
    · cases hd
  · rw [runUnit, h]
    rfl

/-- A run that ends in `DecodeError` takes the halt entry and leaves the bus (rules R96, R162). -/
theorem runUnit_of_decodeError {p : ExecProg} {s : State} {info : List Word}
    (h : (ExecProg.run p s.bus).2 = .decodeError info) :
    runUnit p s = (haltEntry info s, .decodeError) := by
  rcases ExecProg.run_outcome p s.bus with ⟨x, pc, n, hd⟩ | ⟨info', -, hbus⟩
  · rw [h] at hd
    cases hd
  · rw [runUnit, h, hbus]
    rfl

/-- `ExecNull` fetches at `pc` and recognises no word (rule R100). -/
theorem run_fetched_of_null {s : State} (iw : Word) (h : s.session.strategy = .null) :
    (ExecProg.run (ExecProg.fetched s.execProg s.bus s.cpu.pc iw) s.bus).2 =
      .decodeError [s.cpu.pc, iw] := by
  simp [State.execProg, h, nullExec, ExecProg.fetched, ExecProg.run]

/-- An `INSN` whose run fails halts the processor (rules R90, R162). -/
theorem exec_insn_of_decodeError {s : State} {iw : Word} {info : List Word}
    (hr : s.cpu.isRunning = true)
    (h : (ExecProg.run (ExecProg.fetched s.execProg s.bus s.cpu.pc iw) s.bus).2 =
      .decodeError info) :
    exec (.insn iw) s = .next ((haltEntry info s).stepDone s.issuer .decodeError) := by
  rw [exec_insn_of_running iw hr, runUnit_of_decodeError h]

/-- Settles O24: the two ends of a run, and `ExecNull`, whose run always fails. -/
theorem insnFollowsExec : Obligations.InsnFollowsExec := by
  refine fun s iw => ⟨exec_insn_of_not_running iw, fun hr => ⟨fun x pc n h => ?_, fun info h => ?_⟩,
    fun hr hnull => exec_insn_of_decodeError hr (run_fetched_of_null iw hnull)⟩
  · obtain ⟨hn, hunit⟩ := runUnit_of_done h
    refine ⟨hn, ?_⟩
    rw [exec_insn_of_running iw hr, hunit]
    rfl
  · exact exec_insn_of_decodeError hr h

end Sys2Proof.Machine

/-! PROOF. The word that `withFetchWord` places is what the next step runs (log 21): the placed
state has no operation in flight that could be in its way. -/

namespace Sys2Proof.Machine

/-! ### No operation in flight -/

/-- No agent has an operation in flight. -/
def State.Resting (s : State) : Prop := ∀ a, s.busy a = false

theorem State.settled_resting (s : State) : s.settled.Resting := by
  intro a
  cases a with
  | loop => cases h : s.sched.ctx <;> simp [State.busy, State.settled, h]
  | refresh => rfl
  | host => rfl

/-- The end of the loop leaves no agent busy that was not. -/
theorem State.Resting.endLoop {s : State} (hs : s.Resting) : (endLoop s).Resting := by
  intro a
  cases a with
  | loop => rfl
  | refresh => exact hs .refresh
  | host => exact hs .host

/-- The live context of a resting state is between two iterations. -/
theorem State.Resting.liveContext_activity {s : State} (hs : s.Resting) :
    s.liveContext.activity = .idle := by
  have h := hs .loop
  cases hc : s.sched.ctx with
  | none => simp [State.liveContext, hc]
  | some c => simpa [State.liveContext, State.busy, hc] using h

/-- A resting state stays at rest when its live context is put in place. -/
theorem State.Resting.withLiveContext {s : State} (hs : s.Resting) (st : SchedState) :
    ({ s with sched := { s.sched with schedState := st, ctx := some s.liveContext } } :
      State).Resting := by
  intro a
  cases a with
  | loop => simp [State.busy, hs.liveContext_activity]
  | refresh => exact hs .refresh
  | host => exact hs .host

theorem State.Resting.preparedFor {s : State} (hs : s.Resting) (w : CommandWord) :
    (s.preparedFor w).Resting := by
  unfold State.preparedFor
  split
  · exact hs.endLoop
  split
  · exact hs.withLiveContext _
  split
  · exact hs.withLiveContext _
  · exact hs

/-- Nothing is half written while no agent has an operation in flight (rule R58). -/
theorem State.Resting.writeHalfDone {s : State} (hs : s.Resting) : s.writeHalfDone = false := by
  have hhost : s.host = .idle := by simpa [State.busy] using hs .host
  have hloop : s.sched.ctx.bind (fun c => c.activity.busAccess) = none := by
    have h := hs .loop
    cases hc : s.sched.ctx with
    | none => rfl
    | some c =>
      have hidle : c.activity = .idle := by simpa [State.busy, hc] using h
      simp [hidle, LoopActivity.busAccess]
  simp [State.writeHalfDone, State.busAccesses, hhost, hloop, HostActivity.busAccess]

/-! ### What is placed -/

@[simp] theorem State.settled_schedule (s : State) : s.settled.schedule = s.schedule := rfl

@[simp] theorem State.preparedFor_schedule (s : State) (w : CommandWord) :
    (s.preparedFor w).schedule = s.schedule := by
  unfold State.preparedFor
  split_ifs <;> rfl

theorem placeCommand_schedule (s : State) (w : CommandWord) :
    (placeCommand s w).schedule = .command (issuerOf w) w :: s.schedule := by
  simp [placeCommand]

theorem placeCommand_resting (s : State) (w : CommandWord) : (placeCommand s w).Resting :=
  s.settled_resting.preparedFor w

/-- A `STEP` is placed without a live context (rules R69, R93). -/
theorem placeCommand_ctxLive_of_step {s : State} {w : CommandWord} (h : opField w = 0x10) :
    (placeCommand s w).sched.ctxLive = false := by
  simp [placeCommand, State.preparedFor, h, ExecutionScheduler.ctxLive]

/-- The opcode of a word that decodes to `STEP` (rule R66). -/
theorem opField_of_decode_step {w : CommandWord} (h : decode (.command w) = .ok .step) :
    opField w = 0x10 := by
  simpa using decodeCommand_cases h

/-- The agent that a word is placed for may issue its operation (rules R68, R69). -/
theorem admitted_issuerOf {w : CommandWord} {i : Instr} (h : decode (.command w) = .ok i) :
    i.admitted (issuerOf w) = true := by
  rcases decodeCommand_cases h with ⟨hop, rfl⟩ | ⟨hop, rfl⟩ | ⟨hop, rfl⟩ | ⟨hop, rfl⟩ | ⟨hop, rfl⟩ |
      ⟨hop, rfl⟩ | ⟨hop, rfl⟩ | ⟨hop, rfl⟩ | ⟨hop, rfl⟩ | ⟨hop, rfl⟩ | ⟨hop, rfl⟩ | ⟨hop, rfl⟩ |
      ⟨hop, rfl⟩ <;>
    simp [Instr.admitted, issuerOf, hop]

theorem State.withFetchWord_command (s : State) (w : CommandWord) :
    s.withFetchWord 72 w.toNat = placeCommand s w := by
  simp [State.withFetchWord]

theorem State.withFetchWord_instruction (s : State) (iw : Word) :
    s.withFetchWord 32 iw.toNat = placeInsn s iw := by
  simp [State.withFetchWord]

/-! ### The step after the placing -/

/-- A resting state runs every admitted operation as its meaning, a `STEP` without a context. -/
theorem State.Resting.runInstr_eq {s : State} (hs : s.Resting) {a : Agent} {i : Instr}
    (hl : i = .step → s.sched.ctxLive = false) :
    runInstr a i s = exec i { s with issuer := a } := by
  by_cases hr : i = .render
  · rw [hr, runInstr_render, State.finishWrites_of_none hs.writeHalfDone]
  · exact runInstr_eq_exec (fun ⟨hi, hlive⟩ => by simp [hl hi] at hlive) hr

/-- A step of a resting state runs a whole command as its meaning. -/
theorem State.Resting.step_command_eq {s : State} (hs : s.Resting) {a : Agent} {w : CommandWord}
    {i : Instr} {rest : List Turn} (hsched : s.schedule = .command a w :: rest)
    (hd : decode (.command w) = .ok i) (ha : i.admitted a = true)
    (hl : i = .step → s.sched.ctxLive = false) :
    step s = exec i { s with schedule := rest, issuer := a } := by
  rw [step_command hsched (hs a) hd ha]
  exact State.Resting.runInstr_eq (fun b => (s.busy_schedule rest b).trans (hs b)) hl

theorem step_placeCommand (s : State) {w : CommandWord} {i : Instr}
    (hd : decode (.command w) = .ok i) : step (placeCommand s w) =
      exec i { placeCommand s w with schedule := s.schedule, issuer := issuerOf w } :=
  (placeCommand_resting s w).step_command_eq (placeCommand_schedule s w) hd (admitted_issuerOf hd)
    fun hi => placeCommand_ctxLive_of_step (opField_of_decode_step (hi ▸ hd))

/-- The step after an instruction word is placed is the `STEP` that fetches it (rule R99). -/
theorem step_placeInsn (s : State) (iw : Word) : step (placeInsn s iw) =
    exec (.insn iw) { placeInsn s iw with schedule := s.schedule, issuer := .host } := by
  have hrest : (placeInsn s iw).Resting := s.settled_resting.endLoop
  have hfetch : (placeInsn s iw).bus.read32 (truncAddr (placeInsn s iw).cpu.pc) = iw :=
    AddressSpace.read32_write32_same ..
  rw [hrest.step_command_eq rfl (decode_step (opField_commandWord ..)) rfl fun _ => rfl,
    stepIsInsnOfFetchedWord]
  exact congrArg (fun v => exec (.insn v) _) hfetch

/-- Settles O12: the placed state is at rest, with the word's turn in front. -/
theorem placedWordRunsNext : Obligations.PlacedWordRunsNext :=
  ⟨fun s w _ hd => s.withFetchWord_command w ▸ step_placeCommand s hd,
    fun s iw => s.withFetchWord_instruction iw ▸ step_placeInsn s iw⟩

end Sys2Proof.Machine

/-! PROOF. The pseudo-operation `TOGGLE` (rules R71, R130). -/

namespace Sys2Proof.Machine

/-- A step that takes a `TOGGLE` of an idle host runs the operation it expands to
(rules R71, R130). -/
theorem step_toggle_of_some {s : State} {rest : List Turn} {i : Instr}
    (hs : s.schedule = .toggle :: rest) (hh : s.host = .idle)
    (h : expandToggle s.sched.schedState = some i) :
    step s = runInstr .host i { s with schedule := rest } := by
  simp [step, hs, runTurn, runToggle, State.busy, hh, h]

/-- A `TOGGLE` that expands to no operation only takes its turn (rule R130). -/
theorem step_toggle_of_none {s : State} {rest : List Turn} (hs : s.schedule = .toggle :: rest)
    (hh : s.host = .idle) (h : expandToggle s.sched.schedState = none) :
    step s = .next { s with schedule := rest } := by
  simp [step, hs, runTurn, runToggle, State.busy, hh, h]

/-- Settles O40, by the lifecycle state: neither `PAUSE` nor `RESUME` is held back at the port. -/
theorem toggleResult : Obligations.ToggleResult := by
  refine fun s rest hs hh => ⟨fun h => ?_, fun h => ?_, ?_⟩
  · rw [step_toggle_of_some hs hh (i := .pause) (by rw [h]; rfl)]
    exact runInstr_eq_exec (by simp) (by simp)
  · rw [step_toggle_of_some hs hh (i := .resume) (by rw [h]; rfl)]
    exact runInstr_eq_exec (by simp) (by simp)
  · rintro (h | h) <;> exact step_toggle_of_none hs hh (by rw [h]; rfl)

end Sys2Proof.Machine

/-! PROOF. The bus operations `READ32` and `WRITE32` (rules R80 to R84): what each answers and leaves
unchanged, and what a read finds after writes elsewhere. -/

namespace Sys2Proof.Machine

variable {b : AddressSpace} {a c : Addr} {v : Word}

/-! ### Truncated values and their bytes -/

/-- `trunc_32` is the remainder modulo `2^32`, of negative values as well (rule R82). -/
theorem toNat_trunc32 (val : Int) : ((trunc32 val).toNat : Int) = val % 2 ^ 32 := by
  rw [trunc32, BitVec.toNat_ofInt, Int.toNat_of_nonneg (Int.emod_nonneg _ (by decide))]
  rfl

theorem toNat_byteOf (v : Word) (k : Nat) :
    (byteOf v k).toNat = v.toNat / 2 ^ (8 * (3 - k)) % 256 := by
  rw [byteOf, BitVec.extractLsb'_toNat, Nat.shiftRight_eq_div_pow]

/-- The bytes of a truncated value are those of the value itself (rules R46, R82). -/
theorem toNat_byteOf_trunc32 (val : Int) {k : Nat} (hk : k < 4) :
    ((byteOf (trunc32 val) k).toNat : Int) = val / 2 ^ (8 * (3 - k)) % 256 := by
  have hval := toNat_trunc32 val
  rw [toNat_byteOf]
  interval_cases k <;> omega

/-- A word is 0 exactly when its four bytes are. -/
theorem word_eq_zero_iff : v = 0 ↔ ∀ k, k < 4 → byteOf v k = 0 := by
  have hzero : ∀ k, byteOf 0 k = 0 := fun k => BitVec.extractLsb'_zero
  refine ⟨fun hv k _ => hv ▸ hzero k, fun hv => word_ext fun k hk => ?_⟩
  rw [hv k hk, hzero]

/-! ### Where the decoder sends a read and a write (rules R41, R42) -/

theorem AddressSpace.read32_of_memory (h : a.toNat < b.size - 4) :
    b.read32 a = b.memRead32 a.toNat := if_pos (AddressSpace.toMemory_iff.mpr h)

theorem AddressSpace.read32_of_register (h : b.size - 4 ≤ a.toNat) :
    b.read32 a = b.cellAt a.toNat :=
  if_neg (Bool.not_eq_true _ ▸ AddressSpace.toMemory_false_iff.mpr h)

theorem AddressSpace.write32_of_memory (h : a.toNat < b.size - 4) :
    b.write32 a v = b.memWrite32 a.toNat v := if_pos (AddressSpace.toMemory_iff.mpr h)

theorem AddressSpace.write32_of_register (h : b.size - 4 ≤ a.toNat) :
    b.write32 a v = b.setCellAt a.toNat v :=
  if_neg (Bool.not_eq_true _ ▸ AddressSpace.toMemory_false_iff.mpr h)

/-- A memory read is 0 exactly when its four bytes are (rule R84). -/
theorem AddressSpace.read32_eq_zero_iff (h : a.toNat < b.size - 4) :
    b.read32 a = 0 ↔ ∀ k, k < 4 → b.byteAt (a.toNat + k) = 0 := by
  rw [AddressSpace.read32_of_memory h, word_eq_zero_iff]
  exact forall₂_congr fun k hk => by rw [b.byteOf_memRead32 a.toNat hk]

/-! ### Writes apart from an address (rules R83, R84) -/

theorem AddressSpace.apart_of_memory (h : a.toNat < b.size - 4) : b.Apart a c ↔
    b.size - 4 ≤ c.toNat ∨ c.toNat + 4 ≤ a.toNat ∨ a.toNat + 4 ≤ c.toNat := by
  rw [← AddressSpace.toMemory_false_iff]
  exact iff_of_eq (if_pos (AddressSpace.toMemory_iff.mpr h))

theorem AddressSpace.apart_of_register (h : b.size - 4 ≤ a.toNat) : b.Apart a c ↔ c ≠ a :=
  iff_of_eq (if_neg (Bool.not_eq_true _ ▸ AddressSpace.toMemory_false_iff.mpr h))

/-- Which addresses are apart depends on the size of main memory alone. -/
@[simp] theorem AddressSpace.write32_apart (b : AddressSpace) (d : Addr) (v : Word) :
    (b.write32 d v).Apart a c ↔ b.Apart a c := by
  simp only [AddressSpace.Apart, AddressSpace.write32_toMemory]

/-- A write apart from an address is not seen there, by its four bytes or by its cell. -/
theorem AddressSpace.read32_write32_apart (h : b.Apart a c) (v : Word) :
    (b.write32 c v).read32 a = b.read32 a := by
  rcases Nat.lt_or_ge a.toNat (b.size - 4) with ha | ha
  · rw [AddressSpace.apart_of_memory ha] at h
    rw [AddressSpace.read32_of_memory (by simpa using ha), AddressSpace.read32_of_memory ha]
    refine word_ext fun k hk => ?_
    rw [AddressSpace.byteOf_memRead32 _ _ hk, AddressSpace.byteOf_memRead32 _ _ hk,
      AddressSpace.byteAt_write32, AddressSpace.bound, if_neg (by omega)]
  · rw [AddressSpace.apart_of_register ha] at h
    rw [AddressSpace.read32_of_register (by simpa using ha), AddressSpace.read32_of_register ha,
      AddressSpace.cellAt_write32, if_neg fun hc => h (BitVec.eq_of_toNat_eq hc.2.symm)]

/-- No sequence of writes apart from an address is seen there. -/
theorem AddressSpace.read32_writes_apart {ws : List (Addr × Word)}
    (h : ∀ w ∈ ws, b.Apart a w.1) : (b.writes ws).read32 a = b.read32 a := by
  induction ws generalizing b with
  | nil => rfl
  | cons w ws ih =>
    obtain ⟨hw, hws⟩ := List.forall_mem_cons.mp h
    calc ((b.write32 w.1 w.2).writes ws).read32 a
      _ = (b.write32 w.1 w.2).read32 a := ih fun d hd => (b.write32_apart _ _).mpr (hws d hd)
      _ = b.read32 a := AddressSpace.read32_write32_apart hw w.2

/-- Every address of a new session reads 0 (rules R18, R19). -/
theorem State.initial_read32 (p : SessionParams) (a : Addr) :
    (State.initial p).bus.read32 a = 0 := by
  rcases Nat.lt_or_ge a.toNat ((State.initial p).bus.size - 4) with ha | ha
  · exact (AddressSpace.read32_eq_zero_iff ha).mpr fun k _ => State.initial_byteAt p _
  · exact (AddressSpace.read32_of_register ha).trans (State.initial_cellAt p _)

/-! ### The statements -/

theorem exec_read32 (addr : Addr) (s : State) :
    exec (.read32 addr) s = .next (s.done (.word (s.bus.read32 addr))) := rfl

theorem exec_write32 (addr : Addr) (data : Word) (s : State) :
    exec (.write32 addr data) s = .next ((s.setBus (s.bus.write32 addr data)).done .absent) := rfl

/-- Settles O13, by the side of `S - 4` on which the address lies. -/
theorem read32Result : Obligations.Read32Result := by
  refine fun s addr => ⟨s.bus.read32 addr, fun w hop haddr => haddr ▸ decode_read32 hop,
    exec_read32 addr s, fun h => ?_, AddressSpace.read32_of_register⟩
  rw [AddressSpace.read32_of_memory h, AddressSpace.memRead32, toNat_wordOf]

/-- Settles O14, by the side of `S - 4`: the write is four bytes of memory, or one cell. -/
theorem write32Result : Obligations.Write32Result := by
  intro s addr val
  refine ⟨_, fun w hop haddr hdata => haddr ▸ hdata ▸ decode_write32 hop, exec_write32 addr _ s,
    fun h => ?_, fun h => ?_, AddressSpace.write32_size .., rfl⟩
  · rw [State.done_bus, State.setBus_bus, AddressSpace.write32_of_memory h]
    refine ⟨fun k hk => ?_, fun c hc => ?_, fun c => AddressSpace.cellAt_memWrite32 ..⟩
    · rw [AddressSpace.byteAt_memWrite32, if_pos (by omega), Nat.add_sub_cancel_left]
      exact toNat_byteOf_trunc32 val hk
    · rw [AddressSpace.byteAt_memWrite32, if_neg hc]
  · rw [State.done_bus, State.setBus_bus, AddressSpace.write32_of_register h]
    refine ⟨?_, fun c hc => ?_, fun c => AddressSpace.byteAt_setCellAt ..⟩
    · rw [AddressSpace.cellAt_setCellAt, if_pos rfl]
      exact toNat_trunc32 val
    · rw [AddressSpace.cellAt_setCellAt, if_neg hc]

/-- Settles O15: the writes in between are apart on the bus that the first write leaves. -/
theorem roundTrip : Obligations.RoundTrip := by
  intro b a val ws h
  have hread : ((b.write32 a (trunc32 val)).writes ws).read32 a = trunc32 val := by
    rw [AddressSpace.read32_writes_apart fun w hw => (b.write32_apart _ _).mpr (h w hw),
      AddressSpace.read32_write32_same]
  exact ⟨hread, by rw [hread]; exact toNat_trunc32 val⟩

/-- Settles O16: the bytes of a memory read, and what reset leaves at every address. -/
theorem unwrittenReadsZero : Obligations.UnwrittenReadsZero :=
  ⟨fun _ _ => AddressSpace.read32_eq_zero_iff,
    fun p a _ h => (AddressSpace.read32_writes_apart h).trans (State.initial_read32 p a)⟩

end Sys2Proof.Machine

/-! PROOF. `STEP` (rules R90 to R100): what it commits, the halt entry, and the two strategies that
the spec fixes, `ExecPlaceholder` with the frame it leaves and `ExecNull`. -/

namespace Sys2Proof.Machine

variable {s : State} {b : AddressSpace} {color : Word} {n : Nat}

/-! ### The ends of a `STEP` -/

/-- Without a running processor a `STEP` is a no-op (rule R91). -/
theorem exec_step_of_not_running (hr : s.cpu.isRunning = false) :
    exec .step s = .next (s.stepDone s.issuer (.ok 0)) := by
  simp [exec, execStep, stepUnit, hr]

/-- A `STEP` whose run ends in `Done` commits over the bus that the run left (rules R90, R96). -/
theorem exec_step_of_done {x : Regs} {pc : Word} (hr : s.cpu.isRunning = true)
    (h : (ExecProg.run s.execProg s.bus).2 = .done x pc n) :
    exec .step s = .next ((commitUnit x pc (s.setBus (ExecProg.run s.execProg s.bus).1)).stepDone
      s.issuer (.ok n)) := by
  refine (exec_step_of_running hr s.host s.issuer).trans ?_
  rw [(runUnit_of_done h).2]
  rfl

/-- A `STEP` whose run ends in `DecodeError` takes the halt entry alone (rules R90, R162). -/
theorem exec_step_of_decodeError {info : List Word} (hr : s.cpu.isRunning = true)
    (h : (ExecProg.run s.execProg s.bus).2 = .decodeError info) :
    exec .step s = .next ((haltEntry info s).stepDone s.issuer .decodeError) := by
  refine (exec_step_of_running hr s.host s.issuer).trans ?_
  rw [runUnit_of_decodeError h]
  rfl

/-- A run that fails has written nothing (rules R95, R96). -/
theorem ExecProg.run_bus_of_decodeError {p : ExecProg} {info : List Word}
    (h : (ExecProg.run p b).2 = .decodeError info) : (ExecProg.run p b).1 = b := by
  rcases ExecProg.run_outcome p b with ⟨x, pc, m, hd⟩ | ⟨info', -, hbus⟩
  · rw [h] at hd
    cases hd
  · exact hbus

/-- `ExecNull` reads the word at `pc` and recognises none (rule R100). -/
theorem run_of_null (h : s.session.strategy = .null) :
    (ExecProg.run s.execProg s.bus).2 =
      .decodeError [s.cpu.pc, s.bus.read32 (truncAddr s.cpu.pc)] := by
  rw [← ExecProg.run_fetched s.execProg s.cpu.pc, run_fetched_of_null _ h]

/-- Settles O19: the unit of work is not entered, and its count is 0. -/
theorem stepNotRunning : Obligations.StepNotRunning :=
  fun _ hr => exec_step_of_not_running hr

/-- Settles O20, by the two ends of the strategy's run. -/
theorem stepCommitsOrHalts : Obligations.StepCommitsOrHalts :=
  fun s hr =>
    ⟨fun _ _ _ h => ⟨(runUnit_of_done h).1, ExecProg.run_size s.execProg s.bus,
        exec_step_of_done hr h⟩,
      fun _ h => ⟨ExecProg.run_bus_of_decodeError h, exec_step_of_decodeError hr h⟩⟩

/-- Settles O23: the run of `ExecNull` fails on whatever word it fetches. -/
theorem nullStepHalts : Obligations.NullStepHalts :=
  fun _ hr hnull => exec_step_of_decodeError hr (run_of_null hnull)

/-! ### The writes of `ExecPlaceholder` (rule R97) -/

/-- The writes of a colour at `4 * i` for the given pixels. -/
def pixelWrites (color : Word) (pixels : List Nat) : List (Addr × Word) :=
  pixels.map fun i => (BitVec.ofNat 32 (4 * i), color)

/-- `ExecPlaceholder` from pixel `i` on is its writes, and a count of 1. -/
theorem run_placeholderWrites (color : Word) (x : Regs) (pc : Word) (n i : Nat)
    (b : AddressSpace) : ExecTail.run (placeholderWrites color x pc n i) b =
      (b.writes (pixelWrites color (List.range' i n)), .done x pc 1) := by
  induction n generalizing i b with
  | zero => rfl
  | succ n ih => exact ih (i + 1) (b.write32 (BitVec.ofNat 32 (4 * i)) color)

/-- The bus with the whole frame written in the placeholder colour. -/
def State.placeholderBus (s : State) : AddressSpace :=
  s.bus.writes (pixelWrites s.session.placeholderColor
    (List.range (s.video.width * s.video.height)))

/-- The run of the placeholder strategy writes the whole frame and keeps `x` and `pc`. -/
theorem run_of_placeholder (h : s.session.strategy = .placeholder) :
    ExecProg.run s.execProg s.bus = (s.placeholderBus, .done s.cpu.x s.cpu.pc 1) := by
  simp only [State.execProg, h, placeholderExec, ExecProg.run, run_placeholderWrites,
    State.placeholderBus, List.range_eq_range']

/-- A placeholder `STEP` of a running processor changes the bus alone, and counts 1. -/
theorem exec_step_of_placeholder (hr : s.cpu.isRunning = true)
    (h : s.session.strategy = .placeholder) :
    exec .step s = .next ((s.setBus s.placeholderBus).stepDone s.issuer (.ok 1)) := by
  refine (exec_step_of_done hr (congrArg Prod.snd (run_of_placeholder h))).trans ?_
  rw [run_of_placeholder h]
  rfl

/-- Settles O21: the run of `ExecPlaceholder` is its writes, and its commit keeps `x` and `pc`. -/
theorem placeholderStepWrites : Obligations.PlaceholderStepWrites :=
  fun _ hr hplaceholder => exec_step_of_placeholder hr hplaceholder

/-! ### The frame that they leave (rule R98) -/

@[simp] theorem AddressSpace.writes_size (b : AddressSpace) (ws : List (Addr × Word)) :
    (b.writes ws).size = b.size := by
  induction ws generalizing b with
  | nil => rfl
  | cons w ws ih => exact (ih _).trans (b.write32_size w.1 w.2)

/-- The last of `n + 1` pixels is written after the others. -/
theorem AddressSpace.writes_pixels_succ (b : AddressSpace) (color : Word) (n : Nat) :
    b.writes (pixelWrites color (List.range (n + 1))) =
      (b.writes (pixelWrites color (List.range n))).write32 (BitVec.ofNat 32 (4 * n)) color := by
  simp [pixelWrites, AddressSpace.writes, List.range_succ]

/-- Pixels below `S - 4` are solid, and no other byte is written. -/
theorem AddressSpace.byteAt_writes_pixels (hn : 4 * n ≤ b.size - 4) (hsize : b.size < 2 ^ 32)
    (c : Nat) : (b.writes (pixelWrites color (List.range n))).byteAt c =
      if c < 4 * n then byteOf color (c % 4) else b.byteAt c := by
  induction n with
  | zero => rfl
  | succ n ih =>
    have haddr : (BitVec.ofNat 32 (4 * n)).toNat = 4 * n := by
      rw [BitVec.toNat_ofNat]
      omega
    rw [AddressSpace.writes_pixels_succ, AddressSpace.byteAt_write32, haddr, AddressSpace.bound,
      AddressSpace.writes_size, ih (by omega)]
    by_cases hc : 4 * n ≤ c ∧ c < 4 * n + 4
    · rw [if_pos (by omega), if_pos (by omega), show c - 4 * n = c % 4 by omega]
    · rw [if_neg (by omega)]
      exact if_congr (by omega) rfl rfl

/-- Pixels below `S - 4` touch no cell. -/
theorem AddressSpace.cellAt_writes_pixels (hn : 4 * n ≤ b.size - 4) (c : Nat) :
    (b.writes (pixelWrites color (List.range n))).cellAt c = b.cellAt c := by
  induction n with
  | zero => rfl
  | succ n ih =>
    rw [AddressSpace.writes_pixels_succ, AddressSpace.cellAt_write32, AddressSpace.bound,
      AddressSpace.writes_size, BitVec.toNat_ofNat, if_neg (by omega), ih (by omega)]

/-- A render at base 0 of a solid frame inside main memory is `W * H` pixels of the colour, whose
most significant byte is the dropped alpha (rules R110, R111). -/
theorem raster_renderBytes_of_solid (hbase : s.video.frameBufferBase = 0)
    (hin : s.video.fbSize ≤ s.bus.size)
    (h : ∀ i < s.video.width * s.video.height, ∀ k < 4,
      s.bus.byteAt (4 * i + k) = byteOf color k) :
    (renderBytes s).video.raster = List.replicate (s.video.width * s.video.height)
      { red := byteOf color 1, green := byteOf color 2, blue := byteOf color 3 } := by
  have hbuf : ∀ i < s.video.width * s.video.height, ∀ k < 4,
      Memory.get (renderBytes s).video.outputBuffer (4 * i + k) = byteOf color k := by
    intro i hi k hk
    have hlt : 4 * i + k < s.video.fbSize := by
      rw [VideoUnit.fbSize]
      omega
    rw [outputBuffer_renderBytes, if_pos hlt, hbase, show (0 : Addr).toNat = 0 from rfl,
      Nat.zero_add, AddressSpace.vread, if_pos (by omega), h i hi k hk]
  refine List.eq_replicate_iff.mpr ⟨VideoUnit.length_raster _, fun px hpx => ?_⟩
  obtain ⟨i, hi, rfl⟩ := List.mem_map.mp hpx
  have hi : i < s.video.width * s.video.height := List.mem_range.mp hi
  rw [pixelAt, hbuf i hi 1 (by decide), hbuf i hi 2 (by decide), hbuf i hi 3 (by decide)]

/-- Settles O22: the bytes of the frame are those of the writes, and the render shows them. -/
theorem placeholderFrameIsSolid : Obligations.PlaceholderFrameIsSolid := by
  intro s hr hplaceholder hframe hsize
  have hfb : s.video.fbSize = 4 * (s.video.width * s.video.height) := Nat.mul_comm _ _
  have hbyte : ∀ i < s.video.width * s.video.height, ∀ k < 4,
      s.placeholderBus.byteAt (4 * i + k) = byteOf s.session.placeholderColor k := by
    intro i hi k hk
    rw [State.placeholderBus, AddressSpace.byteAt_writes_pixels (hfb ▸ hframe) hsize,
      if_pos (by omega), show (4 * i + k) % 4 = k by omega]
  refine ⟨_, _, exec_step_of_placeholder hr hplaceholder, hbyte, fun c hc => ?_,
    fun c => AddressSpace.cellAt_writes_pixels (hfb ▸ hframe) c, rfl, rfl, fun hbase => ?_⟩
  · exact (AddressSpace.byteAt_writes_pixels (hfb ▸ hframe) hsize c).trans (if_neg (by omega))
  · refine congrArg some (raster_renderBytes_of_solid hbase ?_ hbyte)
    calc s.video.fbSize
      _ ≤ s.bus.size - 4 := hframe
      _ ≤ s.bus.size := Nat.sub_le _ _
      _ = s.placeholderBus.size := (AddressSpace.writes_size _ _).symm

end Sys2Proof.Machine

/-! PROOF. The video operations `RENDER` and `SET_FB_BASE` (rules R110 to R120): what a whole render
delivers to the sink, in terms of the video unit's byte reads. -/

namespace Sys2Proof.Machine

variable {s : State} {i : Nat}

/-! ### The raster of a whole render -/

/-- Pixel `i` of the framebuffer as the video unit reads it: bytes 1, 2 and 3 of its group
(rules R111, R113). -/
def State.framePixel (s : State) (i : Nat) : Pixel where
  red := s.bus.vread (s.video.frameBufferBase.toNat + 4 * i + 1)
  green := s.bus.vread (s.video.frameBufferBase.toNat + 4 * i + 2)
  blue := s.bus.vread (s.video.frameBufferBase.toNat + 4 * i + 3)

/-- After the byte reads of a render, byte `j` of the group of a pixel of the frame is the one at its
place from the base (rules R111, R115). -/
theorem outputBuffer_renderBytes_group (hi : i < s.video.width * s.video.height) {j : Nat}
    (hj : j < 4) : Memory.get (renderBytes s).video.outputBuffer (4 * i + j) =
      s.bus.vread (s.video.frameBufferBase.toNat + 4 * i + j) := by
  have hlt : 4 * i + j < s.video.fbSize := by
    rw [VideoUnit.fbSize]
    omega
  rw [outputBuffer_renderBytes, if_pos hlt, Nat.add_assoc]

theorem pixelAt_renderBytes (hi : i < s.video.width * s.video.height) :
    pixelAt (renderBytes s).video.outputBuffer i = s.framePixel i := by
  rw [pixelAt, State.framePixel, outputBuffer_renderBytes_group hi (j := 1) (by decide),
    outputBuffer_renderBytes_group hi (j := 2) (by decide),
    outputBuffer_renderBytes_group hi (j := 3) (by decide)]

/-- What a whole render hands to the sink: the pixels of the frame in index order
(rules R110, R114). -/
theorem raster_renderBytes (s : State) : (renderBytes s).video.raster =
    (List.range (s.video.width * s.video.height)).map s.framePixel :=
  List.map_congr_left fun _ hi => pixelAt_renderBytes (List.mem_range.mp hi)

/-- Row-major order: the pixel of column `x` and row `y` is inside the frame (rule R114). -/
theorem pixelIndex_lt {x y w h : Nat} (hx : x < w) (hy : y < h) : y * w + x < w * h :=
  calc y * w + x
    _ < y * w + w := Nat.add_lt_add_left hx _
    _ = (y + 1) * w := (Nat.succ_mul y w).symm
    _ ≤ h * w := Nat.mul_le_mul_right w hy
    _ = w * h := Nat.mul_comm h w

/-! ### `RENDER` -/

/-- `RENDER` completes in every state (rules R110, R116, R119). -/
theorem exec_render (s : State) : exec .render s = .next ((renderAll s).done .absent) := rfl

/-- Settles O28, by the raster of a whole render and the place of a pixel in it. -/
theorem renderResult : Obligations.RenderResult := by
  refine fun s => ⟨_, (renderBytes s).video.raster, exec_render s, fun k hk => ?_, rfl,
    VideoUnit.length_raster _, fun x y hx hy => ?_, rfl⟩
  · exact (outputBuffer_renderBytes s k).trans (if_pos hk)
  · rw [raster_renderBytes, List.getElem?_map, List.getElem?_range (pixelIndex_lt hx hy)]
    rfl

/-- A fresh session's frame is black, whether a byte is in memory or beyond it
(rules R113, R119, R180). -/
theorem State.initial_vread (p : SessionParams) (a : Nat) : (State.initial p).bus.vread a = 0 := by
  rw [AddressSpace.vread, State.initial_byteAt, ite_self]

/-- Settles O29: every pixel of the raster is read from bytes that are 0. -/
theorem initialRenderIsBlack : Obligations.InitialRenderIsBlack := by
  refine fun p => ⟨_, exec_render _, congrArg some ?_⟩
  calc (renderBytes (State.initial p)).video.raster
    _ = (List.range (p.width * p.height)).map (State.initial p).framePixel := raster_renderBytes _
    _ = (List.range (p.width * p.height)).map fun _ => { red := 0, green := 0, blue := 0 } :=
      List.map_congr_left fun _ _ => by simp only [State.framePixel, State.initial_vread]
    _ = List.replicate (p.width * p.height) { red := 0, green := 0, blue := 0 } := by
      rw [List.map_const', List.length_range]

/-! ### `SET_FB_BASE` -/

/-- Settles O30: its arm is `setBase` alone, and a completed command adds its response. -/
theorem setFbBaseResult : Obligations.SetFbBaseResult := fun _ _ => rfl

end Sys2Proof.Machine

/-! PROOF. The control operations of the scheduler (rules R125 to R132): what each writes, by the
lifecycle state it finds. -/

namespace Sys2Proof.Machine

variable {s : State} {pick : Nat}

/-! ### `START` and `STOP` -/

theorem exec_start_of_not_running
    (h : s.sched.schedState = .idle ∨ s.sched.schedState = .stopped) :
    exec .start s = .next ((spawnLoop s).done .absent) := by
  rcases h with h | h <;> simp only [exec, execStart, h]

theorem exec_start_of_running
    (h : s.sched.schedState = .running ∨ s.sched.schedState = .paused) :
    exec .start s = .next (s.done .absent) := by
  rcases h with h | h <;> simp only [exec, execStart, h]

/-- Settles O35: a fresh context, or the response alone. -/
theorem startResult : Obligations.StartResult :=
  fun _ => ⟨exec_start_of_not_running, exec_start_of_running⟩

theorem exec_stop_of_running
    (h : s.sched.schedState = .running ∨ s.sched.schedState = .paused) :
    exec .stop s = .next (awaitLoop (stopSignal s)) := by
  rcases h with h | h <;> simp only [exec, execStop, h]

theorem exec_stop_of_not_running
    (h : s.sched.schedState = .idle ∨ s.sched.schedState = .stopped) :
    exec .stop s = .next (s.done .absent) := by
  rcases h with h | h <;> simp only [exec, execStop, h]

theorem awaitLoop_of_live (hl : s.sched.ctxLive = true) : awaitLoop s = s.setHost .joining :=
  if_pos hl

theorem awaitLoop_of_gone (hl : s.sched.ctxLive = false) : awaitLoop s = s.done .absent :=
  if_neg (Bool.eq_false_iff.mp hl)

/-- Settles O36: the signal, then the wait where there is a context to wait for. -/
theorem stopResult : Obligations.StopResult := by
  refine fun s => ⟨fun h => ⟨fun hl => ?_, fun hl => ?_⟩, exec_stop_of_not_running⟩
  · rw [exec_stop_of_running h, awaitLoop_of_live (s := stopSignal s) hl]
    rfl
  · rw [exec_stop_of_running h, awaitLoop_of_gone (s := stopSignal s) hl]
    rfl

/-! ### The wait of `STOP` -/

/-- A step that takes a scheduled event runs it. -/
theorem step_event {a : Agent} {rest : List Turn} (hs : s.schedule = .event a pick :: rest) :
    step s = .next (runEvent a pick { s with schedule := rest }) := by
  rw [step, hs]
  rfl

theorem hostEvent_of_joining_live (hh : s.host = .joining) (hl : s.sched.ctxLive = true) :
    hostEvent pick s = s := by
  simp only [hostEvent, hh, hl, if_true]

theorem hostEvent_of_joining_gone (hh : s.host = .joining) (hl : s.sched.ctxLive = false) :
    hostEvent pick s = (s.setHost .idle).respond .host .ok .absent := by
  simp only [hostEvent, hh, hl, Bool.false_eq_true, if_false]

/-- Settles O37: the waiting host's event looks at the context alone. -/
theorem stopWaitReturns : Obligations.StopWaitReturns := by
  refine fun s pick rest hs hh => ⟨fun hl => ?_, fun hl => ?_⟩
  · rw [step_event hs]
    exact congrArg _ (hostEvent_of_joining_live hh hl)
  · rw [step_event hs]
    exact congrArg _ (hostEvent_of_joining_gone hh hl)

/-! ### `PAUSE` and `RESUME` -/

theorem exec_pause_of_running (h : s.sched.schedState = .running) :
    exec .pause s = .next ((s.setSched .paused).done .absent) := by
  simp only [exec, execPause, h]

theorem exec_pause_of_not_running (h : s.sched.schedState ≠ .running) :
    exec .pause s = .next (s.done .absent) := by
  cases hst : s.sched.schedState with
  | running => exact absurd hst h
  | idle | paused | stopped => simp only [exec, execPause, hst]

/-- Settles O38: only `Running` is left. -/
theorem pauseResult : Obligations.PauseResult :=
  fun _ => ⟨exec_pause_of_running, exec_pause_of_not_running⟩

theorem exec_resume_of_paused (h : s.sched.schedState = .paused) :
    exec .resume s = .next ((s.setSched .running).done .absent) := by
  simp only [exec, execResume, h]

theorem exec_resume_of_not_paused (h : s.sched.schedState ≠ .paused) :
    exec .resume s = .next (s.done .absent) := by
  cases hst : s.sched.schedState with
  | paused => exact absurd hst h
  | idle | running | stopped => simp only [exec, execResume, hst]

/-- Settles O39: the opcode alone selects the operation, and only `Paused` is left. -/
theorem resumeResult : Obligations.ResumeResult :=
  ⟨fun _ => decode_resume, fun _ => ⟨exec_resume_of_paused, exec_resume_of_not_paused⟩⟩

/-! ### The queries -/

theorem exec_getRate (s : State) :
    exec .getRate s = .next (s.done (.rate s.sched.measuredRate)) := rfl

theorem exec_getIsRunning (s : State) :
    exec .getIsRunning s = .next (s.done (.flag s.cpu.isRunning)) := rfl

/-- Settles O41: each of them is a response alone. -/
theorem queriesOnlyRead : Obligations.QueriesOnlyRead :=
  fun s => ⟨exec_getRate s, exec_getIsRunning s⟩

end Sys2Proof.Machine

/-! PROOF. The two events of the loop agent, `LOOP_ITER` and `LOOP_EXIT` (rules R140 to R148): when
they are enabled, and what an iteration does to the processor, the bus and the frame timer. -/

namespace Sys2Proof.Machine

variable {s : State} {c : LoopContext}

/-! ### When they are enabled -/

theorem exec_loopIter_of_enabled (hl : s.sched.ctxLive = true) (hr : s.sched.running = true) :
    exec .loopIter s =
      .next ((countFrame (iterationStep (endWait s))).respond .loop .ok .absent) := by
  simp only [exec, execLoopIter, hl, hr, Bool.and_self, if_true]

theorem exec_loopIter_of_not_enabled (h : s.sched.ctxLive = false ∨ s.sched.running = false) :
    exec .loopIter s = .refused .loopEventNotEnabled := by
  rcases h with h | h <;> simp [exec, execLoopIter, h]

theorem exec_loopExit_of_enabled (hl : s.sched.ctxLive = true) (hr : s.sched.running = false) :
    exec .loopExit s = .next ((endLoop s).respond .loop .ok .absent) := by
  simp [exec, execLoopExit, hl, hr]

theorem exec_loopExit_of_not_enabled (h : s.sched.ctxLive = false ∨ s.sched.running = true) :
    exec .loopExit s = .refused .loopEventNotEnabled := by
  rcases h with h | h <;> simp [exec, execLoopExit, h]

/-- Settles O43: the exit takes the context away. -/
theorem loopExitResult : Obligations.LoopExitResult :=
  fun _ => exec_loopExit_of_enabled

/-- Settles O44: both events look at the context and at `running`. -/
theorem loopEventsNotEnabled : Obligations.LoopEventsNotEnabled :=
  fun _ => ⟨exec_loopIter_of_not_enabled, exec_loopExit_of_not_enabled⟩

/-! ### The parts of an iteration -/

theorem endWait_of_context (hc : s.sched.ctx = some c) :
    endWait s = { s with clock := max s.clock c.idleUntil } := by
  simp only [endWait, hc]

/-- A `STEP` does not look at the clock (rule R95). -/
theorem stepUnit_clock (s : State) (now : Rat) : stepUnit { s with clock := now } =
    ({ (stepUnit s).1 with clock := now }, (stepUnit s).2) := by
  simp only [stepUnit]
  split
  · have hp : ({ s with clock := now } : State).execProg = s.execProg := rfl
    simp only [runUnit, hp]
    cases (ExecProg.run s.execProg s.bus).2 <;> rfl
  · rfl

theorem iterationStep_of_paused (h : s.sched.paused = true) : iterationStep s = s := if_pos h

theorem iterationStep_of_not_paused (h : s.sched.paused = false) :
    iterationStep s = (stepUnit s).1 := if_neg (Bool.eq_false_iff.mp h)

/-- The `STEP` of an iteration after its wait, with the rest as it was (rules R95, R140, R146). -/
theorem iterationStep_endWait (hc : s.sched.ctx = some c) : iterationStep (endWait s) =
    { s with
      bus := (iterationStep s).bus
      cpu := (iterationStep s).cpu
      clock := max s.clock c.idleUntil } := by
  cases hp : s.sched.paused with
  | true =>
    rw [iterationStep_of_paused hp, iterationStep_of_paused (s := endWait s) (by simpa using hp),
      endWait_of_context hc]
  | false =>
    rw [iterationStep_of_not_paused hp,
      iterationStep_of_not_paused (s := endWait s) (by simpa using hp), endWait_of_context hc,
      stepUnit_clock, stepUnit_frame]

/-- A full window gives a new rate and starts the next one (rules R142, R143). -/
theorem countFrame_of_full (hc : s.sched.ctx = some c) (h : 1 ≤ s.clock - c.t0) : countFrame s =
    { s with sched := { s.sched with
        measuredRate := ((c.frames : Rat) + 1) / (s.clock - c.t0)
        ctx := some
          { frames := 0
            t0 := s.clock
            idleUntil := s.clock + s.session.loopDelay
            activity := .idle } } } := by
  simp only [countFrame, hc, if_pos h, Nat.cast_add, Nat.cast_one]

/-- In a window that is not full the frame is only counted (rules R140, R142). -/
theorem countFrame_of_not_full (hc : s.sched.ctx = some c) (h : s.clock - c.t0 < 1) :
    countFrame s =
      { s with sched := { s.sched with
          ctx := some
            { frames := c.frames + 1
              t0 := c.t0
              idleUntil := s.clock + s.session.loopDelay
              activity := .idle } } } := by
  simp only [countFrame, hc, if_neg (not_le.mpr h)]

/-- The frame of the counting part: only the rate and the context change (rule R140). -/
theorem countFrame_frame (s : State) : countFrame s =
    { s with sched := { (countFrame s).sched with schedState := s.sched.schedState } } := by
  cases hc : s.sched.ctx with
  | none =>
    simp only [countFrame, hc]
    rw [← hc]
  | some c =>
    rcases le_or_gt 1 (s.clock - c.t0) with h | h
    · rw [countFrame_of_full hc h]
    · rw [countFrame_of_not_full hc h]

/-- Settles O42: the wait, the `STEP` unless paused, and the counting part, one after another. -/
theorem loopIterResult : Obligations.LoopIterResult := by
  intro s c hc hr
  have hl : s.sched.ctxLive = true := Option.isSome_iff_exists.mpr ⟨c, hc⟩
  have hiter := exec_loopIter_of_enabled hl hr
  have hw := iterationStep_endWait hc
  generalize iterationStep (endWait s) = w at hiter hw
  have hwc : w.sched.ctx = some c := by rw [hw, hc]
  refine ⟨_, _, hiter, rfl, by simp [hw], fun hp => ?paused, fun hp => ?step,
    fun hfull => ?full, fun hopen => ?notFull, ?frame⟩
  case paused => simp [hw, iterationStep_of_paused hp]
  case step => simp [hw, iterationStep_of_not_paused hp]
  case full =>
    simp only [State.respond_sched, State.respond_clock, countFrame_clock] at hfull ⊢
    rw [countFrame_of_full hwc hfull, hw]
    exact ⟨rfl, rfl⟩
  case notFull =>
    simp only [State.respond_sched, State.respond_clock, countFrame_clock] at hopen ⊢
    rw [countFrame_of_not_full hwc hopen, hw]
    exact ⟨rfl, rfl⟩
  case frame =>
    rw [countFrame_frame, hw]
    rfl

/-! ### Events while `Paused` -/

/-- The loop agent of a `Paused` scheduler has no `STEP` to do. -/
structure State.PausedAtRest (s : State) : Prop where
  paused : s.sched.paused = true
  at_rest : ∀ c ∈ s.sched.ctx, c.activity = .idle ∨ c.activity = .counting

theorem ExecutionScheduler.running_of_paused {d : ExecutionScheduler} (hp : d.paused = true) :
    d.running = true := by
  simp only [ExecutionScheduler.paused] at hp
  simp [ExecutionScheduler.running, hp]

/-- An event of that loop agent does nothing, skips its `STEP`, or counts (rules R140, R146). -/
theorem loopEvent_of_pausedAtRest (hs : s.PausedAtRest) (pick : Nat) :
    loopEvent pick s = s ∨ loopEvent pick s = (endWait s).setLoop .counting ∨
      loopEvent pick s = (countFrame s).respond .loop .ok .absent := by
  cases hc : s.sched.ctx with
  | none => exact .inl (loopEvent_of_no_context hc pick)
  | some c =>
    have hp := hs.paused
    have hr := ExecutionScheduler.running_of_paused hp
    rcases hs.at_rest c hc with hact | hact
    · exact .inr (.inl (by simp [loopEvent, hc, hact, hr, beginIteration, hp]))
    · exact .inr (.inr (by simp only [loopEvent, hc, hact]))

theorem State.PausedAtRest.setLoop_counting (hs : s.PausedAtRest) :
    ((endWait s).setLoop .counting).PausedAtRest := by
  refine ⟨by simpa [ExecutionScheduler.paused] using hs.paused, fun d hd => ?_⟩
  rw [State.setLoop_sched] at hd
  obtain ⟨c, -, rfl⟩ := Option.map_eq_some_iff.mp hd
  exact .inr rfl

theorem State.PausedAtRest.countFrame (hs : s.PausedAtRest) : (countFrame s).PausedAtRest := by
  refine ⟨?_, fun d hd => ?_⟩
  · rw [ExecutionScheduler.paused, (countFrame_control s).1]
    exact hs.paused
  · rcases countFrame_sched_cases s with ⟨hc, e⟩ | ⟨c, hc, ⟨-, e⟩ | e⟩ <;> rw [e] at hd
    · exact hs.at_rest d hd
    · cases hd
      exact .inl rfl
    · cases hd
      exact .inl rfl

/-- An event of that loop agent leaves it so, and the bus and the processor as they are. -/
theorem State.PausedAtRest.after_loopEvent (hs : s.PausedAtRest) (pick : Nat) :
    (loopEvent pick s).PausedAtRest ∧ (loopEvent pick s).bus = s.bus ∧
      (loopEvent pick s).cpu = s.cpu := by
  rcases loopEvent_of_pausedAtRest hs pick with e | e | e <;> rw [e]
  · exact ⟨hs, rfl, rfl⟩
  · exact ⟨hs.setLoop_counting, by simp, by simp⟩
  · obtain ⟨hp, hrest⟩ := hs.countFrame
    exact ⟨⟨hp, hrest⟩, by simp, by simp⟩

theorem State.PausedAtRest.after_runEvents (hs : s.PausedAtRest) (picks : List Nat) :
    (runEvents .loop picks s).bus = s.bus ∧ (runEvents .loop picks s).cpu = s.cpu := by
  induction picks generalizing s with
  | nil => exact ⟨rfl, rfl⟩
  | cons pick picks ih =>
    obtain ⟨hrest, hbus, hcpu⟩ := hs.after_loopEvent pick
    obtain ⟨ihbus, ihcpu⟩ := ih hrest
    exact ⟨ihbus.trans hbus, ihcpu.trans hcpu⟩

/-- Settles O47: the loop agent stays at rest, event after event. -/
theorem pausedLoopLeavesMachineAlone : Obligations.PausedLoopLeavesMachineAlone :=
  fun _ picks hp hact => State.PausedAtRest.after_runEvents ⟨hp, hact⟩ picks

end Sys2Proof.Machine

/-! PROOF. How many events an operation in flight has left at most (rules R51, R52, R95): every
event of its agent takes one of them, whatever it picks and whatever the bus answers. -/

namespace Sys2Proof.Machine

variable {s t : State} {p : ExecProg}

/-! ### Runs of the strategy -/

/-- The accesses that the writing part of a run has left, whatever its reads return: the tree is
finite (rule R95 (d)). -/
def ExecTail.depth (t : ExecTail) : Nat :=
  match t with
  | .read _ next => (Finset.univ.sup fun v => ExecTail.depth (next v)) + 1
  | .write _ _ next => ExecTail.depth next + 1
  | .done _ _ _ => 0

/-- The accesses that a run has left, whatever its reads return. -/
def ExecProg.depth (p : ExecProg) : Nat :=
  match p with
  | .read _ next => (Finset.univ.sup fun v => ExecProg.depth (next v)) + 1
  | .decodeError _ => 0
  | .commit t => ExecTail.depth t

theorem ExecTail.depth_reply_lt (addr : Addr) (next : Word → ExecTail) (v : Word) :
    ExecTail.depth (next v) < ExecTail.depth (.read addr next) :=
  Nat.lt_succ_of_le (Finset.le_sup (f := fun v => ExecTail.depth (next v)) (Finset.mem_univ v))

theorem ExecProg.depth_reply_lt (addr : Addr) (next : Word → ExecProg) (v : Word) :
    ExecProg.depth (next v) < ExecProg.depth (.read addr next) :=
  Nat.lt_succ_of_le (Finset.le_sup (f := fun v => ExecProg.depth (next v)) (Finset.mem_univ v))

theorem ExecTail.depth_after_le (t : ExecTail) : ∀ (replies : List Word) (writes : Nat),
    ExecTail.depth (ExecTail.after t replies writes) ≤ ExecTail.depth t := by
  induction t with
  | read addr next ih =>
    intro replies writes
    cases replies with
    | nil => exact le_rfl
    | cons r rs => exact (ih r rs writes).trans (ExecTail.depth_reply_lt addr next r).le
  | write addr v next ih =>
    intro replies writes
    cases writes with
    | zero => exact le_rfl
    | succ n => exact (ih replies n).trans (Nat.le_succ _)
  | done x pc extra => exact fun _ _ => le_rfl

theorem ExecProg.depth_after_le (p : ExecProg) : ∀ (replies : List Word) (writes : Nat),
    ExecProg.depth (ExecProg.after p replies writes) ≤ ExecProg.depth p := by
  induction p with
  | read addr next ih =>
    intro replies writes
    cases replies with
    | nil => exact le_rfl
    | cons r rs => exact (ih r rs writes).trans (ExecProg.depth_reply_lt addr next r).le
  | decodeError info => exact fun _ _ => le_rfl
  | commit t => exact ExecTail.depth_after_le t

/-- The run goes on with a `READ32`. -/
inductive ExecProg.Reads : ExecProg → Prop
  | plain (addr : Addr) (next : Word → ExecProg) : ExecProg.Reads (.read addr next)
  | committed (addr : Addr) (next : Word → ExecTail) : ExecProg.Reads (.commit (.read addr next))

/-- The run goes on with a `WRITE32`. -/
inductive ExecProg.Writes : ExecProg → Prop
  | committed (addr : Addr) (v : Word) (next : ExecTail) :
      ExecProg.Writes (.commit (.write addr v next))

/-- A reply to the next access of the writing part, where that is a read, brings it forward. -/
theorem ExecTail.depth_after_reply_lt (v : Word) (t : ExecTail) :
    ∀ (replies : List Word) (writes : Nat),
      ExecProg.Reads (.commit (ExecTail.after t replies writes)) →
      ExecTail.depth (ExecTail.after t (replies ++ [v]) writes) <
        ExecTail.depth (ExecTail.after t replies writes) := by
  induction t with
  | read addr next ih =>
    intro replies writes h
    cases replies with
    | nil =>
      exact (ExecTail.depth_after_le (next v) [] writes).trans_lt
        (ExecTail.depth_reply_lt addr next v)
    | cons r rs => exact ih r rs writes h
  | write addr w next ih =>
    intro replies writes h
    cases writes with
    | zero => cases h
    | succ n => exact ih replies n h
  | done x pc extra => exact fun _ _ h => by cases h

/-- A reply to the next access of a run, where that is a read, brings the run forward. -/
theorem ExecProg.depth_after_reply_lt (v : Word) (p : ExecProg) :
    ∀ (replies : List Word) (writes : Nat), ExecProg.Reads (ExecProg.after p replies writes) →
      ExecProg.depth (ExecProg.after p (replies ++ [v]) writes) <
        ExecProg.depth (ExecProg.after p replies writes) := by
  induction p with
  | read addr next ih =>
    intro replies writes h
    cases replies with
    | nil =>
      exact (ExecProg.depth_after_le (next v) [] writes).trans_lt
        (ExecProg.depth_reply_lt addr next v)
    | cons r rs => exact ih r rs writes h
  | decodeError info => exact fun _ _ h => by cases h
  | commit t => exact ExecTail.depth_after_reply_lt v t

/-- A completed write brings the writing part forward, where its next access is a write. -/
theorem ExecTail.depth_after_write_lt (t : ExecTail) : ∀ (replies : List Word) (writes : Nat),
    ExecProg.Writes (.commit (ExecTail.after t replies writes)) →
      ExecTail.depth (ExecTail.after t replies (writes + 1)) <
        ExecTail.depth (ExecTail.after t replies writes) := by
  induction t with
  | read addr next ih =>
    intro replies writes h
    cases replies with
    | nil => cases h
    | cons r rs => exact ih r rs writes h
  | write addr w next ih =>
    intro replies writes h
    cases writes with
    | zero => exact Nat.lt_succ_of_le (ExecTail.depth_after_le next replies 0)
    | succ n => exact ih replies n h
  | done x pc extra => exact fun _ _ h => by cases h

/-- A completed write brings a run forward, where its next access is a write. -/
theorem ExecProg.depth_after_write_lt (p : ExecProg) : ∀ (replies : List Word) (writes : Nat),
    ExecProg.Writes (ExecProg.after p replies writes) →
      ExecProg.depth (ExecProg.after p replies (writes + 1)) <
        ExecProg.depth (ExecProg.after p replies writes) := by
  induction p with
  | read addr next ih =>
    intro replies writes h
    cases replies with
    | nil => cases h
    | cons r rs => exact ih r rs writes h
  | decodeError info => exact fun _ _ h => by cases h
  | commit t => exact ExecTail.depth_after_write_lt t

/-! ### Accesses -/

/-- Whether an access writes. -/
def Access.isWrite (acc : Access) : Bool :=
  match acc with
  | .memRead _ _ _ => false
  | .memWrite _ _ _ => true
  | .cellRead _ => false
  | .cellWrite _ _ => true

/-- The bytes that an access of main memory has left. -/
def Access.bytesLeft (acc : Access) : Nat :=
  match acc with
  | .memRead _ left _ => left.length
  | .memWrite _ _ left => left.length
  | .cellRead _ => 0
  | .cellWrite _ _ => 0

/-- The same access, or that access with fewer bytes to come. -/
structure Access.NoLonger (new acc : Access) : Prop where
  kind : new.isWrite = acc.isWrite
  bytes : new.bytesLeft ≤ acc.bytesLeft

theorem Access.NoLonger.refl (acc : Access) : acc.NoLonger acc := ⟨rfl, le_rfl⟩

theorem startRead_isWrite (b : AddressSpace) (addr : Addr) :
    (startRead b addr).isWrite = false := by
  unfold startRead
  split <;> rfl

theorem startWrite_isWrite (b : AddressSpace) (addr : Addr) (v : Word) :
    (startWrite b addr v).isWrite = true := by
  unfold startWrite
  split <;> rfl

theorem startRead_bytesLeft (b : AddressSpace) (addr : Addr) :
    (startRead b addr).bytesLeft ≤ 4 := by
  unfold startRead
  split
  · exact le_rfl
  · exact Nat.zero_le 4

theorem startWrite_bytesLeft (b : AddressSpace) (addr : Addr) (v : Word) :
    (startWrite b addr v).bytesLeft ≤ 4 := by
  unfold startWrite
  split
  · exact le_rfl
  · exact Nat.zero_le 4

/-- A picked element is one fewer. -/
theorem length_erase_lt_of_pickFrom {α : Type} [BEq α] [LawfulBEq α] {l : List α} {n : Nat} {x : α}
    (h : pickFrom l n = some x) : (l.erase x).length < l.length := by
  have hmem := pickFrom_mem h
  rw [List.length_erase_of_mem hmem]
  exact Nat.sub_lt (List.length_pos_of_mem hmem) Nat.one_pos

/-- An event of an access completes it or takes one of its bytes (rule R51). -/
theorem accessEvent_status (acc : Access) (pick : Nat) (b : AddressSpace) :
    (acc.isWrite = false ∧ ∃ v, (accessEvent acc pick b).2 = .read v) ∨
      (acc.isWrite = true ∧ (accessEvent acc pick b).2 = .written) ∨
      ∃ next, (accessEvent acc pick b).2 = .going next ∧ next.isWrite = acc.isWrite ∧
        next.bytesLeft < acc.bytesLeft := by
  cases acc with
  | memRead addr left got =>
    simp only [accessEvent]
    split
    · exact .inl ⟨rfl, _, rfl⟩
    · next k hk =>
      unfold memReadStatus
      split
      · exact .inl ⟨rfl, _, rfl⟩
      · exact .inr (.inr ⟨_, rfl, rfl, length_erase_lt_of_pickFrom hk⟩)
  | memWrite addr v left =>
    simp only [accessEvent]
    split
    · exact .inr (.inl ⟨rfl, rfl⟩)
    · next k hk =>
      unfold memWriteStatus
      split
      · exact .inr (.inl ⟨rfl, rfl⟩)
      · exact .inr (.inr ⟨_, rfl, rfl, length_erase_lt_of_pickFrom hk⟩)
  | cellRead addr => exact .inl ⟨rfl, _, rfl⟩
  | cellWrite addr v => exact .inr (.inl ⟨rfl, rfl⟩)

/-! ### Units of work -/

/-- The accesses that a unit of work of the run `p` has left after the one in flight. -/
def UnitProgress.accessesLeft (p : ExecProg) (u : UnitProgress) : Nat :=
  match u.access with
  | none => ExecProg.depth (ExecProg.after p u.replies u.writes)
  | some acc =>
    if acc.isWrite then ExecProg.depth (ExecProg.after p u.replies (u.writes + 1))
    else Finset.univ.sup fun v => ExecProg.depth (ExecProg.after p (u.replies ++ [v]) u.writes)

/-- The events that a unit of work of the run `p` has left before its end: at most six for each
access to come, its start and its bytes. -/
def UnitProgress.work (p : ExecProg) (u : UnitProgress) : Nat :=
  6 * u.accessesLeft p + u.access.elim 0 fun acc => acc.bytesLeft + 1

theorem UnitProgress.work_setAccess_le {u : UnitProgress} {acc new : Access}
    (hu : u.access = some acc) (h : new.NoLonger acc) :
    ({ u with access := some new } : UnitProgress).work p ≤ u.work p := by
  obtain ⟨hkind, hbytes⟩ := h
  simp only [UnitProgress.work, UnitProgress.accessesLeft, hu, hkind, Option.elim_some]
  omega

/-- An event of the access in flight takes a byte of it or brings the run forward. -/
theorem UnitProgress.work_accessed_lt {u : UnitProgress} {acc : Access}
    (hu : u.access = some acc) (pick : Nat) (b : AddressSpace) :
    (u.accessed (accessEvent acc pick b).2).work p < u.work p := by
  rcases accessEvent_status acc pick b with ⟨hk, v, e⟩ | ⟨hk, e⟩ | ⟨next, e, hk, hlt⟩ <;> rw [e]
  · have hle := Finset.le_sup (f := fun v =>
      ExecProg.depth (ExecProg.after p (u.replies ++ [v]) u.writes)) (Finset.mem_univ v)
    simp only [UnitProgress.work, UnitProgress.accessesLeft, UnitProgress.accessed, hu, hk,
      Option.elim_some, Option.elim_none, Bool.false_eq_true, if_false]
    omega
  · simp only [UnitProgress.work, UnitProgress.accessesLeft, UnitProgress.accessed, hu, hk,
      Option.elim_some, Option.elim_none, if_true]
    omega
  · simp only [UnitProgress.work, UnitProgress.accessesLeft, UnitProgress.accessed, hu, hk,
      Option.elim_some]
    omega

/-- The start of the read that the run asks for brings the run forward. -/
theorem UnitProgress.work_startRead_lt {u : UnitProgress} (hu : u.access = none)
    (h : ExecProg.Reads (ExecProg.after p u.replies u.writes)) (b : AddressSpace) (addr : Addr) :
    ({ u with access := some (startRead b addr) } : UnitProgress).work p < u.work p := by
  have hbytes := startRead_bytesLeft b addr
  have hlt := fun v => ExecProg.depth_after_reply_lt v p u.replies u.writes h
  have hsup := (Finset.sup_lt_iff (s := Finset.univ)
    (f := fun v => ExecProg.depth (ExecProg.after p (u.replies ++ [v]) u.writes))
    (Nat.zero_lt_of_lt (hlt 0))).mpr fun v _ => hlt v
  simp only [UnitProgress.work, UnitProgress.accessesLeft, hu, startRead_isWrite, Option.elim_some,
    Option.elim_none, Bool.false_eq_true, if_false]
  omega

/-- The start of the write that the run asks for brings the run forward. -/
theorem UnitProgress.work_startWrite_lt {u : UnitProgress} (hu : u.access = none)
    (h : ExecProg.Writes (ExecProg.after p u.replies u.writes)) (b : AddressSpace) (addr : Addr)
    (v : Word) :
    ({ u with access := some (startWrite b addr v) } : UnitProgress).work p < u.work p := by
  have hbytes := startWrite_bytesLeft b addr v
  have hlt := ExecProg.depth_after_write_lt p u.replies u.writes h
  simp only [UnitProgress.work, UnitProgress.accessesLeft, hu, startWrite_isWrite,
    Option.elim_some, Option.elim_none, if_true]
  omega

/-- An event of a unit of work ends it, or leaves it less to do and the processor as it was. -/
theorem unitEvent_status (u : UnitProgress) (pick : Nat) (s : State) :
    (∃ r, (unitEvent u pick s).2 = .ended r) ∨
      ∃ v, (unitEvent u pick s).2 = .going v ∧ v.work s.execProg < u.work s.execProg ∧
        (unitEvent u pick s).1.cpu = s.cpu := by
  unfold unitEvent
  cases hu : u.access with
  | some acc => exact .inr ⟨_, rfl, UnitProgress.work_accessed_lt hu pick s.bus, rfl⟩
  | none =>
    simp only
    cases hq : ExecProg.after s.execProg u.replies u.writes with
    | read addr next =>
      exact .inr ⟨_, rfl, UnitProgress.work_startRead_lt hu (hq ▸ .plain addr next) .., rfl⟩
    | decodeError info => exact .inl ⟨_, rfl⟩
    | commit tail =>
      cases tail with
      | read addr next =>
        exact .inr ⟨_, rfl, UnitProgress.work_startRead_lt hu (hq ▸ .committed addr next) .., rfl⟩
      | write addr v next =>
        exact .inr
          ⟨_, rfl, UnitProgress.work_startWrite_lt hu (hq ▸ .committed addr v next) .., rfl⟩
      | done x pc extra => exact .inl ⟨_, rfl⟩

/-- The run of the strategy is fixed by the session and the processor (rules R94, R95 (c)). -/
theorem State.execProg_congr (hsession : s.SameSession t) (hcpu : t.cpu = s.cpu) :
    t.execProg = s.execProg := by
  obtain ⟨-, hwidth, hheight, hsession⟩ := hsession
  simp only [State.execProg, hwidth, hheight, hsession, hcpu]

/-! ### The loop agent -/

theorem ExecutionScheduler.ctxLive_eq_false_iff {d : ExecutionScheduler} :
    d.ctxLive = false ↔ d.ctx = none := by
  simp [ExecutionScheduler.ctxLive]

/-- The events that the loop agent has left before it exits, when `running` is false and the
strategy's run is `p`. -/
def LoopActivity.work (p : ExecProg) (l : LoopActivity) : Nat :=
  match l with
  | .idle => 1
  | .counting => 2
  | .stepping u => u.work p + 3
  | .sampled => UnitProgress.fresh.work p + 4

/-- The events that the loop agent has left before it exits, when `running` is false. -/
def State.loopWork (s : State) : Nat :=
  s.sched.ctx.elim 0 fun c => c.activity.work s.execProg

theorem LoopActivity.work_pos (p : ExecProg) (l : LoopActivity) : 0 < l.work p := by
  cases l <;> exact Nat.succ_pos _

theorem LoopActivity.work_setAccess_le {l : LoopActivity} {acc new : Access}
    (ha : l.busAccess = some acc) (h : new.NoLonger acc) :
    (l.setAccess new).work p ≤ l.work p := by
  cases l with
  | stepping u => exact Nat.add_le_add_right (UnitProgress.work_setAccess_le ha h) 3
  | idle | sampled | counting => cases ha

theorem State.loopWork_of_context {c : LoopContext} (hc : s.sched.ctx = some c) :
    s.loopWork = c.activity.work s.execProg := by
  simp only [State.loopWork, hc, Option.elim_some]

theorem State.loopWork_setLoop {c : LoopContext} (hc : s.sched.ctx = some c)
    (act : LoopActivity) : (s.setLoop act).loopWork = act.work s.execProg := by
  simp only [State.loopWork, State.setLoop_sched, hc, Option.map_some, Option.elim_some]
  rfl

/-- No event of the loop agent changes the lifecycle (rule R125). -/
theorem loopEvent_schedState (pick : Nat) (s : State) :
    (loopEvent pick s).sched.schedState = s.sched.schedState := by
  unfold loopEvent
  split
  · rfl
  · split
    · split
      · simp [beginIteration]
      · rfl
    · rfl
    · unfold loopStepped
      rw [unitEvent_frame]
      split <;> rfl
    · exact (countFrame_control s).1

theorem loopEvent_running (pick : Nat) (s : State) :
    (loopEvent pick s).sched.running = s.sched.running := by
  simp only [ExecutionScheduler.running, loopEvent_schedState]

/-- Where `running` is false, an event of the loop agent is one of those it has left
(rules R127, R145). -/
theorem loopEvent_exits_or_work_lt (hr : s.sched.running = false) (hl : s.sched.ctxLive = true)
    (pick : Nat) : (loopEvent pick s).sched.ctx = none ∨
      (loopEvent pick s).loopWork < s.loopWork := by
  obtain ⟨c, hc⟩ := Option.isSome_iff_exists.mp hl
  rw [State.loopWork_of_context hc]
  cases hact : c.activity with
  | idle => exact .inl (by simp [loopEvent, hc, hact, hr])
  | sampled =>
    have he : loopEvent pick s = beginLoopStep s := by simp only [loopEvent, hc, hact]
    rw [he, beginLoopStep, State.loopWork_setLoop hc]
    right
    split <;> simp only [LoopActivity.work] <;> omega
  | stepping u =>
    have he : loopEvent pick s = loopStepped (unitEvent u pick s).2 (unitEvent u pick s).1 := by
      simp only [loopEvent, hc, hact]
    have hctx : (unitEvent u pick s).1.sched.ctx = some c := by rw [unitEvent_frame, hc]
    right
    rw [he]
    rcases unitEvent_status u pick s with ⟨r, hend⟩ | ⟨v, hgoing, hlt, hcpu⟩
    · rw [hend, loopStepped, State.loopWork_setLoop hctx]
      simp only [LoopActivity.work]
      omega
    · rw [hgoing, loopStepped, State.loopWork_setLoop hctx,
        State.execProg_congr (sameSession_unitEvent u pick s) hcpu]
      exact Nat.add_lt_add_right hlt 3
  | counting =>
    have he : loopEvent pick s = (countFrame s).respond .loop .ok .absent := by
      simp only [loopEvent, hc, hact]
    have hidle : ∃ d, (countFrame s).sched.ctx = some d ∧ d.activity = .idle := by
      rcases countFrame_sched_cases s with ⟨hnone, -⟩ | ⟨d, -, ⟨-, e⟩ | e⟩
      · simp [hc] at hnone
      · exact ⟨_, by rw [e], rfl⟩
      · exact ⟨_, by rw [e], rfl⟩
    obtain ⟨d, hd, hdidle⟩ := hidle
    right
    rw [he, State.loopWork_of_context (s := (countFrame s).respond .loop .ok .absent) hd, hdidle]
    exact Nat.one_lt_two

/-- Settles O49, by induction on the events that the loop agent has left. -/
theorem loopExitsAfterStop : Obligations.LoopExitsAfterStop := by
  intro s f hr
  induction hn : s.loopWork using Nat.strong_induction_on generalizing s f with
  | _ n ih =>
    subst hn
    cases hl : s.sched.ctxLive with
    | false => exact ⟨0, ExecutionScheduler.ctxLive_eq_false_iff.mp hl⟩
    | true =>
      rcases loopEvent_exits_or_work_lt hr hl (f 0) with hexit | hlt
      · exact ⟨1, hexit⟩
      · obtain ⟨n, hn⟩ := ih _ hlt _ (fun i => f (i + 1)) ((loopEvent_running _ s).trans hr) rfl
        refine ⟨n + 1, ?_⟩
        rw [List.range_succ_eq_map, List.map_cons, List.map_map, runEvents_cons]
        exact hn

end Sys2Proof.Machine

/-! PROOF. Renders in flight end too, and the writes finished before a render under
`FB_SYNC = rwlock` give no agent more to do (rules R52, R58, R194). -/

namespace Sys2Proof.Machine

variable {s : State} {p : ExecProg}

/-! ### Renders -/

/-- The bytes that a render has left to read. -/
def RenderProgress.work (r : RenderProgress) : Nat :=
  match r with
  | .whole => 0
  | .reading _ unread => unread.length

/-- An event of a render completes it or reads one of its bytes (rule R52). -/
theorem renderEvent_status (r : RenderProgress) (pick : Nat) (s : State) :
    (renderEvent r pick s).2 = none ∨
      ∃ next, (renderEvent r pick s).2 = some next ∧ next.work < r.work := by
  cases r with
  | whole => exact .inl rfl
  | reading base unread =>
    simp only [renderEvent]
    split
    · exact .inl rfl
    · next k hk => exact .inr ⟨_, rfl, length_erase_lt_of_pickFrom hk⟩

/-- The bytes that the refresh agent's render has left to read. -/
def State.refreshWork (s : State) : Nat := s.refresh.elim 0 RenderProgress.work

/-- The refresh agent's render has completed with `OK`. -/
structure State.Rendered (s : State) : Prop where
  idle : s.refresh = none
  response : s.responses.refresh = some { status := .ok, value := .absent }

/-- An event of the refresh agent completes its render with `OK`, or is one of those it has left. -/
theorem refreshEvent_completes_or_work_lt (hs : s.refresh ≠ none) (pick : Nat) :
    (refreshEvent pick s).Rendered ∨
      ((refreshEvent pick s).refresh ≠ none ∧
        (refreshEvent pick s).refreshWork < s.refreshWork) := by
  obtain ⟨r, hr⟩ := Option.ne_none_iff_exists'.mp hs
  simp only [refreshEvent, State.refreshWork, hr]
  rcases renderEvent_status r pick (s.readyFor r) with e | ⟨next, e, hlt⟩ <;> rw [e]
  · exact .inl ⟨rfl, rfl⟩
  · exact .inr ⟨nofun, hlt⟩

/-! ### Writes finished before a render -/

theorem State.finishAccess_noLonger (s : State) (acc : Access) :
    (s.finishAccess acc).2.NoLonger acc := by
  rcases s.finishAccess_cases acc with e | ⟨addr, v, left, rfl, e⟩ <;> rw [e]
  · exact .refl acc
  · exact ⟨rfl, Nat.zero_le _⟩

/-- The host after the writes are finished: its access at most has no byte left. -/
theorem State.finishWrites_host_cases (s : State) : s.finishWrites.host = s.host ∨
    ∃ acc new, s.host.busAccess = some acc ∧ new.NoLonger acc ∧
      s.finishWrites.host = s.host.setAccess new := by
  rcases s.finishWrites_cases with e | ⟨-, e⟩ <;> rw [e]
  · exact .inl rfl
  · rw [State.finishLoopWrite_host]
    rcases s.finishHostWrite_cases with e | ⟨addr, v, left, ha, e⟩ <;> rw [e]
    · exact .inl rfl
    · exact .inr ⟨_, .memWrite addr v [], ha, ⟨rfl, Nat.zero_le _⟩, rfl⟩

/-- The context after the writes are finished: its access at most has no byte left. -/
theorem State.finishWrites_ctx_cases (s : State) : s.finishWrites.sched.ctx = s.sched.ctx ∨
    ∃ c acc new, s.sched.ctx = some c ∧ c.activity.busAccess = some acc ∧ new.NoLonger acc ∧
      s.finishWrites.sched.ctx = some { c with activity := c.activity.setAccess new } := by
  rcases s.finishWrites_cases with e | ⟨-, e⟩ <;> rw [e]
  · exact .inl rfl
  · have hhost : s.finishHostWrite.sched = s.sched := by rw [s.finishHostWrite_frame]
    rcases s.finishHostWrite.finishLoopWrite_cases with e | ⟨c, addr, v, left, hc, ha, e⟩ <;> rw [e]
    · exact .inl (by rw [hhost])
    · rw [hhost] at hc
      refine .inr ⟨c, _, .memWrite addr v [], hc, ha, ⟨rfl, Nat.zero_le _⟩, ?_⟩
      simp [State.setBus, hhost, hc]

theorem State.finishWrites_running (s : State) :
    s.finishWrites.sched.running = s.sched.running := by
  rw [State.finishWrites_sched]
  rfl

/-- Without a lock no write is finished before a render (rule R58). -/
theorem State.finishWrites_of_fbSync_none (h : s.session.fbSync = .none) : s.finishWrites = s :=
  State.finishWrites_of_none (by simp [State.writeHalfDone, h])

/-- The scheduler after an event of the host: as it was, or with the writes finished. -/
theorem hostEvent_sched (pick : Nat) (s : State) :
    (hostEvent pick s).sched = s.sched ∨ (hostEvent pick s).sched = s.finishWrites.sched := by
  unfold hostEvent
  split
  · exact .inl rfl
  · unfold hostAccessed
    split <;> exact .inl rfl
  · split <;> exact .inl rfl
  · unfold hostStepped
    rw [unitEvent_frame]
    split <;> exact .inl rfl
  · next r _ =>
    simp only [renderAnswer]
    rw [renderEvent_frame]
    cases r with
    | whole => split <;> exact .inr rfl
    | reading base unread => split <;> exact .inl rfl

/-- The scheduler after an event of another agent than the loop: as it was, or with the writes
finished (rules R56, R58). -/
theorem runEvent_sched_of_ne_loop {b : Agent} (hb : b ≠ .loop) (pick : Nat) (s : State) :
    (runEvent b pick s).sched = s.sched ∨ (runEvent b pick s).sched = s.finishWrites.sched := by
  cases b with
  | loop => exact absurd rfl hb
  | host => exact hostEvent_sched pick s
  | refresh =>
    rcases refreshEvent_writes pick s with ⟨-, -, e⟩ | ⟨-, -, -, e⟩
    · exact .inl e
    · exact .inr e

theorem runEvent_ctxLive_of_ne_loop {b : Agent} (hb : b ≠ .loop) (pick : Nat) (s : State) :
    (runEvent b pick s).sched.ctxLive = s.sched.ctxLive := by
  rcases runEvent_sched_of_ne_loop hb pick s with e | e <;> rw [e]
  exact s.finishWrites_size_live.2

theorem runEvent_running_of_ne_loop {b : Agent} (hb : b ≠ .loop) (pick : Nat) (s : State) :
    (runEvent b pick s).sched.running = s.sched.running := by
  rcases runEvent_sched_of_ne_loop hb pick s with e | e <;> rw [e]
  exact s.finishWrites_running

theorem refreshEvent_execProg (pick : Nat) (s : State) :
    (refreshEvent pick s).execProg = s.execProg :=
  State.execProg_congr (sameSession_refreshEvent pick s) (by rw [refreshEvent_frame])

/-- An event of the refresh agent gives the loop agent no more to do. -/
theorem refreshEvent_loopWork_le (pick : Nat) (s : State) :
    (refreshEvent pick s).loopWork ≤ s.loopWork := by
  simp only [State.loopWork, refreshEvent_execProg]
  rcases runEvent_sched_of_ne_loop (b := .refresh) nofun pick s with e | e <;>
    rw [show (refreshEvent pick s).sched = _ from e]
  rcases s.finishWrites_ctx_cases with e | ⟨c, acc, new, hc, ha, hle, e⟩
  · rw [e]
  · rw [e, hc]
    exact LoopActivity.work_setAccess_le ha hle

/-! ### Operations of the host -/

/-- The activities of the host that its own events complete: all but the wait of a `STOP`. -/
def HostActivity.Active (h : HostActivity) : Prop :=
  match h with
  | .idle => False
  | .access _ => True
  | .joining => False
  | .stepping _ => True
  | .rendering _ => True

/-- The events that the host's operation has left before its last one. -/
def HostActivity.work (p : ExecProg) (h : HostActivity) : Nat :=
  match h with
  | .idle => 0
  | .access acc => acc.bytesLeft
  | .joining => 0
  | .stepping u => u.work p
  | .rendering r => r.work

/-- The events that the host's operation has left before its last one. -/
def State.hostWork (s : State) : Nat := s.host.work s.execProg

/-- The host has an operation in flight that its own events complete; a `STEP` is alone
(rule R93). -/
structure State.HostActive (s : State) : Prop where
  active : s.host.Active
  stepping_alone : ∀ u, s.host = .stepping u → s.sched.ctxLive = false

theorem State.HostActive.ne_idle (hs : s.HostActive) : s.host ≠ .idle := by
  intro h
  have := hs.active
  rwa [h] at this

theorem HostActivity.setAccess_active {h : HostActivity} (ha : h.Active) (new : Access) :
    (h.setAccess new).Active := by
  cases h with
  | access | stepping | rendering => trivial
  | idle | joining => exact ha

theorem HostActivity.stepping_of_setAccess {h : HostActivity} {new : Access} {u : UnitProgress}
    (hs : h.setAccess new = .stepping u) : ∃ v, h = .stepping v := by
  cases h with
  | stepping v => exact ⟨v, rfl⟩
  | idle | access | joining | rendering => cases hs

theorem HostActivity.work_setAccess_le {h : HostActivity} {acc new : Access}
    (ha : h.busAccess = some acc) (hle : new.NoLonger acc) :
    (h.setAccess new).work p ≤ h.work p := by
  cases h with
  | access a =>
    cases ha
    exact hle.bytes
  | stepping u => exact UnitProgress.work_setAccess_le ha hle
  | idle | joining | rendering => cases ha

/-- Only a `STEP` looks at the strategy's run. -/
theorem HostActivity.work_congr {h : HostActivity} (hs : ∀ u, h ≠ .stepping u) (p q : ExecProg) :
    h.work p = h.work q := by
  cases h with
  | stepping u => exact absurd rfl (hs u)
  | idle | access | joining | rendering => rfl

/-- An event of the active host completes its operation, or is one of those it has left. -/
theorem hostEvent_completes_or_work_lt (hs : s.HostActive) (pick : Nat) :
    (hostEvent pick s).host = .idle ∨
      ((hostEvent pick s).HostActive ∧ (hostEvent pick s).hostWork < s.hostWork) := by
  cases hh : s.host with
  | idle => exact absurd hh hs.ne_idle
  | joining => exact absurd hs.active (by simp [hh, HostActivity.Active])
  | access acc =>
    simp only [hostEvent, State.hostWork, hh]
    rcases accessEvent_status acc pick s.bus with ⟨-, v, e⟩ | ⟨-, e⟩ | ⟨next, e, -, hlt⟩ <;> rw [e]
    · exact .inl rfl
    · exact .inl rfl
    · exact .inr ⟨⟨trivial, nofun⟩, hlt⟩
  | stepping u =>
    have hframe : (unitEvent u pick s).1.sched = s.sched := by rw [unitEvent_frame]
    simp only [hostEvent, State.hostWork, hh]
    rcases unitEvent_status u pick s with ⟨r, e⟩ | ⟨v, e, hlt, hcpu⟩ <;> rw [e]
    · exact .inl rfl
    · have hp : (hostStepped (.going v) (unitEvent u pick s).1).execProg = s.execProg :=
        State.execProg_congr (sameSession_unitEvent u pick s) hcpu
      rw [hp]
      refine .inr ⟨⟨trivial, fun _ _ => ?_⟩, hlt⟩
      exact (congrArg ExecutionScheduler.ctxLive hframe).trans (hs.stepping_alone u hh)
  | rendering r =>
    simp only [hostEvent, State.hostWork, hh]
    rcases renderEvent_status r pick (s.readyFor r) with e | ⟨next, e, hlt⟩ <;> rw [e]
    · exact .inl rfl
    · exact .inr ⟨⟨trivial, nofun⟩, hlt⟩

/-- An event of the refresh agent leaves the host active, with no more to do. -/
theorem State.HostActive.after_refreshEvent (hs : s.HostActive) (pick : Nat) :
    (refreshEvent pick s).HostActive ∧ (refreshEvent pick s).hostWork ≤ s.hostWork := by
  have hlive : (refreshEvent pick s).sched.ctxLive = s.sched.ctxLive :=
    runEvent_ctxLive_of_ne_loop (b := .refresh) nofun pick s
  have hhost : (refreshEvent pick s).host = s.host ∨
      ∃ acc new, s.host.busAccess = some acc ∧ new.NoLonger acc ∧
        (refreshEvent pick s).host = s.host.setAccess new := by
    rcases refreshEvent_writes pick s with ⟨-, e, -⟩ | ⟨-, -, e, -⟩ <;> rw [e]
    · exact .inl rfl
    · exact s.finishWrites_host_cases
  rw [State.hostWork, refreshEvent_execProg]
  rcases hhost with e | ⟨acc, new, ha, hle, e⟩
  · refine ⟨⟨by rw [e]; exact hs.active, fun u hu => ?_⟩, by rw [e]; exact le_rfl⟩
    exact hlive.trans (hs.stepping_alone u (e ▸ hu))
  · refine ⟨⟨by rw [e]; exact HostActivity.setAccess_active hs.active new, fun u hu => ?_⟩,
      by rw [e]; exact HostActivity.work_setAccess_le ha hle⟩
    obtain ⟨v, hv⟩ := HostActivity.stepping_of_setAccess (e ▸ hu)
    exact hlive.trans (hs.stepping_alone v hv)

/-- An event of the loop agent leaves the host active, with no more to do: beside a `STEP` there is
none (rule R93). -/
theorem State.HostActive.after_loopEvent (hs : s.HostActive) (pick : Nat) :
    (loopEvent pick s).HostActive ∧ (loopEvent pick s).hostWork ≤ s.hostWork := by
  cases hl : s.sched.ctxLive with
  | false =>
    rw [loopEvent_of_no_context (ExecutionScheduler.ctxLive_eq_false_iff.mp hl)]
    exact ⟨hs, le_rfl⟩
  | true =>
    have hhost := (loopEvent_agents pick s).1
    have hstep : ∀ u, s.host ≠ .stepping u := fun u hu => by
      have hdead := hs.stepping_alone u hu
      simp [hl] at hdead
    refine ⟨⟨by rw [hhost]; exact hs.active, fun u hu => absurd (hhost ▸ hu) (hstep u)⟩, ?_⟩
    rw [State.hostWork, hhost]
    exact (HostActivity.work_congr hstep _ _).le

end Sys2Proof.Machine

/-! PROOF. Unscheduled turns are fair (rules R135, R150, R194; log 6): each agent moves again, so a
live loop moves, a `STOP` returns, and every operation in flight completes. -/

namespace Sys2Proof.Machine

variable {a : Agent} {s : State} {P Q : State → Prop}

/-! ### Whose turn it is -/

/-- The rounds owe a turn to each agent in rotation. -/
theorem owedAgent_rotates (a : Agent) (m : Nat) : ∃ j, owedAgent (m + j) = a := by
  have hmod : ∀ i, (m + (2 * m + i)) % 3 = i % 3 := fun i => by omega
  cases a with
  | loop => exact ⟨2 * m + 0, by simp only [owedAgent, hmod]⟩
  | host => exact ⟨2 * m + 1, by simp only [owedAgent, hmod]⟩
  | refresh => exact ⟨2 * m + 2, by simp only [owedAgent, hmod]⟩

/-- The patience of a round is used up after finitely many turns. -/
theorem UnscheduledTurns.exists_overdue (n : UnscheduledTurns) :
    ∃ k, (UnscheduledTurns.next^[k] n).rounds = n.rounds ∧
      Config.freePatience n.rounds ≤ (UnscheduledTurns.next^[k] n).waited := by
  induction hm : Config.freePatience n.rounds - n.waited generalizing n with
  | zero => exact ⟨0, rfl, Nat.le_of_sub_eq_zero hm⟩
  | succ m ih =>
    have hturn := (UnscheduledTurns.patient_turn (n := n) (by omega)).2
    obtain ⟨k, hrounds, hwaited⟩ := ih n.next (by rw [hturn]; dsimp only; omega)
    rw [hturn] at hrounds hwaited
    refine ⟨k + 1, ?_⟩
    rw [Function.iterate_succ_apply, hturn]
    exact ⟨hrounds, hwaited⟩

/-- The agent of each later round gets its turn. -/
theorem UnscheduledTurns.exists_turn_of_round (j : Nat) (n : UnscheduledTurns) :
    ∃ k, (UnscheduledTurns.next^[k] n).mover = owedAgent (n.rounds + j) := by
  induction j generalizing n with
  | zero =>
    obtain ⟨k, hrounds, hwaited⟩ := n.exists_overdue
    exact ⟨k, by rw [(UnscheduledTurns.overdue_turn (hrounds ▸ hwaited)).1, hrounds, Nat.add_zero]⟩
  | succ j ih =>
    obtain ⟨k, hrounds, hwaited⟩ := n.exists_overdue
    have hnext := (UnscheduledTurns.overdue_turn (hrounds ▸ hwaited)).2
    obtain ⟨l, hl⟩ := ih (UnscheduledTurns.next^[k + 1] n)
    refine ⟨l + (k + 1), ?_⟩
    rw [Function.iterate_add_apply, hl, Function.iterate_succ_apply', hnext, hrounds, Nat.add_assoc,
      Nat.add_comm 1 j]

/-- Every agent gets its turn (rule R150). -/
theorem UnscheduledTurns.exists_mover (a : Agent) (n : UnscheduledTurns) :
    ∃ k, (UnscheduledTurns.next^[k] n).mover = a := by
  obtain ⟨j, rfl⟩ := owedAgent_rotates a n.rounds
  exact n.exists_turn_of_round j

/-! ### Unscheduled steps -/

/-- Some number of steps leads from `s` to a state of which `Q` holds and that has no turn left. -/
def State.LeadsTo (s : State) (Q : State → Prop) : Prop :=
  ∃ n t, runSteps n s = .next t ∧ t.schedule = [] ∧ Q t

theorem State.LeadsTo.now (hs : s.schedule = []) (h : Q s) : s.LeadsTo Q := ⟨0, s, rfl, hs, h⟩

theorem State.LeadsTo.trans (h : s.LeadsTo P) (hPQ : ∀ t, t.schedule = [] → P t → t.LeadsTo Q) :
    s.LeadsTo Q := by
  obtain ⟨m, t, hm, ht, hP⟩ := h
  obtain ⟨n, u, hn, hu, hQ⟩ := hPQ t ht hP
  exact ⟨m + n, u, (runSteps_add hm).trans hn, hu, hQ⟩

/-- A machine with something to do takes an event of the mover, after some time (rule R54). -/
theorem step_unscheduled (hs : s.schedule = []) (hq : s.quiescent = false) : step s =
    .next (runEvent s.unscheduled.mover (Config.freePick s.unscheduled.taken)
      (s.tick (Config.freeElapse s.unscheduled.taken))) := by
  simp [step, hs, unscheduledTurn, hq]

theorem State.LeadsTo.step {t : State} (h : step s = .next t) (ht : t.LeadsTo Q) : s.LeadsTo Q := by
  obtain ⟨n, u, hn, hu, hQ⟩ := ht
  exact ⟨n + 1, u, by simpa only [runSteps, h] using hn, hu, hQ⟩

/-- Where `P` holds the machine has something to do, and `P` stays until agent `a` moves. -/
structure AwaitsTurn (a : Agent) (P : State → Prop) : Prop where
  busy : ∀ {s}, P s → s.quiescent = false
  tick : ∀ {s} (d : Rat), P s → P (s.tick d)
  other : ∀ {b s} (pick : Nat), b ≠ a → P s → P (runEvent b pick s)

/-- An agent that is awaited gets its turn (rule R150). -/
theorem AwaitsTurn.leadsTo_turn (h : AwaitsTurn a P) (hs : s.schedule = []) (hP : P s) :
    s.LeadsTo fun t => P t ∧ t.unscheduled.mover = a := by
  obtain ⟨k, hk⟩ := s.unscheduled.exists_mover a
  induction k generalizing s with
  | zero => exact .now hs ⟨hP, hk⟩
  | succ k ih =>
    by_cases hm : s.unscheduled.mover = a
    · exact .now hs ⟨hP, hm⟩
    · obtain ⟨hsched, hcount⟩ := runEvent_turns s.unscheduled.mover
        (Config.freePick s.unscheduled.taken) (s.tick (Config.freeElapse s.unscheduled.taken))
      refine .step (step_unscheduled hs (h.busy hP)) (ih ?_ (h.other _ hm (h.tick _ hP)) ?_)
      · exact hsched.trans hs
      · rw [hcount]
        exact hk

/-- An agent whose own events each bring it nearer to `Q`, by the measure `work` that the other
agents do not raise, reaches `Q`. -/
theorem AwaitsTurn.leadsTo {work : State → Nat}
    (h : ∀ k, AwaitsTurn a fun t => P t ∧ work t ≤ k)
    (hown : ∀ (s : State) (pick : Nat), P s →
      Q (runEvent a pick s) ∨ (P (runEvent a pick s) ∧ work (runEvent a pick s) < work s))
    (hs : s.schedule = []) (hP : P s) : s.LeadsTo Q := by
  induction hn : work s using Nat.strong_induction_on generalizing s with
  | _ n ih =>
    refine ((h n).leadsTo_turn hs ⟨hP, hn.le⟩).trans fun t ht ⟨⟨hPt, hle⟩, hm⟩ => ?_
    obtain ⟨hPtick, hletick⟩ := (h n).tick (Config.freeElapse t.unscheduled.taken) ⟨hPt, hle⟩
    have hstep := step_unscheduled ht ((h n).busy ⟨hPt, hle⟩)
    rw [hm] at hstep
    have hsched := (runEvent_turns a (Config.freePick t.unscheduled.taken)
      (t.tick (Config.freeElapse t.unscheduled.taken))).1.trans ht
    refine .step hstep ?_
    rcases hown _ (Config.freePick t.unscheduled.taken) hPtick with hQ | ⟨hPnext, hlt⟩
    · exact .now hsched hQ
    · exact ih _ (hlt.trans_le hletick) hsched hPnext rfl

/-! ### The loop agent -/

/-- The scheduler of `t` is that of `s`, but for an access of a live context whose write a locked
render has finished (rule R58). -/
structure State.SameLoop (s t : State) : Prop where
  live : t.sched.ctxLive = true
  session : t.session = s.session
  sched : t.sched = { s.sched with ctx := t.sched.ctx }
  sched_of_none : s.session.fbSync = .none → t.sched = s.sched

theorem State.quiescent_of_live (hl : s.sched.ctxLive = true) : s.quiescent = false := by
  simp [State.quiescent, hl]

theorem State.awaitsTurn_sameLoop (s : State) : AwaitsTurn .loop s.SameLoop where
  busy h := State.quiescent_of_live h.live
  tick _ h := ⟨h.live, h.session, h.sched, h.sched_of_none⟩
  other {b t} pick hb h := by
    obtain ⟨-, -, -, hsession⟩ := sameSession_runEvent b pick t
    refine ⟨(runEvent_ctxLive_of_ne_loop hb pick t).trans h.live, hsession.trans h.session, ?_,
      fun hnone => ?_⟩
    · rcases runEvent_sched_of_ne_loop hb pick t with e | e <;> rw [e]
      · exact h.sched
      · rw [t.finishWrites_sched, h.sched]
    · have hfin : t.finishWrites = t := State.finishWrites_of_fbSync_none (h.session ▸ hnone)
      rcases runEvent_sched_of_ne_loop hb pick t with e | e
      · exact e.trans (h.sched_of_none hnone)
      · rw [e, hfin]
        exact h.sched_of_none hnone

/-- A live loop moves (rule R150). -/
theorem State.leadsTo_loopEvent (hs : s.schedule = []) (hl : s.sched.ctxLive = true) :
    s.LeadsTo fun t => s.SameLoop t ∧
      ∃ pick d, step t = .next (runEvent .loop pick (t.tick d)) := by
  have hself : s.SameLoop s := ⟨hl, rfl, rfl, fun _ => rfl⟩
  refine (s.awaitsTurn_sameLoop.leadsTo_turn hs hself).trans fun t ht ⟨hsame, hm⟩ => ?_
  have hstep := step_unscheduled ht (State.quiescent_of_live hsame.live)
  rw [hm] at hstep
  exact .now ht ⟨hsame, _, _, hstep⟩

/-! ### The wait of `STOP` -/

/-- The host waits in `STOP` for a context that is on its way out (rule R127). -/
structure State.Joining (s : State) : Prop where
  host : s.host = .joining
  running : s.sched.running = false
  live : s.sched.ctxLive = true

/-- The host waits in `STOP` for a context that is gone (rule R127). -/
structure State.Joined (s : State) : Prop where
  host : s.host = .joining
  gone : s.sched.ctx = none

theorem refreshEvent_host_of_joining (hh : s.host = .joining) (pick : Nat) :
    (refreshEvent pick s).host = .joining := by
  have hfin : s.finishWrites.host = .joining := by
    rcases s.finishWrites_host_cases with e | ⟨acc, new, ha, -, -⟩
    · rw [e, hh]
    · simp [hh, HostActivity.busAccess] at ha
  rcases refreshEvent_writes pick s with ⟨-, e, -⟩ | ⟨-, -, e, -⟩
  · exact e.trans hh
  · exact e.trans hfin

theorem awaitsTurn_joining (k : Nat) : AwaitsTurn .loop fun t => t.Joining ∧ t.loopWork ≤ k where
  busy := fun ⟨h, _⟩ => State.quiescent_of_live h.live
  tick _ := fun ⟨h, hk⟩ => ⟨⟨h.host, h.running, h.live⟩, hk⟩
  other {b t} pick hb := fun ⟨h, hk⟩ => by
    cases b with
    | loop => exact absurd rfl hb
    | host =>
      rw [runEvent, hostEvent_of_joining_live h.host h.live]
      exact ⟨h, hk⟩
    | refresh =>
      exact ⟨⟨refreshEvent_host_of_joining h.host pick,
        (runEvent_running_of_ne_loop hb pick t).trans h.running,
        (runEvent_ctxLive_of_ne_loop hb pick t).trans h.live⟩,
        (refreshEvent_loopWork_le pick t).trans hk⟩

theorem loopEvent_of_joining (h : s.Joining) (pick : Nat) : (loopEvent pick s).Joined ∨
    ((loopEvent pick s).Joining ∧ (loopEvent pick s).loopWork < s.loopWork) := by
  have hhost := (loopEvent_agents pick s).1.trans h.host
  cases hl : (loopEvent pick s).sched.ctxLive with
  | false => exact .inl ⟨hhost, ExecutionScheduler.ctxLive_eq_false_iff.mp hl⟩
  | true =>
    rcases loopEvent_exits_or_work_lt h.running h.live pick with hexit | hlt
    · exact .inl ⟨hhost, hexit⟩
    · exact .inr ⟨⟨hhost, (loopEvent_running pick s).trans h.running, hl⟩, hlt⟩

theorem awaitsTurn_joined : AwaitsTurn .host State.Joined where
  busy h := by simp [State.quiescent, h.host]
  tick _ h := ⟨h.host, h.gone⟩
  other {b t} pick hb h := by
    cases b with
    | host => exact absurd rfl hb
    | loop =>
      rw [runEvent, loopEvent_of_no_context h.gone]
      exact h
    | refresh =>
      refine ⟨refreshEvent_host_of_joining h.host pick, ?_⟩
      have hlive := runEvent_ctxLive_of_ne_loop (b := .refresh) nofun pick t
      rw [ExecutionScheduler.ctxLive_eq_false_iff.mpr h.gone] at hlive
      exact ExecutionScheduler.ctxLive_eq_false_iff.mp hlive

/-- The `STOP` has returned `OK`, and the context is gone. -/
structure State.StopReturned (s : State) : Prop where
  gone : s.sched.ctx = none
  host : s.host = .idle
  response : s.responses.host = some { status := .ok, value := .absent }

theorem hostEvent_of_joined (h : s.Joined) (pick : Nat) : (hostEvent pick s).StopReturned := by
  rw [hostEvent_of_joining_gone h.host (ExecutionScheduler.ctxLive_eq_false_iff.mpr h.gone)]
  exact ⟨h.gone, rfl, rfl⟩

/-- A `STOP` in its wait returns: the loop agent exits, then the host sees it (rules R127, R150). -/
theorem State.leadsTo_stopReturned (hs : s.schedule = []) (hh : s.host = .joining)
    (hr : s.sched.running = false) : s.LeadsTo State.StopReturned := by
  have hjoined : s.LeadsTo State.Joined := by
    cases hl : s.sched.ctxLive with
    | false => exact .now hs ⟨hh, ExecutionScheduler.ctxLive_eq_false_iff.mp hl⟩
    | true =>
      exact AwaitsTurn.leadsTo awaitsTurn_joining (fun _ pick h => loopEvent_of_joining h pick) hs
        ⟨hh, hr, hl⟩
  refine hjoined.trans fun t ht h => AwaitsTurn.leadsTo (a := .host) (P := State.Joined)
    (work := fun _ => 0) (fun k => ?_) (fun u pick hu => .inl (hostEvent_of_joined hu pick)) ht h
  simpa using awaitsTurn_joined

/-! ### Operations in flight -/

theorem awaitsTurn_refresh (k : Nat) :
    AwaitsTurn .refresh fun t => t.refresh ≠ none ∧ t.refreshWork ≤ k where
  busy := fun ⟨h, _⟩ => by simp [State.quiescent, h]
  tick _ h := h
  other {b t} pick hb h := by
    have hkeep : (runEvent b pick t).refresh = t.refresh := by
      cases b with
      | refresh => exact absurd rfl hb
      | host => exact (hostEvent_frame pick t).1
      | loop => exact (loopEvent_agents pick t).2
    rw [State.refreshWork, hkeep]
    exact h

theorem awaitsTurn_hostActive (k : Nat) :
    AwaitsTurn .host fun t => t.HostActive ∧ t.hostWork ≤ k where
  busy := fun ⟨h, _⟩ => by simp [State.quiescent, h.ne_idle]
  tick _ := fun ⟨h, hk⟩ => ⟨⟨h.active, h.stepping_alone⟩, hk⟩
  other {b t} pick hb := fun ⟨h, hk⟩ => by
    cases b with
    | host => exact absurd rfl hb
    | refresh => exact (h.after_refreshEvent pick).imp_right fun hle => hle.trans hk
    | loop => exact (h.after_loopEvent pick).imp_right fun hle => hle.trans hk

/-- A render of the refresh agent completes (rules R135, R194). -/
theorem State.leadsTo_rendered (hs : s.schedule = []) (hr : s.refresh ≠ none) :
    s.LeadsTo State.Rendered :=
  AwaitsTurn.leadsTo awaitsTurn_refresh
    (fun _ pick h => refreshEvent_completes_or_work_lt h pick) hs hr

/-- Whatever the host has in flight completes (rules R135, R194). -/
theorem State.leadsTo_host_idle (hs : s.schedule = []) (hinv : s.ControlInv) :
    s.LeadsTo fun t => t.host = .idle := by
  have hactive : s.host.Active → s.LeadsTo fun t => t.host = .idle := fun h =>
    AwaitsTurn.leadsTo awaitsTurn_hostActive (fun _ pick h => hostEvent_completes_or_work_lt h pick)
      hs ⟨h, hinv.stepping_alone⟩
  cases hh : s.host with
  | idle => exact .now hs hh
  | joining =>
    have hr : s.sched.running = false := by
      simp [ExecutionScheduler.running, hinv.joining_stopped hh]
    exact (State.leadsTo_stopReturned hs hh hr).trans fun t ht h => .now ht h.host
  | access | stepping | rendering => exact hactive (by rw [hh]; trivial)

/-- Settles O46, clause by clause: the loop agent's turn, the return of `STOP`, the refresh agent's
render, and the host's operation. -/
theorem unscheduledTurnsAreFair : Obligations.UnscheduledTurnsAreFair := by
  refine ⟨fun s hs hl => ?loop, fun s hs hh hr => ?stop, fun s hs hr => ?refresh,
    fun s hs hinv => ?host⟩
  case loop =>
    obtain ⟨n, t, hn, -, hsame, pick, d, hstep⟩ := State.leadsTo_loopEvent hs hl
    exact ⟨n, t, pick, d, hn, hsame.live, hsame.sched, hsame.sched_of_none, hstep⟩
  case stop =>
    obtain ⟨n, t, hn, -, h⟩ := State.leadsTo_stopReturned hs hh hr
    exact ⟨n, t, hn, h.gone, h.host, h.response⟩
  case refresh =>
    obtain ⟨n, t, hn, -, h⟩ := State.leadsTo_rendered hs hr
    exact ⟨n, t, hn, h.idle, h.response⟩
  case host =>
    obtain ⟨n, t, hn, -, h⟩ := State.leadsTo_host_idle hs hinv
    exact ⟨n, t, hn, h⟩

end Sys2Proof.Machine

/-! PROOF. The halt entry meets the signal of a `STOP` (rule R168): both clear `isRunning`, and each
other field is written by one of them at most. -/

namespace Sys2Proof.Machine

/-- The halt entry clears `isRunning` itself, so a `STOP` before it leaves no trace in the
processor. -/
@[simp] theorem ProcessorUnit.haltedWith_stopped (c : ProcessorUnit) (info : List Word) :
    c.stopped.haltedWith info = c.haltedWith info := rfl

/-- A `STOP` keeps what the halt entry wrote: `isRunning` is false already. -/
@[simp] theorem ProcessorUnit.stopped_haltedWith (c : ProcessorUnit) (info : List Word) :
    (c.haltedWith info).stopped = c.haltedWith info := rfl

/-- The end state of the two events: the processor's part is the halt entry's, the scheduler's is
the signal's. -/
def haltedAndStopped (info : List Word) (s : State) : State :=
  { s with cpu := s.cpu.haltedWith info, sched := { s.sched with schedState := .stopped } }

theorem haltEntry_stopSignal (s : State) (info : List Word) :
    haltEntry info (stopSignal s) = haltedAndStopped info s := by
  rw [haltEntry, stopSignal_cpu, ProcessorUnit.haltedWith_stopped]
  rfl

theorem stopSignal_haltEntry (s : State) (info : List Word) :
    stopSignal (haltEntry info s) = haltedAndStopped info s := by
  rw [stopSignal, haltEntry_cpu, ProcessorUnit.stopped_haltedWith]
  rfl

/-- Settles O25: in either order the two events lead to `haltedAndStopped`, whose three fields are
those of rule R168. -/
theorem haltCommutesWithStop : Obligations.HaltCommutesWithStop := by
  intro s info
  rw [haltEntry_stopSignal, stopSignal_haltEntry]
  exact ⟨rfl, rfl, rfl, rfl⟩

end Sys2Proof.Machine

/-! PROOF. A quiescent machine stays as it is (rule R182): the counterpart of `step_unscheduled`,
which speaks of a machine with something to do. -/

namespace Sys2Proof.Machine

theorem State.quiescent_iff {s : State} :
    s.quiescent = true ↔ s.host = .idle ∧ s.refresh = none ∧ s.sched.ctx = none := by
  simp [State.quiescent, ExecutionScheduler.ctxLive, and_assoc]

theorem step_of_quiescent {s : State} (hs : s.schedule = []) (hq : s.quiescent = true) :
    step s = .next s := by
  simp only [step, hs, unscheduledTurn, hq, if_true]

/-- Settles O10: with no operation in flight and no context the machine is quiescent. -/
theorem quiescentMachineStays : Obligations.QuiescentMachineStays :=
  fun _ hs hhost hrefresh hctx =>
    step_of_quiescent hs (State.quiescent_iff.mpr ⟨hhost, hrefresh, hctx⟩)

end Sys2Proof.Machine
